-- ==== Sys2Proof/Word.lean ====
section
/-! DEFINITION. The two plain word types of the block: a 32-bit transport word and a byte (R7 `CMD_BITS`, R38). -/

namespace Sys2Proof

/-- A 32-bit word: command, operand and reply words, bus addresses, the VIC registers (R7, R20). -/
abbrev Word := BitVec 32

/-- The smallest addressable unit of `PMEM`, `GMEM` and `CFG` (R38). -/
abbrev Byte := BitVec 8

/-- A logical IRQ line number, 0..31 (R7 `NLINES`, R84). -/
abbrev Line := BitVec 5

end Sys2Proof
end

