-- ==== Sys2Proof/Config.lean ====
section
/-! DEFINITION. What an implementation or a platform fixes (the OPEN parameters and switches of R7 and
`92_eei_decisions.md`), as one record that the state carries and no step changes, and the free values (draws),
which are constants without a body. -/

namespace Sys2Proof.Config

/-- Parameter `STATUS_LEN_RULE` (U1, R162): which lengths are a status descriptor. -/
inductive StatusLenRule where
  | mod512   -- `len mod 512 = 1` (the spec's default, 90_conflicts.md C2)
  | exact1   -- `len = 1` only
deriving DecidableEq, Repr

/-- Parameter `BLK_UNKNOWN_TYPE` (U10, R159): what a request of a type other than 0 and 1 does. -/
inductive UnknownTypeRule where
  | literal  -- no transfer, the offset advances (the spec's default)
  | refuse   -- the model gives the job no meaning
deriving DecidableEq, Repr

/-- What lies behind a range of bus addresses whose accesses the spec gives no meaning. -/
inductive RegionKind where
  | collaborator  -- a register of the transport, the real interrupt controller or the storage controller (U8)
  | noAnswer      -- an offset the bus answers with an error (U6)
deriving DecidableEq, Repr

/-- A range of bus addresses, `base` to `base + size - 1`. -/
structure Region where
  base : Nat
  size : Nat
  kind : RegionKind
deriving DecidableEq, Repr

/-- `MODE_CODE` (R81, D1): the 4-bit code of each of the seven modes. The spec admits any injective map. -/
structure ModeCodes where
  write : BitVec 4
  read : BitVec 4
  ioset : BitVec 4
  ioclr : BitVec 4
  irqget : BitVec 4
  irqmask : BitVec 4
  irqunmask : BitVec 4
deriving DecidableEq, Repr

/-- The default codes of R81, which `spec/opcode_table.json` is written in: the modes in listing order from 0. -/
def defaultModeCodes : ModeCodes :=
  { write := 0#4, read := 1#4, ioset := 2#4, ioclr := 3#4, irqget := 4#4, irqmask := 5#4, irqunmask := 6#4 }

/-- The parameters of the block. They are plain data in the state, so a statement about every state holds for
every value of them; no step changes them. -/
structure Params where
  /-- `MODE_CODE` (R7, R81, D1). -/
  modeCodes : ModeCodes
  /-- `RX_DEPTH`, capacity of the guest-to-block queue (R7, D32). -/
  rxDepth : Nat
  /-- `TX_DEPTH`, capacity of the block-to-guest queue (R7, D32). -/
  txDepth : Nat
  /-- `SIZE_MAX` (R7, D27). -/
  sizeMax : Word
  /-- `SEG_MAX` (R7, D27). -/
  segMax : Word
  /-- `STATUS_LEN_RULE` (U1). -/
  statusLen : StatusLenRule
  /-- `BLK_UNKNOWN_TYPE` (U10). -/
  unknownType : UnknownTypeRule
  /-- `HWLINE` (R7, D4): entry `L` is the real line of logical line `L`; past the end the map is the identity. -/
  hwLine : List Nat
  /-- The parts of the window that are no ordinary device register (U6, U8). -/
  regions : List Region
  /-- Whether the debug assertions of R104 are compiled in. -/
  assertions : Bool
deriving DecidableEq, Repr

/-- FREE VALUE: the nonzero byte of a storage failure, one less than it (so that every value stands for a byte
1..255): `ERR_VALUE`, R160, D23, U15. Applied to the state's draw counter. -/
opaque errDraw : Nat → Fin 255

/-- FREE VALUE: a byte of a guest buffer after a failed read, or of a sector after a failed write (R157, R158,
D37, U14). Applied to the state's draw counter. -/
opaque failedByte : Nat → Byte

/-- FREE VALUE: a byte of the config space that `config_read` returns before the first `hard_reset` (R215, U13).
Applied to the state's draw counter. -/
opaque unbuiltByte : Nat → Byte

/-- FREE VALUE: the status of a storage call for which the environment has scripted none: 0 for success, nonzero
for failure (R14). Applied to the state's draw counter. -/
opaque storageStatus : Nat → Nat

end Sys2Proof.Config
end

