-- ==== Sys2Proof/Syntax.lean ====
section
/-! DEFINITION. The abstract syntax: one constructor of `Instr` for each row of `spec/opcode_table.json`. -/

namespace Sys2Proof

/-- The access width named by the 4-bit `size` field (R82). `other` carries the out-of-range code 3..15 as it
stands in the word (R89), so that no bit of an encoding is lost. -/
inductive Size where
  | byte
  | half
  | word
  | other (code : BitVec 4)
deriving DecidableEq, Repr

/-- The two encodings of the opcode table: command words (R80) and block request headers (R92). -/
inductive Format where
  | cmd
  | blkhdr
deriving DecidableEq, Repr

/-- The instruction set (R1): seven command modes, nine unknown modes, two block request types.
Fields a command ignores are kept as they stand in the word (R90). The operand word of `write`, `ioset` and
`ioclr` is no part of the syntax: it is received while the command runs (R85, R134). -/
inductive Instr where
  /-- WRITE, R137. -/
  | write (size : Size) (reg : BitVec 24)
  /-- READ, R138. -/
  | read (size : Size) (reg : BitVec 24)
  /-- IOSET, R139. -/
  | ioset (size : Size) (reg : BitVec 24)
  /-- IOCLR, R140. -/
  | ioclr (size : Size) (reg : BitVec 24)
  /-- IRQGET, R141: both fields ignored. -/
  | irqget (size : Size) (reg : BitVec 24)
  /-- IRQMASK, R142: `size` and `reg[23:5]` ignored. -/
  | irqmask (size : Size) (reg : BitVec 24)
  /-- IRQUNMASK, R143: `size` and `reg[23:5]` ignored. -/
  | irqunmask (size : Size) (reg : BitVec 24)
  /-- Unknown modes 7 to 15, R144: both fields ignored. -/
  | unknownMode7 (size : Size) (reg : BitVec 24)
  | unknownMode8 (size : Size) (reg : BitVec 24)
  | unknownMode9 (size : Size) (reg : BitVec 24)
  | unknownMode10 (size : Size) (reg : BitVec 24)
  | unknownMode11 (size : Size) (reg : BitVec 24)
  | unknownMode12 (size : Size) (reg : BitVec 24)
  | unknownMode13 (size : Size) (reg : BitVec 24)
  | unknownMode14 (size : Size) (reg : BitVec 24)
  | unknownMode15 (size : Size) (reg : BitVec 24)
  /-- A block request whose header has `type = 0`, R157: the reserved word and the first sector. -/
  | blkIn (reserved : Word) (sector : BitVec 64)
  /-- A block request whose header has `type = 1`, R158. -/
  | blkOut (reserved : Word) (sector : BitVec 64)
deriving DecidableEq, Repr

/-- Which of the two encodings an instruction is written in. -/
def Instr.format : Instr → Format
  | .blkIn _ _ => .blkhdr
  | .blkOut _ _ => .blkhdr
  | .write _ _ => .cmd
  | .read _ _ => .cmd
  | .ioset _ _ => .cmd
  | .ioclr _ _ => .cmd
  | .irqget _ _ => .cmd
  | .irqmask _ _ => .cmd
  | .irqunmask _ _ => .cmd
  | .unknownMode7 _ _ => .cmd
  | .unknownMode8 _ _ => .cmd
  | .unknownMode9 _ _ => .cmd
  | .unknownMode10 _ _ => .cmd
  | .unknownMode11 _ _ => .cmd
  | .unknownMode12 _ _ => .cmd
  | .unknownMode13 _ _ => .cmd
  | .unknownMode14 _ _ => .cmd
  | .unknownMode15 _ _ => .cmd

end Sys2Proof
end

