-- ==== Sys2Proof/WellFormed.lean ====
section
/-! DEFINITION. Which terms of `Instr` an encoding can spell: the one check is that an out-of-range size code is
one of 3..15 (R82, R89). Every other field holds every value of its width. -/

namespace Sys2Proof

/-- An out-of-range size carries a code 3..15; the codes 0, 1 and 2 have names of their own (R82). -/
def Size.wellFormed : Size → Bool
  | .byte => true
  | .half => true
  | .word => true
  | .other code => decide (3 ≤ code.toNat)

/-- A command is well formed when its size is; a request header always is. -/
def Instr.wellFormed : Instr → Bool
  | .write size _ => size.wellFormed
  | .read size _ => size.wellFormed
  | .ioset size _ => size.wellFormed
  | .ioclr size _ => size.wellFormed
  | .irqget size _ => size.wellFormed
  | .irqmask size _ => size.wellFormed
  | .irqunmask size _ => size.wellFormed
  | .unknownMode7 size _ => size.wellFormed
  | .unknownMode8 size _ => size.wellFormed
  | .unknownMode9 size _ => size.wellFormed
  | .unknownMode10 size _ => size.wellFormed
  | .unknownMode11 size _ => size.wellFormed
  | .unknownMode12 size _ => size.wellFormed
  | .unknownMode13 size _ => size.wellFormed
  | .unknownMode14 size _ => size.wellFormed
  | .unknownMode15 size _ => size.wellFormed
  | .blkIn _ _ => true
  | .blkOut _ _ => true

end Sys2Proof
end

