-- ==== Sys2Proof/Decode.lean ====
section
/-! DEFINITION. The two encodings (R80 to R99): decoding of command words and request headers, total on any words
and rejecting by name; after it the encoder; and the byte-order helpers (R55, R56) both use. -/

namespace Sys2Proof

/-! ## Little-endian bytes -/

/-- The value whose little-endian bytes are the list: the byte at the lowest offset is bits 7:0 (R55). -/
def ofBytesLE (w : Nat) : List Byte → BitVec w
  | [] => 0#w
  | b :: bs => b.setWidth w ||| (ofBytesLE w bs <<< 8)

/-- The `n` low-order bytes of a value, lowest first (R52, R55). -/
def toBytesLE : Nat → {w : Nat} → BitVec w → List Byte
  | 0, _, _ => []
  | n + 1, _, v => v.setWidth 8 :: toBytesLE n (v >>> 8)

/-- A list of words from a list of bytes, four bytes a word, little-endian. -/
def wordsOfBytes : List Byte → List Word
  | b0 :: b1 :: b2 :: b3 :: bs => ofBytesLE 32 [b0, b1, b2, b3] :: wordsOfBytes bs
  | _ => []

/-- The bytes of a list of words, little-endian. -/
def bytesOfWords : List Word → List Byte
  | [] => []
  | w :: ws => toBytesLE 4 w ++ bytesOfWords ws

/-! ## The fields of a command word (R80, R131) -/

/-- `mode`, bits 31:28. -/
def modeField (w : Word) : BitVec 4 := w.extractLsb' 28 4

/-- `size`, bits 27:24. -/
def sizeField (w : Word) : BitVec 4 := w.extractLsb' 24 4

/-- `reg`, bits 23:0. -/
def regField (w : Word) : BitVec 24 := w.extractLsb' 0 24

/-- The width a size code names (R82). -/
def sizeOfCode (c : BitVec 4) : Size :=
  if c = 0#4 then .byte
  else if c = 1#4 then .half
  else if c = 2#4 then .word
  else .other c

/-- The code of a width (R82). -/
def codeOfSize : Size → BitVec 4
  | .byte => 0#4
  | .half => 1#4
  | .word => 2#4
  | .other c => c

/-! ## Decoding -/

/-- Why a list of words is no instruction: it is too short, or it is a request header whose type is neither IN nor
OUT (R93; such a request still runs, R159, but it is no row of the opcode table). -/
inductive DecodeReject where
  | noWord
  | shortHeader
  | otherType
deriving DecidableEq, Repr

/-- The command of a command word: `mode` selects it alone (R99, R132), with the mode codes of R81. Every word
decodes (R80). -/
def decodeCommand (w : Word) : Instr :=
  let size := sizeOfCode (sizeField w)
  let reg := regField w
  match (modeField w).toNat with
  | 0 => .write size reg
  | 1 => .read size reg
  | 2 => .ioset size reg
  | 3 => .ioclr size reg
  | 4 => .irqget size reg
  | 5 => .irqmask size reg
  | 6 => .irqunmask size reg
  | 7 => .unknownMode7 size reg
  | 8 => .unknownMode8 size reg
  | 9 => .unknownMode9 size reg
  | 10 => .unknownMode10 size reg
  | 11 => .unknownMode11 size reg
  | 12 => .unknownMode12 size reg
  | 13 => .unknownMode13 size reg
  | 14 => .unknownMode14 size reg
  | _ => .unknownMode15 size reg

/-! ## Other mode codes (R81) -/

/-- The codes in the order of the modes. -/
def codeList (c : Config.ModeCodes) : List (BitVec 4) :=
  [c.write, c.read, c.ioset, c.ioclr, c.irqget, c.irqmask, c.irqunmask]

/-- How many mode values below `m` are no mode's code. -/
def unassignedBelow (c : Config.ModeCodes) (m : BitVec 4) : Nat :=
  ((List.range m.toNat).filter fun v => !(codeList c).contains (BitVec.ofNat 4 v)).length

/-- The default code of the mode a mode value stands for under `c`; a value that is no mode's code takes the default
table's unknown values 7 to 15 in rising order. -/
def defaultCodeOf (c : Config.ModeCodes) (m : BitVec 4) : BitVec 4 :=
  match (codeList c).idxOf? m with
  | some k => BitVec.ofNat 4 k
  | none => BitVec.ofNat 4 (7 + unassignedBelow c m)

/-- The command of a command word under the mode codes `c` (R81, R99): the word is read as the table's word for the
same mode. -/
def decodeCommandUnder (c : Config.ModeCodes) (w : Word) : Instr :=
  decodeCommand (defaultCodeOf c (modeField w) ++ (sizeField w ++ regField w))

/-- The request of a header's `type`, reserved and `sector_offset` fields (R92, R93): all 32 bits of `type` are
compared. -/
def decodeRequest (type reserved : Word) (sector : BitVec 64) : Except DecodeReject Instr :=
  if type = 0#32 then .ok (.blkIn reserved sector)
  else if type = 1#32 then .ok (.blkOut reserved sector)
  else .error .otherType

/-- Decode the first instruction of a list of words in one of the two formats, and the words that follow it. A
command takes one word of the list; the operand word some commands go on to receive is not decoded (R85, R134). -/
def decodeWords : Format → List Word → Except DecodeReject (Instr × List Word)
  | .cmd, w :: ws => .ok (decodeCommand w, ws)
  | .cmd, [] => .error .noWord
  | .blkhdr, type :: reserved :: lo :: hi :: ws =>
    match decodeRequest type reserved (hi ++ lo) with
    | .ok i => .ok (i, ws)
    | .error e => .error e
  | .blkhdr, _ => .error .shortHeader

/-- The number of words of `RXQ` a command occupies, told from the mode alone (R87). -/
def commandLength : Instr → Nat
  | .write _ _ => 2
  | .ioset _ _ => 2
  | .ioclr _ _ => 2
  | _ => 1

/-! ## Encoding -/

/-- `MODE_CODE` (R81, and the unknown codes of R88): the mode field of a command. A request has none; the type code
of a request is `typeCode`. -/
def modeCode : Instr → BitVec 4
  | .write _ _ => 0#4
  | .read _ _ => 1#4
  | .ioset _ _ => 2#4
  | .ioclr _ _ => 3#4
  | .irqget _ _ => 4#4
  | .irqmask _ _ => 5#4
  | .irqunmask _ _ => 6#4
  | .unknownMode7 _ _ => 7#4
  | .unknownMode8 _ _ => 8#4
  | .unknownMode9 _ _ => 9#4
  | .unknownMode10 _ _ => 10#4
  | .unknownMode11 _ _ => 11#4
  | .unknownMode12 _ _ => 12#4
  | .unknownMode13 _ _ => 13#4
  | .unknownMode14 _ _ => 14#4
  | .unknownMode15 _ _ => 15#4
  | .blkIn _ _ => 0#4
  | .blkOut _ _ => 0#4

/-- `encode(mode, size, reg)` of R91 on the three fields. -/
def encodeFields (mode size : BitVec 4) (reg : BitVec 24) : Word := mode ++ (size ++ reg)

/-- The words of an instruction: the command word (R91), or the four words of the 16-byte request header (R92). -/
def encode (i : Instr) : List Word :=
  match i with
  | .blkIn reserved sector => [0#32, reserved, sector.extractLsb' 0 32, sector.extractLsb' 32 32]
  | .blkOut reserved sector => [1#32, reserved, sector.extractLsb' 0 32, sector.extractLsb' 32 32]
  | .write size reg => [encodeFields (modeCode i) (codeOfSize size) reg]
  | .read size reg => [encodeFields (modeCode i) (codeOfSize size) reg]
  | .ioset size reg => [encodeFields (modeCode i) (codeOfSize size) reg]
  | .ioclr size reg => [encodeFields (modeCode i) (codeOfSize size) reg]
  | .irqget size reg => [encodeFields (modeCode i) (codeOfSize size) reg]
  | .irqmask size reg => [encodeFields (modeCode i) (codeOfSize size) reg]
  | .irqunmask size reg => [encodeFields (modeCode i) (codeOfSize size) reg]
  | .unknownMode7 size reg => [encodeFields (modeCode i) (codeOfSize size) reg]
  | .unknownMode8 size reg => [encodeFields (modeCode i) (codeOfSize size) reg]
  | .unknownMode9 size reg => [encodeFields (modeCode i) (codeOfSize size) reg]
  | .unknownMode10 size reg => [encodeFields (modeCode i) (codeOfSize size) reg]
  | .unknownMode11 size reg => [encodeFields (modeCode i) (codeOfSize size) reg]
  | .unknownMode12 size reg => [encodeFields (modeCode i) (codeOfSize size) reg]
  | .unknownMode13 size reg => [encodeFields (modeCode i) (codeOfSize size) reg]
  | .unknownMode14 size reg => [encodeFields (modeCode i) (codeOfSize size) reg]
  | .unknownMode15 size reg => [encodeFields (modeCode i) (codeOfSize size) reg]

/-! ## The opcode table and the host's numbering of its bits -/

/-- The `match` and `mask` of an instruction's row of `spec/opcode_table.json`, over the first word. -/
def tableRow (i : Instr) : Word × Word :=
  match i with
  | .blkIn _ _ => (0x00000000#32, 0xFFFFFFFF#32)
  | .blkOut _ _ => (0x00000001#32, 0xFFFFFFFF#32)
  | .write _ _ => (0x00000000#32, 0xF0000000#32)
  | .read _ _ => (0x10000000#32, 0xF0000000#32)
  | .ioset _ _ => (0x20000000#32, 0xF0000000#32)
  | .ioclr _ _ => (0x30000000#32, 0xF0000000#32)
  | .irqget _ _ => (0x40000000#32, 0xF0000000#32)
  | .irqmask _ _ => (0x50000000#32, 0xF0000000#32)
  | .irqunmask _ _ => (0x60000000#32, 0xF0000000#32)
  | .unknownMode7 _ _ => (0x70000000#32, 0xF0000000#32)
  | .unknownMode8 _ _ => (0x80000000#32, 0xF0000000#32)
  | .unknownMode9 _ _ => (0x90000000#32, 0xF0000000#32)
  | .unknownMode10 _ _ => (0xA0000000#32, 0xF0000000#32)
  | .unknownMode11 _ _ => (0xB0000000#32, 0xF0000000#32)
  | .unknownMode12 _ _ => (0xC0000000#32, 0xF0000000#32)
  | .unknownMode13 _ _ => (0xD0000000#32, 0xF0000000#32)
  | .unknownMode14 _ _ => (0xE0000000#32, 0xF0000000#32)
  | .unknownMode15 _ _ => (0xF0000000#32, 0xF0000000#32)

/-- Word `k` of a number whose bit 0 is the least significant bit of its first word. -/
def wordOfNat (w k : Nat) : Word := BitVec.ofNat 32 (w >>> (32 * k))

/-- Which format a table word of `nbits` bits is read in: over 64 bits it is a request header; up to that it is a
command word, with the operand word that may follow it. A BLKHDR row of the table gives the 32 bits of the header's
`type` alone, and those same 32 bits on the transport are a WRITE. The table does not say which channel a word of 32
bits is for, so the row that fixes more bits is taken: a word of 32 bits or fewer that is 0 or 1 is a header
(notes/assumptions 40). DESIGN CHOICE. -/
def tableFormat (nbits w : Nat) : Format :=
  if 64 < nbits then .blkhdr
  else if nbits ≤ 32 ∧ w % 2 ^ nbits ≤ 1 then .blkhdr
  else .cmd

/-- The words of a table word, the bits above `nbits` zero. -/
def tableWords (nbits w : Nat) : List Word :=
  let w' := w % 2 ^ nbits
  match tableFormat nbits w with
  | .cmd => [wordOfNat w' 0, wordOfNat w' 1]
  | .blkhdr => [wordOfNat w' 0, wordOfNat w' 1, wordOfNat w' 2, wordOfNat w' 3]

/-- The instruction the decoder reads from a table word. -/
def decodeTableWord (nbits w : Nat) : Option Instr :=
  match decodeWords (tableFormat nbits w) (tableWords nbits w) with
  | .ok (i, _) => some i
  | .error _ => none

end Sys2Proof
end

