-- ==== Sys2Proof/Machine/State.lean ====
section
/-! DEFINITION. The state of the block as plain data (R20, R37, R38), grouped by the owner the spec's inventory
gives each element, the reasons a step can stop, and the state after power-on (R40). -/

namespace Sys2Proof.Machine

/-- A memory: (address, byte) pairs in the canonical form of `Memory.wf` (Ops.lean). -/
abbrev Memory := List Host.Cell

/-- `DSTATE`, the dispatcher's sequencing state (R30). -/
inductive DState where
  | idle
  | poll
  | pop             -- still `POLL`: the test found a word, which the next step pops (R130)
  | exec (k : Nat)  -- a command is latched in `CW`, at step `k` of its rule
deriving DecidableEq, Repr

/-- The steps of `process_queue` (R152), one interface primitive each: 1 `fetch`; 2 `header` (the descriptor) and
`read` (the bytes); 3 `next`, 3a `desc`, 3b and 3c `act`, and `account` after a transfer; 4 `push` and `notify`. -/
inductive JobStep where
  | fetch
  | header
  | read
  | next
  | desc
  | act
  | account
  | push
  | notify
deriving DecidableEq, Repr

/-- `BSTATE`, the backend's sequencing state (R35): `B_IDLE`, `B_RESET` at step `k` of R150, `B_JOB(k)`. -/
inductive BState where
  | idle
  | hardReset (k : Nat)
  | job (k : JobStep)
deriving DecidableEq, Repr

/-- A descriptor: "a data pointer plus byte length" (R13), 32 bits each (D36). -/
structure Desc where
  ptr : Word
  len : Word
deriving DecidableEq, Repr

/-- A job of the device manager: its current descriptor (at the fetch, the first one of the chain), the ones after
it, and the bytes-written counter `WRITTEN` (R13, R34). `id` tells jobs apart. -/
structure Job where
  id : Nat
  queue : Nat
  cur : Desc
  rest : List Desc
  written : Nat
deriving DecidableEq, Repr

/-- A call of one of the interface primitives of R10 to R14, with what it carried. -/
inductive Call where
  | memRead (addr : Word) (n : Nat)
  | memWrite (addr : Word) (n : Nat) (v : Word)
  | hwArm (line : Nat)
  | hwDisarm (line : Nat)
  | guestRead (ptr : Word) (n : Nat)
  | guestWrite (ptr : Word) (b : Byte)
  | storageInit
  | storageCapacity (sectors : BitVec 64)
  | readSectors (off : BitVec 64) (cnt : Nat) (ptr : Word) (status : Nat)
  | writeSectors (off : BitVec 64) (cnt : Nat) (ptr : Word) (status : Nat)
  | recordWritten (job n : Nat)
  | pushCompleted (queue job written : Nat)
  | notifyHost (queue : Nat)
  | configByte (off : Nat) (b : Byte)
deriving DecidableEq, Repr

/-- Which agent moves next (R16), and with what: the schedule's entries. `steps` is how many atomic steps an agent
of thread context takes before the schedule is read again (R69). -/
inductive Turn where
  | dispatcher (steps : Nat)
  | backend (steps : Nat)
  | fire (line : Line)               -- the real controller dispatches the callback of a line (R112)
  | rxAvail                          -- the transport-availability callback (R186)
  | guestSend (w : Word)             -- the guest appends a word to `RXQ`
  | guestTake                        -- the guest removes the oldest word of `TXQ`
  | poke (addr : Word) (b : Byte)    -- a peripheral or the guest changes a byte of memory
  | pokeDisk (addr : Nat) (b : Byte) -- the medium changes
  | postJob (j : Job)                -- the guest posts a job
  | hardReset                        -- the device manager calls `hard_reset` (R150)
  | configRead (off : Nat)           -- the device manager calls `config_read` (R151)
  | processQueue (q : Nat)           -- the device manager calls `process_queue` (R152)
  | vicReset                         -- host firmware calls the VIC's `reset` in a critical section (R114, R211)
  | enter                            -- host firmware calls `enter` (R100)
  | leave (k : Nat)                  -- host firmware calls `leave` with the `k`-th newest token it holds (R101)
  | leaveAgain (token : Bool)        -- host firmware calls `leave` with a token it has handed back before (R105)
  | setStatus (v : Word)             -- something changes the other status bits (R27)
  | setOrder (loadFirst : Bool)      -- the order of steps a and b of IOSET and IOCLR (D10)
  | setCapacity (sectors : BitVec 64)
  | powerOn                          -- R210
deriving DecidableEq, Repr

/-- The VIC's registers (R21, R22). -/
structure Vic where
  pending : Word
  armed : Word
deriving DecidableEq, Repr

/-- The critical-section primitive: the interrupt-mask bit `I` (R25), the other bits of the status register (R27),
and the tokens host firmware outside the dispatcher holds, newest first (R26, R103). -/
structure Critical where
  imask : Bool
  statusOther : Word
  tokens : List Bool
deriving DecidableEq, Repr

/-- The dispatcher's latches and sequencing state (R28 to R30); `token` is the token an IRQ command holds (R26).
The latches `MODE`, `SIZE` and `REG` are the fields of `cw` (`modeField`, `sizeField`, `regField`). -/
structure Dispatcher where
  dstate : DState
  cw : Word
  addr : Word
  op : Word
  val : Word
  token : Bool
deriving DecidableEq, Repr

/-- The block backend (R31 to R35): the config space, the per-request latches, the job in progress and the queue
argument of the call in progress; and the values its algorithms hold from one primitive call to the next: the
descriptor got (R152 step 3a, R154), the status `st` of the transfer (R157, R158) and the capacity `c` (R150). -/
structure Backend where
  bstate : BState
  cfg : List Byte
  cfgBuilt : Bool
  rtype : Word
  soff : BitVec 64
  err : Byte
  job : Job
  queue : Nat
  desc : Desc
  st : Nat
  cap : BitVec 64
deriving DecidableEq, Repr

/-- The transport (R37): the two queues, oldest word first, the number of sync notifications raised, and the
availability event the `RxAvail` handler signals (R186). -/
structure Transport where
  rxq : List Word
  txq : List Word
  sync : Nat
  signal : Bool
deriving DecidableEq, Repr

/-- The environment as far as the block meets it: parameters, the storage driver's capacity and coming statuses,
the draw counter of the free values, the jobs posted and not yet fetched, the order of steps a and b (D10), the
schedule, the atomic steps left to the agent that moves, and the record of interface calls, oldest first. -/
structure Environment where
  params : Config.Params
  capacity : BitVec 64
  statuses : List Nat
  draws : Nat
  posted : List Job
  loadFirst : Bool
  agenda : List Turn
  budget : Nat
  calls : List Call
deriving DecidableEq, Repr

/-- The whole machine. `mem` is the host's physical address space, which both the peripheral window (`PMEM`) and
guest memory (`GMEM`) are views of (R38, U9); `disk` is the medium, byte `512 * sector + offset` (R63). -/
structure State where
  vic : Vic
  crit : Critical
  disp : Dispatcher
  blk : Backend
  io : Transport
  fatal : Bool
  mem : Memory
  disk : Memory
  env : Environment
deriving DecidableEq, Repr

/-- Why the machine stops. -/
inductive Fault where
  /-- Raised by every step of a machine whose `FATAL` flag is set: no agent has a step (R36, R180, R191). Safe: the
  spec says that the run has ended. -/
  | descLenViolation
deriving DecidableEq, Repr

/-- Why the model gives a step no meaning. -/
inductive Refusal where
  /-- Raised by `exec`'s arm of an instruction without a meaning. Safe. -/
  | notModelled (mnemonic : String)
  /-- Raised by a bus access whose address is no multiple of its width: the spec has the model refuse it (R57, D7,
  U4). Safe. -/
  | busMisaligned
  /-- Raised by a command's access to a register of the transport, the real interrupt controller or the storage
  controller (U8). Safe. -/
  | collaboratorRegister
  /-- Raised by a command's access to an address the bus answers with an error (U6, R182). Safe. -/
  | busError
  /-- Raised where a debug assertion is compiled in and fails (R104, U11). Safe. -/
  | assertionFailed
  /-- Raised by a call of the backend while another is in progress (R165, U7). Safe. -/
  | backendBusy
  /-- Raised by `process_queue` before the first `hard_reset` (R215, U13). Safe. -/
  | driverNotInitialised
  /-- Raised by a request of a type other than 0 and 1 under `BLK_UNKNOWN_TYPE = refuse` (U10). Safe. -/
  | unknownRequestType
deriving DecidableEq, Repr

/-- The outcome of one atomic step of the dispatcher: done, no step (a hold, R147), or no meaning. -/
inductive Micro where
  | done (s : State)
  | hold
  | stop (r : Refusal)
deriving DecidableEq, Repr

/-- The parameters at reset: depths that hold one command and one reply, no limits advertised, the spec's defaults
of the switches, an ordinary window (notes/assumptions 1, 5, 6, 12 to 14, 33, 34). DESIGN CHOICE, unsafe. -/
def resetParams : Config.Params :=
  { modeCodes := Config.defaultModeCodes, rxDepth := 2, txDepth := 1, sizeMax := 0#32, segMax := 0#32,
    statusLen := .mod512, unknownType := .literal, hwLine := [], regions := [], assertions := false }

/-- The descriptor the latches hold before the first request (notes/assumptions 3). -/
def resetDesc : Desc := { ptr := 0#32, len := 0#32 }

/-- The job the latches hold before the first request: all zero (notes/assumptions 3). -/
def resetJob : Job := { id := 0, queue := 0, cur := resetDesc, rest := [], written := 0 }

/-- The state after power-on (R40, R210). -/
def State.reset : State :=
  { vic := { pending := 0#32, armed := 0#32 }
    crit := { imask := false, statusOther := 0#32, tokens := [] }
    disp := { dstate := .idle, cw := 0#32, addr := 0x10000000#32, op := 0#32, val := 0#32, token := false }
    blk := { bstate := .idle, cfg := List.replicate 60 0#8, cfgBuilt := false, rtype := 0#32, soff := 0#64,
             err := 0#8, job := resetJob, queue := 0, desc := resetDesc, st := 0, cap := 0#64 }
    io := { rxq := [], txq := [], sync := 0, signal := false }
    fatal := false
    mem := []
    disk := []
    env := { params := resetParams, capacity := 0#64, statuses := [], draws := 0, posted := [], loadFirst := true,
             agenda := [], budget := 8, calls := [] } }

end Sys2Proof.Machine
end

