-- ==== Sys2Proof/Machine/Ops.lean ====
section
/-! DEFINITION. The named operations over memory, the critical section, the VIC, the transport, the bus, the storage
driver and the device manager; the one fault; and the runner that takes a command's numbered steps. -/

namespace Sys2Proof.Machine

/-! ## Memory -/

/-- What an address that no cell lists reads as (notes/assumptions 4). DESIGN CHOICE, unsafe. -/
def Memory.unlisted : Byte := 0#8

/-- The canonical form: addresses strictly rising, no cell equal to what an unlisted address reads as. -/
abbrev Memory.wf (m : Memory) : Prop :=
  List.Pairwise (fun c d : Host.Cell => c.1 < d.1) m ∧ ∀ c ∈ m, c.2 ≠ Memory.unlisted

/-- The byte at an address. -/
def Memory.read : Memory → Nat → Byte
  | [], _ => Memory.unlisted
  | (k, b) :: m, a => if a = k then b else Memory.read m a

/-- Store a byte, keeping the canonical form. -/
def Memory.write : Memory → Nat → Byte → Memory
  | [], a, v => if v = Memory.unlisted then [] else [(a, v)]
  | (k, b) :: m, a, v =>
    if a < k then (if v = Memory.unlisted then (k, b) :: m else (a, v) :: (k, b) :: m)
    else if a = k then (if v = Memory.unlisted then m else (a, v) :: m)
    else (k, b) :: Memory.write m a v

/-- The bytes at the addresses `at 0`, `at 1`, … `at (n - 1)`. -/
def Memory.readMany (m : Memory) (address : Nat → Nat) (n : Nat) : List Byte :=
  (List.range n).map fun k => m.read (address k)

/-- Store bytes at the addresses `address k`, `address (k + 1)`, … in order. -/
def Memory.writeMany (m : Memory) (address : Nat → Nat) : Nat → List Byte → Memory
  | _, [] => m
  | k, b :: bs => Memory.writeMany (m.write (address k) b) address (k + 1) bs

/-- The physical address of byte `k` after a 32-bit address; addition is modular at the width (R9, R62). -/
def byteAt (ptr : Word) (k : Nat) : Nat := (ptr + BitVec.ofNat 32 k).toNat

/-- The place of byte `k` of a transfer that starts at sector `off`: `off * 512 + k`, modulo the 2^64 sectors the
64-bit sector number addresses (R63, R157). -/
def diskAt (off : BitVec 64) (k : Nat) : Nat := (off.toNat * 512 + k) % (2 ^ 64 * 512)

/-! ## The record of interface calls -/

/-- Record a call of an interface primitive. -/
def State.note (c : Call) (s : State) : State := { s with env.calls := s.env.calls ++ [c] }

/-- Use up `n` draws of the free values. -/
def State.drawn (n : Nat) (s : State) : State := { s with env.draws := s.env.draws + n }

/-! ## The critical section (40_critical_section.md) -/

/-- `enter() -> token` (R100): the prior value of `I`, with `I` set. -/
def enter (s : State) : Bool × State := (s.crit.imask, { s with crit.imask := true })

/-- `leave(token)` (R101): restores `I` and nothing else. -/
def leave (token : Bool) (s : State) : State := { s with crit.imask := token }

/-- The assertion `need_critical` fails (R104): compiled in, and outside a masked region. -/
def needCriticalFails (s : State) : Bool := s.env.params.assertions && !s.crit.imask

/-- The assertion `need_sleep` fails (R104): compiled in, and inside a masked region. -/
def needSleepFails (s : State) : Bool := s.env.params.assertions && s.crit.imask

/-! ## The virtual interrupt controller (41_vic.md) -/

/-- The register bit of logical line `L`. -/
def lineBit (L : Line) : Word := 1#32 <<< L.toNat

/-- `HWLINE(L)` (R7, D4). -/
def hwLineOf (s : State) (L : Line) : Nat := s.env.params.hwLine.getD L.toNat L.toNat

/-- `unmask(L)` (R110). -/
def unmask (L : Line) (s : State) : State :=
  { s with vic.armed := s.vic.armed ||| lineBit L }.note (.hwArm (hwLineOf s L))

/-- `mask(L)` (R111): disarms the line and drops what is pending on it. -/
def mask (L : Line) (s : State) : State :=
  let s := s.note (.hwDisarm (hwLineOf s L))
  { s with vic := { armed := s.vic.armed &&& ~~~lineBit L, pending := s.vic.pending &&& ~~~lineBit L } }

/-- `prio` over the low `n` bits: the number of the highest bit that is set, 32 when none is. -/
def prioBelow (p : Word) : Nat → Nat
  | 0 => 32
  | n + 1 => if p.getLsbD n then n else prioBelow p n

/-- The priority encoder (R115, R117): the highest-numbered bit set, 32 for none. -/
def prio (p : Word) : Nat := prioBelow p 32

/-- `get_pending()` (R113): the highest-priority pending line, whose bit is cleared, or 32. -/
def getPending (s : State) : Nat × State :=
  let r := prio s.vic.pending
  (r, if r = 32 then s else { s with vic.pending := s.vic.pending &&& ~~~(1#32 <<< r) })

/-- `SyncNotify()` (R11). -/
def syncNotify (s : State) : State := { s with io.sync := s.io.sync + 1 }

/-- When `Fire(L)` is enabled (R112, R118, R119): the line armed, interrupts not masked, no fatal stop. -/
def fireEnabled (L : Line) (s : State) : Bool :=
  s.vic.armed.getLsbD L.toNat && !s.crit.imask && !s.fatal

/-- `Fire(L)` (R112), taking the interrupt of logical line `L`: the handler saves nothing and changes no mode
(R188), sets the pending bit, raises the sync, and returns to the interrupted agent with nothing to restore
(R189). -/
def fire (L : Line) (s : State) : State :=
  syncNotify { s with vic.pending := s.vic.pending ||| lineBit L }

/-- The VIC's `reset()` (R114): clears `PENDING` only. -/
def vicReset (s : State) : State := { s with vic.pending := 0#32 }

/-! ## The one fault -/

/-- `raise Fatal(DescLenViolation)` (R15, R36, R180, R191): the flag is set, nothing is saved, recorded or reported,
and there is no return; from then on every step is the fault `descLenViolation` (Step.lean). -/
def raiseFatal (s : State) : State := { s with fatal := true }

/-! ## The transport (R11) -/

/-- `RxRecv()` into `OP` (R29, R134): a hold while `RXQ` is empty. -/
def recvStep (s : State) : Micro :=
  if needSleepFails s then .stop .assertionFailed
  else
    match s.io.rxq with
    | [] => .hold
    | w :: ws => .done { s with disp.op := w, io.rxq := ws }

/-- `TxSend(VAL)` (R29): a hold while `TXQ` has no room. -/
def sendStep (s : State) : Micro :=
  if needSleepFails s then .stop .assertionFailed
  else if s.io.txq.length < s.env.params.txDepth then .done { s with io.txq := s.io.txq ++ [s.disp.val] }
  else .hold

/-! ## The peripheral bus (R10) -/

/-- Whether an access of `n` bytes at `addr` touches a region. -/
def touches (addr : Word) (n : Nat) (r : Config.Region) : Bool :=
  decide (addr.toNat < r.base + r.size) && decide (r.base < addr.toNat + n)

/-- Why the model gives a bus access no meaning, if it does not: a misaligned address (R57), a register of one of
the block's collaborators (U8), an address the bus answers with an error (U6). -/
def busRefusal (addr : Word) (n : Nat) (s : State) : Option Refusal :=
  if addr.toNat % n ≠ 0 then some .busMisaligned
  else
    match s.env.params.regions.find? (touches addr n) with
    | none => none
    | some r =>
      match r.kind with
      | .collaborator => some .collaboratorRegister
      | .noAnswer => some .busError

/-- `MemRead(addr, n)`, zero-extended to 32 bits (R10, R53, R56): one access, recorded. -/
def busRead (addr : Word) (n : Nat) (s : State) : Except Refusal (Word × State) :=
  match busRefusal addr n s with
  | some r => .error r
  | none => .ok (ofBytesLE 32 (s.mem.readMany (byteAt addr) n), s.note (.memRead addr n))

/-- `MemWrite(addr, n, v)` of the low `n` bytes of `v` (R10, R52, R56): one access, recorded. -/
def busWrite (addr : Word) (n : Nat) (v : Word) (s : State) : Except Refusal State :=
  match busRefusal addr n s with
  | some r => .error r
  | none =>
    .ok ({ s with mem := s.mem.writeMany (byteAt addr) 0 (toBytesLE n v) }.note
      (.memWrite addr n ((v.setWidth (8 * n)).setWidth 32)))

/-! ## Guest memory (R13, R62) -/

/-- `GuestRead(ptr, n)`: the bytes, and the state with the access recorded. -/
def guestRead (ptr : Word) (n : Nat) (s : State) : List Byte × State :=
  (s.mem.readMany (byteAt ptr) n, s.note (.guestRead ptr n))

/-- `GuestWrite(ptr, [b])`: one byte. -/
def guestWriteByte (ptr : Word) (b : Byte) (s : State) : State :=
  { s with mem := s.mem.write (byteAt ptr 0) b }.note (.guestWrite ptr b)

/-! ## Physical storage (R14) -/

/-- The status of the next storage call: the next scripted one, else a free value. -/
def nextStatus (s : State) : Nat :=
  match s.env.statuses with
  | st :: _ => st
  | [] => Config.storageStatus s.env.draws

/-- The state after a storage call has taken its status. -/
def statusTaken (s : State) : State :=
  match s.env.statuses with
  | _ :: sts => { s with env.statuses := sts }
  | [] => s.drawn 1

/-- The `n` bytes a failed transfer leaves: free values (R157, R158, D37). -/
def failedBytes (s : State) (n : Nat) : List Byte :=
  (List.range n).map fun k => Config.failedByte (s.env.draws + k)

/-- `Storage.read_sectors(off, cnt, ptr)` with the status it returns: the sectors on success, free values in the
buffer on failure. -/
def readSectors (off : BitVec 64) (cnt : Nat) (ptr : Word) (s : State) : Nat × State :=
  let st := nextStatus s
  let s := (statusTaken s).note (.readSectors off cnt ptr st)
  (st,
    if st = 0 then
      { s with mem := s.mem.writeMany (byteAt ptr) 0 (s.disk.readMany (diskAt off) (cnt * 512)) }
    else
      { s with mem := s.mem.writeMany (byteAt ptr) 0 (failedBytes s (cnt * 512)) }.drawn (cnt * 512))

/-- `Storage.write_sectors(off, cnt, ptr)` with the status it returns: the buffer's bytes on the medium on success,
free values in those sectors on failure. -/
def writeSectors (off : BitVec 64) (cnt : Nat) (ptr : Word) (s : State) : Nat × State :=
  let st := nextStatus s
  let s := (statusTaken s).note (.writeSectors off cnt ptr st)
  (st,
    if st = 0 then
      { s with disk := s.disk.writeMany (diskAt off) 0 (s.mem.readMany (byteAt ptr) (cnt * 512)) }
    else
      { s with disk := s.disk.writeMany (diskAt off) 0 (failedBytes s (cnt * 512)) }.drawn (cnt * 512))

/-! ## The device manager (R13) -/

/-- `DM.record_written(job, n)` on the job in progress (R34). -/
def recordWritten (n : Nat) (s : State) : State :=
  { s with blk.job.written := s.blk.job.written + n }.note (.recordWritten s.blk.job.id n)

/-- The first job posted on queue `q`, and the posted jobs without it (R153). -/
def takeJob (q : Nat) : List Job → Option (Job × List Job)
  | [] => none
  | j :: js =>
    if j.queue = q then some (j, js)
    else
      match takeJob q js with
      | none => none
      | some (k, ks) => some (k, j :: ks)

/-- `DM.push_completed(q, job)` (R164), with the job's `WRITTEN`. -/
def pushCompleted (s : State) : State := s.note (.pushCompleted s.blk.queue s.blk.job.id s.blk.job.written)

/-- `DM.notify_host(q)` (R164). -/
def notifyHost (s : State) : State := s.note (.notifyHost s.blk.queue)

/-! ## Running a command's steps (R30, R130) -/

/-- Take the numbered steps of a command from step `k` on, at most `n` of them: after the last one the dispatcher
polls again; a hold, or the end of the dispatcher's turn, leaves it in `EXEC(k)` at the step it did not take. -/
def runSteps : List (State → Micro) → Nat → Nat → State → Host.Outcome State Fault Refusal
  | [], _, _, s => .next { s with disp.dstate := .poll }
  | _ :: _, k, 0, s => .next { s with disp.dstate := .exec k }
  | op :: ops, k, n + 1, s =>
    match op s with
    | .done s' => runSteps ops (k + 1) n s'
    | .hold => .next { s with disp.dstate := .exec k }
    | .stop r => .refused r

/-- The step a command is at: the `k` of `EXEC(k)`, the first step when none is in flight. -/
def stepNumber (s : State) : Nat :=
  match s.disp.dstate with
  | .exec k => if k = 0 then 1 else k
  | _ => 1

/-- Run a command given by its steps from the step it is at, for the atomic steps left in the turn. -/
def runCommand (ops : List (State → Micro)) (s : State) : Host.Outcome State Fault Refusal :=
  runSteps (ops.drop (stepNumber s - 1)) (stepNumber s) s.env.budget s

end Sys2Proof.Machine
end

