-- ==== Sys2Proof/Machine/Flags.lean ====
section
/-! DEFINITION. The two flags of the block: the soft error flag `ERR` (R33, R160) and the interrupt-mask bit as an
IRQ command sets and restores it (R25, R141 to R143). There are no condition codes. -/

namespace Sys2Proof.Machine

/-- The nonzero byte of the `n`-th draw, 1..255 (`ERR_VALUE`, R160, D23). -/
def errValue (n : Nat) : Byte := BitVec.ofNat 8 ((Config.errDraw n).val + 1)

/-- Accumulate a storage status into `ERR` (R160): a failure ORs in a nonzero byte, success changes nothing. -/
def accumulate (st : Nat) (s : State) : State :=
  if st = 0 then s else { s with blk.err := s.blk.err ||| errValue s.env.draws }.drawn 1

/-- Step 1 of an IRQ command: `t <- enter()`. -/
def enterStep (s : State) : Micro := .done { (enter s).2 with disp.token := (enter s).1 }

/-- The step `leave(t)` of an IRQ command. -/
def leaveStep (s : State) : Micro := .done (leave s.disp.token s)

end Sys2Proof.Machine
end

