-- ==== Sys2Proof/Machine/Block.lean ====
section
/-! DEFINITION. The virtio block backend (43_virtio_block.md): `hard_reset`, `config_read`, the steps of
`process_queue`, and the two block requests BLK_IN and BLK_OUT. -/

namespace Sys2Proof.Machine

/-! ## The config space (R31, R32, R150, R151) -/

/-- `CFG_SIZE` (R7, R32). -/
def cfgSize : Nat := 60

/-- `CFG_OOB_VALUE` (R7, R151). -/
def cfgOutOfBounds : Byte := 0xFF#8

/-- Replace the bytes of a blob from offset `off` on. -/
def putBytes (blob : List Byte) (off : Nat) (bs : List Byte) : List Byte :=
  blob.take off ++ bs ++ blob.drop (off + bs.length)

/-- Step 4 of `hard_reset`: `capacity`, `size_max`, `seg_max` and `blk_size` in their places (R32, R150). -/
def populate (capacity : BitVec 64) (sizeMax segMax : Word) (blob : List Byte) : List Byte :=
  putBytes (putBytes (putBytes (putBytes blob 0 (toBytesLE 8 capacity)) 8 (toBytesLE 4 sizeMax)) 12
    (toBytesLE 4 segMax)) 20 (toBytesLE 4 512#32)

/-- One atomic step of `hard_reset` (R150): 1 zero the blob, 2 `Storage.init()`, 3 read the capacity, 4 populate,
5 set `CFG_BUILT`. Outside a `hard_reset` it does nothing. -/
def hardResetStep (s : State) : State :=
  match s.blk.bstate with
  | .hardReset 1 => { s with blk.cfg := List.replicate cfgSize 0#8, blk.bstate := .hardReset 2 }
  | .hardReset 2 => { s with blk.bstate := .hardReset 3 }.note .storageInit
  | .hardReset 3 =>
    { s with blk.cap := s.env.capacity, blk.bstate := .hardReset 4 }.note (.storageCapacity s.env.capacity)
  | .hardReset 4 =>
    { s with
        blk.cfg := populate s.blk.cap s.env.params.sizeMax s.env.params.segMax s.blk.cfg
        blk.bstate := .hardReset 5 }
  | .hardReset _ => { s with blk.cfgBuilt := true, blk.bstate := .idle }
  | _ => s

/-- `config_read(offset)` (R151): the sentinel out of bounds, else the byte, which is a free value before the first
`hard_reset` (R215, U13). The caller's byte, and the state after. -/
def configByte (off : Nat) (s : State) : Byte × State :=
  if cfgSize ≤ off then (cfgOutOfBounds, s)
  else if s.blk.cfgBuilt then (s.blk.cfg.getD off cfgOutOfBounds, s)
  else (Config.unbuiltByte s.env.draws, s.drawn 1)

/-! ## Descriptors (R94, R155, R156) -/

/-- The class of a descriptor after the first, by its length alone. -/
inductive DescClass where
  | data
  | status
  | violation
deriving DecidableEq, Repr

/-- Classify a length, the tests in the order of R155, under `STATUS_LEN_RULE` (U1). -/
def classify (rule : Config.StatusLenRule) (len : Word) : DescClass :=
  if len.toNat ≠ 0 ∧ len.toNat % 512 = 0 then .data
  else if len.toNat % 512 = 1 then
    match rule with
    | .mod512 => .status
    | .exact1 => if len.toNat = 1 then .status else .violation
  else .violation

/-- `cnt <- len / 512` (R156). -/
def sectorCount (len : Word) : Nat := len.toNat / 512

/-- The storage call of a data descriptor by `RTYPE` (R157, R158), with its status; for a type other than 0 and 1
there is none, and the status is 0 (R159). -/
def transfer (d : Desc) (s : State) : Nat × State :=
  if s.blk.rtype = 0#32 then readSectors s.blk.soff (sectorCount d.len) d.ptr s
  else if s.blk.rtype = 1#32 then writeSectors s.blk.soff (sectorCount d.len) d.ptr s
  else (0, s)

/-- Account for a data descriptor: an IN request records `len` bytes, whether or not its read succeeded (R157), every
other request none (R158, R159). -/
def account (d : Desc) (s : State) : State := if s.blk.rtype = 0#32 then recordWritten d.len.toNat s else s

/-- Advance the running offset by the sector count (R160), modulo 2^64. -/
def advance (d : Desc) (s : State) : State :=
  { s with blk.soff := s.blk.soff + BitVec.ofNat 64 (sectorCount d.len) }

/-! ## The steps of process_queue after the header (R152), each with at most one interface primitive (R69) -/

/-- Step 3: `DM.fetch_next_desc(job)`; false ends the loop. -/
def nextStep (s : State) : State :=
  match s.blk.job.rest with
  | [] => { s with blk.bstate := .job .push }
  | d :: ds => { s with blk.job.cur := d, blk.job.rest := ds, blk.bstate := .job .desc }

/-- `(ptr, len) <- DM.get_desc(job)` (R152 step 3a, R154), on the way to the step `k`. -/
def getDesc (k : JobStep) (s : State) : State := { s with blk.desc := s.blk.job.cur, blk.bstate := .job k }

/-- A data descriptor: the transfer, whose status is kept for the accounting (R157 to R159). -/
def dataStep (d : Desc) (s : State) : State :=
  { (transfer d s).2 with blk.st := (transfer d s).1, blk.bstate := .job .account }

/-- A status descriptor (R162): one byte, `ERR`, at the descriptor's pointer. -/
def statusStep (d : Desc) (s : State) : State :=
  { guestWriteByte d.ptr s.blk.err s with blk.bstate := .job .next }

/-- Steps 3b and 3c on the descriptor got: classify its length, and act. -/
def actStep (s : State) : State :=
  match classify s.env.params.statusLen s.blk.desc.len with
  | .data => dataStep s.blk.desc s
  | .status => statusStep s.blk.desc s
  | .violation => raiseFatal s

/-- The rest of step 3c for a data descriptor: account, advance, accumulate (R157, R160). -/
def accountStep (s : State) : State :=
  { accumulate s.blk.st (advance s.blk.desc (account s.blk.desc s)) with blk.bstate := .job .next }

/-- Step 4: the push. -/
def pushStep (s : State) : State := { pushCompleted s with blk.bstate := .job .notify }

/-- Step 4: the notification, and step 5: back to the fetch. -/
def notifyStep (s : State) : State := { notifyHost s with blk.bstate := .job .fetch }

/-- One atomic step of a request whose header has been read. A fatal stop, and a backend that is at no such step,
have none. -/
def jobStep (s : State) : State :=
  if s.fatal then s
  else
    match s.blk.bstate with
    | .job .next => nextStep s
    | .job .desc => getDesc .act s
    | .job .act => actStep s
    | .job .account => accountStep s
    | .job .push => pushStep s
    | .job .notify => notifyStep s
    | _ => s

/-- Take `n` steps of the request in progress, fewer if it completes or stops. -/
def runJob : Nat → State → State
  | 0, s => s
  | n + 1, s => runJob n (jobStep s)

/-- Step 2 of R152, the latching part (R154): `RTYPE`, `SOFF`, and `ERR` cleared. -/
def captureHeader (type : Word) (sector : BitVec 64) (s : State) : State :=
  { s with blk.rtype := type, blk.soff := sector, blk.err := 0#8, blk.bstate := .job .next }

/-- A request from its header on: the header is latched in the atomic step that has read it, the descriptors and the
completion take those left in the turn. -/
def runRequest (type : Word) (sector : BitVec 64) (s : State) : State :=
  match s.env.budget with
  | 0 => s
  | n + 1 => runJob n (captureHeader type sector s)

/-- BLK_IN (R157): a request of type IN (0). The reserved field is ignored (R154). -/
def execBlkIn (_reserved : Word) (sector : BitVec 64) (s : State) : Host.Outcome State Fault Refusal :=
  .next (runRequest 0#32 sector s)

/-- BLK_OUT (R158): a request of type OUT (1). -/
def execBlkOut (_reserved : Word) (sector : BitVec 64) (s : State) : Host.Outcome State Fault Refusal :=
  .next (runRequest 1#32 sector s)

/-- A request of any other type (R159), under `BLK_UNKNOWN_TYPE` (U10). -/
def runOtherRequest (type : Word) (sector : BitVec 64) (s : State) : Host.Outcome State Fault Refusal :=
  match s.env.params.unknownType with
  | .literal => .next (runRequest type sector s)
  | .refuse => .refused .unknownRequestType

/-- Step 1 of R152: `DM.fetch_new_job(q)` (R153). A fresh job's `WRITTEN` is 0; with no job the call ends. -/
def fetchStep (s : State) : State :=
  match takeJob s.blk.queue s.env.posted with
  | none => { s with blk.bstate := .idle }
  | some (j, js) =>
    { s with blk.job := { j with written := 0 }, env.posted := js, blk.bstate := .job .header }

end Sys2Proof.Machine
end

