-- ==== Sys2Proof/Machine/Operands.lean ====
section
/-! DEFINITION. Operand forms: the bus address and the line number of a command (R83, R84), and the width helpers
`reg_read` and `reg_write` (R135, R136) with the steps that use them. -/

namespace Sys2Proof.Machine

/-- `PERIPH_BASE` (R7). -/
def periphBase : Word := 0x10000000#32

/-- `ADDR = PERIPH_BASE + zext_32(reg)` (R50, R83). -/
def periphAddr (reg : BitVec 24) : Word := periphBase + reg.setWidth 32

/-- The logical line `reg & 0x1F` (R84). -/
def lineOf (reg : BitVec 24) : Line := reg.extractLsb' 0 5

/-- `BAD_SIZE_VALUE` (R7, R89). -/
def badSizeValue : Word := 0xDEADBEEF#32

/-- The bytes a width moves (R51, R82), none for an out-of-range size (R54). -/
def sizeBytes : Size → Option Nat
  | .byte => some 1
  | .half => some 2
  | .word => some 4
  | .other _ => none

/-- Latch `ADDR` of a command (R28, R131). -/
def latchAddr (reg : BitVec 24) (s : State) : State := { s with disp.addr := periphAddr reg }

/-- `reg_read(addr, size)` (R135). -/
def regRead (addr : Word) (size : Size) (s : State) : Except Refusal (Word × State) :=
  match sizeBytes size with
  | none => .ok (badSizeValue, s)
  | some n => busRead addr n s

/-- `reg_write(addr, size, v)` (R136). -/
def regWrite (addr : Word) (size : Size) (v : Word) (s : State) : Except Refusal State :=
  match sizeBytes size with
  | none => .ok s
  | some n => busWrite addr n v s

/-- The step `VAL <- reg_read(ADDR, SIZE)`. -/
def loadStep (size : Size) (s : State) : Micro :=
  match regRead s.disp.addr size s with
  | .ok (v, s') => .done { s' with disp.val := v }
  | .error r => .stop r

/-- The step `reg_write(ADDR, SIZE, v)` for a value computed from the latches. -/
def storeStep (size : Size) (value : State → Word) (s : State) : Micro :=
  match regWrite s.disp.addr size (value s) s with
  | .ok s' => .done s'
  | .error r => .stop r

/-- The first of steps a (load) and b (receive) of IOSET and IOCLR, in the order the environment chose (D10). -/
def ioFirstStep (size : Size) (s : State) : Micro :=
  if s.env.loadFirst then loadStep size s else recvStep s

/-- The other of the two. -/
def ioSecondStep (size : Size) (s : State) : Micro :=
  if s.env.loadFirst then recvStep s else loadStep size s

end Sys2Proof.Machine
end

