-- ==== Sys2Proof/Machine/Irq.lean ====
section
/-! DEFINITION. The three interrupt commands IRQGET, IRQMASK, IRQUNMASK (R141 to R143). Their ignored fields are
arguments that have no effect but to compute `ADDR`, which R131 computes for every command. -/

namespace Sys2Proof.Machine

/-- Step 2 of IRQGET: `VAL <- zext_32(get_pending())`, which needs a critical section (R104, R113). -/
def getPendingStep (s : State) : Micro :=
  if needCriticalFails s then .stop .assertionFailed
  else .done { (getPending s).2 with disp.val := BitVec.ofNat 32 (getPending s).1 }

/-- IRQGET (R141): the query inside a critical section, the blocking send after it. -/
def execIrqget (_size : Size) (reg : BitVec 24) (s : State) : Host.Outcome State Fault Refusal :=
  runCommand [enterStep, getPendingStep, leaveStep, sendStep] (latchAddr reg s)

/-- IRQMASK (R142). -/
def execIrqmask (_size : Size) (reg : BitVec 24) (s : State) : Host.Outcome State Fault Refusal :=
  runCommand [enterStep, fun s => .done (mask (lineOf reg) s), leaveStep] (latchAddr reg s)

/-- IRQUNMASK (R143). -/
def execIrqunmask (_size : Size) (reg : BitVec 24) (s : State) : Host.Outcome State Fault Refusal :=
  runCommand [enterStep, fun s => .done (unmask (lineOf reg) s), leaveStep] (latchAddr reg s)

end Sys2Proof.Machine
end

