-- ==== Sys2Proof/Machine/Register.lean ====
section
/-! DEFINITION. The four register commands WRITE, READ, IOSET, IOCLR (R137 to R140). -/

namespace Sys2Proof.Machine

/-- WRITE (R137): receive the operand word, then store it. -/
def execWrite (size : Size) (reg : BitVec 24) (s : State) : Host.Outcome State Fault Refusal :=
  runCommand [recvStep, storeStep size (fun s => s.disp.op)] (latchAddr reg s)

/-- READ (R138): load, then send the value. -/
def execRead (size : Size) (reg : BitVec 24) (s : State) : Host.Outcome State Fault Refusal :=
  runCommand [loadStep size, sendStep] (latchAddr reg s)

/-- IOSET (R139): load and receive in either order, then store the OR. -/
def execIoset (size : Size) (reg : BitVec 24) (s : State) : Host.Outcome State Fault Refusal :=
  runCommand [ioFirstStep size, ioSecondStep size, storeStep size (fun s => s.disp.val ||| s.disp.op)]
    (latchAddr reg s)

/-- IOCLR (R140): load and receive in either order, then store the AND with the complement of the operand. -/
def execIoclr (size : Size) (reg : BitVec 24) (s : State) : Host.Outcome State Fault Refusal :=
  runCommand [ioFirstStep size, ioSecondStep size, storeStep size (fun s => s.disp.val &&& ~~~s.disp.op)]
    (latchAddr reg s)

end Sys2Proof.Machine
end

