-- ==== Sys2Proof/Machine/Unknown.lean ====
section
/-! DEFINITION. The nine unknown modes (R88, R144): zero steps, no effect, one definition for each row. `ADDR` is
computed for them as for every command (R131). -/

namespace Sys2Proof.Machine

/-- Unknown mode 7 (R144): no step is taken and the loop goes on. -/
def execUnknownMode7 (_size : Size) (reg : BitVec 24) (s : State) : Host.Outcome State Fault Refusal :=
  runCommand [] (latchAddr reg s)

/-- Unknown mode 8 (R144): no step is taken and the loop goes on. -/
def execUnknownMode8 (_size : Size) (reg : BitVec 24) (s : State) : Host.Outcome State Fault Refusal :=
  runCommand [] (latchAddr reg s)

/-- Unknown mode 9 (R144): no step is taken and the loop goes on. -/
def execUnknownMode9 (_size : Size) (reg : BitVec 24) (s : State) : Host.Outcome State Fault Refusal :=
  runCommand [] (latchAddr reg s)

/-- Unknown mode 10 (R144): no step is taken and the loop goes on. -/
def execUnknownMode10 (_size : Size) (reg : BitVec 24) (s : State) : Host.Outcome State Fault Refusal :=
  runCommand [] (latchAddr reg s)

/-- Unknown mode 11 (R144): no step is taken and the loop goes on. -/
def execUnknownMode11 (_size : Size) (reg : BitVec 24) (s : State) : Host.Outcome State Fault Refusal :=
  runCommand [] (latchAddr reg s)

/-- Unknown mode 12 (R144): no step is taken and the loop goes on. -/
def execUnknownMode12 (_size : Size) (reg : BitVec 24) (s : State) : Host.Outcome State Fault Refusal :=
  runCommand [] (latchAddr reg s)

/-- Unknown mode 13 (R144): no step is taken and the loop goes on. -/
def execUnknownMode13 (_size : Size) (reg : BitVec 24) (s : State) : Host.Outcome State Fault Refusal :=
  runCommand [] (latchAddr reg s)

/-- Unknown mode 14 (R144): no step is taken and the loop goes on. -/
def execUnknownMode14 (_size : Size) (reg : BitVec 24) (s : State) : Host.Outcome State Fault Refusal :=
  runCommand [] (latchAddr reg s)

/-- Unknown mode 15 (R144): no step is taken and the loop goes on. -/
def execUnknownMode15 (_size : Size) (reg : BitVec 24) (s : State) : Host.Outcome State Fault Refusal :=
  runCommand [] (latchAddr reg s)

end Sys2Proof.Machine
end

