-- ==== Sys2Proof/Machine/Dispatch.lean ====
section
/-! DEFINITION. The dispatch: one arm for each constructor of `Instr` (R132, R157, R158). -/

namespace Sys2Proof.Machine

/-- The meaning of an instruction: a command runs from the step it is at, a request from its header. -/
def exec (i : Instr) (s : State) : Host.Outcome State Fault Refusal :=
  match i with
  | .write size reg => Sys2Proof.Machine.execWrite size reg s
  | .read size reg => Sys2Proof.Machine.execRead size reg s
  | .ioset size reg => Sys2Proof.Machine.execIoset size reg s
  | .ioclr size reg => Sys2Proof.Machine.execIoclr size reg s
  | .irqget size reg => Sys2Proof.Machine.execIrqget size reg s
  | .irqmask size reg => Sys2Proof.Machine.execIrqmask size reg s
  | .irqunmask size reg => Sys2Proof.Machine.execIrqunmask size reg s
  | .unknownMode7 size reg => Sys2Proof.Machine.execUnknownMode7 size reg s
  | .unknownMode8 size reg => Sys2Proof.Machine.execUnknownMode8 size reg s
  | .unknownMode9 size reg => Sys2Proof.Machine.execUnknownMode9 size reg s
  | .unknownMode10 size reg => Sys2Proof.Machine.execUnknownMode10 size reg s
  | .unknownMode11 size reg => Sys2Proof.Machine.execUnknownMode11 size reg s
  | .unknownMode12 size reg => Sys2Proof.Machine.execUnknownMode12 size reg s
  | .unknownMode13 size reg => Sys2Proof.Machine.execUnknownMode13 size reg s
  | .unknownMode14 size reg => Sys2Proof.Machine.execUnknownMode14 size reg s
  | .unknownMode15 size reg => Sys2Proof.Machine.execUnknownMode15 size reg s
  | .blkIn reserved sector => Sys2Proof.Machine.execBlkIn reserved sector s
  | .blkOut reserved sector => Sys2Proof.Machine.execBlkOut reserved sector s

end Sys2Proof.Machine
end

