-- ==== Sys2Proof/Machine/Turns.lean ====
section
/-! DEFINITION. The agents' turns (R16): the dispatcher's loop (R130), the backend's calls (R150 to R152), the two
interrupt handlers, and what the environment does to the queues, the memories and the jobs. An entry of the schedule
that is not enabled has no effect. -/

namespace Sys2Proof.Machine

/-! ## The dispatcher (R130, R131) -/

/-- `CW <- RxPop()`, decode into the latches, `DSTATE <- EXEC(1)` (R130, R131); `n` atomic steps are left in the
turn. -/
def popCommand (w : Word) (ws : List Word) (n : Nat) (s : State) : State :=
  { s with
      io.rxq := ws
      disp.cw := w
      disp.addr := periphAddr (regField w)
      disp.dstate := .exec 1
      env.budget := n }

/-- The pop and the command it begins, in a turn of `n` atomic steps; with none left, nothing. -/
def popTurn (n : Nat) (s : State) : Host.Outcome State Fault Refusal :=
  match n, s.io.rxq with
  | m + 1, w :: ws => exec (decodeCommandUnder s.env.params.modeCodes w) (popCommand w ws m s)
  | _, _ => .next s

/-- A turn of the dispatcher of at most `n` atomic steps, within one command: wake up, test the queue, pop a command and
run it, or go on with the one in flight. The test and the pop are two steps (R130). -/
def dispatcherTurn (n : Nat) (s : State) : Host.Outcome State Fault Refusal :=
  match n with
  | 0 => .next s
  | m + 1 =>
    match s.disp.dstate with
    | .idle => if s.io.signal then .next { s with io.signal := false, disp.dstate := .poll } else .next s
    | .poll =>
      match s.io.rxq with
      | [] => .next { s with disp.dstate := .idle }
      | _ :: _ => popTurn m { s with disp.dstate := .pop }
    | .pop => popTurn (m + 1) s
    | .exec _ => exec (decodeCommandUnder s.env.params.modeCodes s.disp.cw) { s with env.budget := m + 1 }

/-! ## The backend (R152) -/

/-- Take `n` steps of the `hard_reset` in progress. -/
def runHardReset : Nat → State → State
  | 0, s => s
  | n + 1, s => runHardReset n (hardResetStep s)

/-- Read the header at the descriptor got (R154) and run the request it spells: a row of the opcode table, or a
request of another type (R159). -/
def headerTurn (s : State) : Host.Outcome State Fault Refusal :=
  let h := guestRead s.blk.desc.ptr 16 s
  match decodeWords .blkhdr (wordsOfBytes h.1) with
  | .ok (i, _) => exec i h.2
  | .error _ => runOtherRequest (ofBytesLE 32 (h.1.take 4)) (ofBytesLE 64 (h.1.drop 8)) h.2

/-- A turn of the backend of at most `n` atomic steps: one step at the fetch and at the first descriptor, else up to
the end of the `hard_reset` or of the request. -/
def backendTurn (n : Nat) (s : State) : Host.Outcome State Fault Refusal :=
  match n with
  | 0 => .next s
  | m + 1 =>
    match s.blk.bstate with
    | .idle => .next s
    | .hardReset _ => .next (runHardReset (m + 1) s)
    | .job .fetch => .next (fetchStep s)
    | .job .header => .next (getDesc .read s)
    | .job .read => headerTurn { s with env.budget := m + 1 }
    | .job .next => .next (runJob (m + 1) s)
    | .job .desc => .next (runJob (m + 1) s)
    | .job .act => .next (runJob (m + 1) s)
    | .job .account => .next (runJob (m + 1) s)
    | .job .push => .next (runJob (m + 1) s)
    | .job .notify => .next (runJob (m + 1) s)

/-- The device manager's call of `hard_reset` (R150, R212): one backend call at a time (R165). -/
def hardResetTurn (s : State) : Host.Outcome State Fault Refusal :=
  if s.blk.bstate = .idle then .next { s with blk.bstate := .hardReset 1 } else .refused .backendBusy

/-- The device manager's call of `config_read` (R151, R215): the byte is handed to the caller, which the record
shows. -/
def configReadTurn (off : Nat) (s : State) : Host.Outcome State Fault Refusal :=
  if s.blk.bstate ≠ .idle then .refused .backendBusy
  else .next ((configByte off s).2.note (.configByte off (configByte off s).1))

/-- The device manager's call of `process_queue` (R152, R165, R215). -/
def processQueueTurn (q : Nat) (s : State) : Host.Outcome State Fault Refusal :=
  if s.blk.bstate ≠ .idle then .refused .backendBusy
  else if s.blk.cfgBuilt = false then .refused .driverNotInitialised
  else .next { s with blk.queue := q, blk.bstate := .job .fetch }

/-! ## Interrupt context -/

/-- The real controller dispatches the callback of line `L` (R12, R112). -/
def fireTurn (L : Line) (s : State) : State := if fireEnabled L s then fire L s else s

/-- The transport-availability line is asserted while `RXQ` is not empty (R37). -/
def rxAvailLine (s : State) : Bool := !s.io.rxq.isEmpty

/-- `RxAvail` (R186): taken only with `I = 0`, it signals the dispatch loop and does nothing else. -/
def rxAvailTurn (s : State) : State :=
  if rxAvailLine s && !s.crit.imask then { s with io.signal := true } else s

/-! ## Host firmware -/

/-- The VIC's `reset` inside a critical section (R114, R211). -/
def vicResetTurn (s : State) : State :=
  let e := enter s
  leave e.1 (vicReset e.2)

/-- `enter` by a caller outside the dispatcher, which keeps the token (R26, R100). -/
def enterTurn (s : State) : State := { (enter s).2 with crit.tokens := (enter s).1 :: s.crit.tokens }

/-- `leave` with the `k`-th newest token held, in or out of LIFO order (R101, R105); without one nothing happens. -/
def leaveTurn (k : Nat) (s : State) : State :=
  match s.crit.tokens[k]? with
  | none => s
  | some t => { leave t s with crit.tokens := s.crit.tokens.eraseIdx k }

/-! ## The guest and the devices -/

/-- The guest appends a word, if there is room (R11, R37). -/
def guestSendTurn (w : Word) (s : State) : State :=
  if s.io.rxq.length < s.env.params.rxDepth then { s with io.rxq := s.io.rxq ++ [w] } else s

/-- The guest removes the oldest reply. -/
def guestTakeTurn (s : State) : State := { s with io.txq := s.io.txq.tail }

/-- The order of steps a and b of IOSET and IOCLR; a command in flight keeps the order it began with (D10). -/
def setOrderTurn (loadFirst : Bool) (s : State) : State :=
  match s.disp.dstate with
  | .exec _ => s
  | _ => { s with env.loadFirst := loadFirst }

/-- Power-on (R40, R210): the block's own state at its power-on values, `FATAL` cleared. What belongs to the
environment stays: memories, parameters, jobs, schedule, scripts, the record of calls, the other status bits. -/
def State.powerOn (s : State) : State :=
  { s with
      vic := State.reset.vic
      crit := { imask := State.reset.crit.imask, statusOther := s.crit.statusOther, tokens := [] }
      disp := State.reset.disp
      blk := State.reset.blk
      io := State.reset.io
      fatal := false }

/-! ## The schedule -/

/-- The atomic steps a dispatcher's turn may take when the schedule gives no other number: more than the test,
the pop and the four steps of the longest command. -/
def wholeTurn : Nat := 8

/-- As many steps of the backend as the rest of the request in progress can take. -/
def wholeRequest (s : State) : Nat := 4 * s.blk.job.rest.length + 8

/-- The command in flight is at its step `RxRecv()` (R137, R139, R140). -/
def atReceive (s : State) : Bool :=
  match decodeCommandUnder s.env.params.modeCodes s.disp.cw with
  | .write _ _ => stepNumber s = 1
  | .ioset _ _ => stepNumber s = (if s.env.loadFirst then 2 else 1)
  | .ioclr _ _ => stepNumber s = (if s.env.loadFirst then 2 else 1)
  | _ => false

/-- The command in flight is at its step `TxSend(VAL)` (R138, R141). -/
def atSend (s : State) : Bool :=
  match decodeCommandUnder s.env.params.modeCodes s.disp.cw with
  | .read _ _ => stepNumber s = 2
  | .irqget _ _ => stepNumber s = 4
  | _ => false

/-- The dispatcher waits in `RxRecv` or `TxSend`: a hold that only the guest can lift (R147, R230). -/
def held (s : State) : Bool :=
  match s.disp.dstate with
  | .exec _ =>
    (atReceive s && s.io.rxq.isEmpty) || (atSend s && !decide (s.io.txq.length < s.env.params.txDepth))
  | _ => false

/-- The dispatcher has a step of its own to take: it has been signalled, it polls, or it runs a command that is not
held (R130). -/
def dispatcherReady (s : State) : Bool :=
  match s.disp.dstate with
  | .idle => s.io.signal
  | .poll => true
  | .pop => true
  | .exec _ => !held s

/-- Who moves when the schedule is empty: a waiting availability interrupt that can be taken, else the dispatcher if
it has a step, else the backend (notes/assumptions 7). DESIGN CHOICE. -/
def defaultTurn (s : State) : Turn :=
  if s.disp.dstate = .idle ∧ s.io.signal = false ∧ rxAvailLine s = true ∧ s.crit.imask = false then .rxAvail
  else if dispatcherReady s then .dispatcher wholeTurn
  else .backend (wholeRequest s)

/-- One turn of the schedule, on a machine that has not stopped. -/
def takeTurn (t : Turn) (s : State) : Host.Outcome State Fault Refusal :=
  match t with
  | .dispatcher n => dispatcherTurn n s
  | .backend n => backendTurn n s
  | .fire L => .next (fireTurn L s)
  | .rxAvail => .next (rxAvailTurn s)
  | .guestSend w => .next (guestSendTurn w s)
  | .guestTake => .next (guestTakeTurn s)
  | .poke a b => .next { s with mem := s.mem.write (byteAt a 0) b }
  | .pokeDisk a b => .next { s with disk := s.disk.write (diskAt 0#64 a) b }
  | .postJob j => .next { s with env.posted := s.env.posted ++ [j] }
  | .hardReset => hardResetTurn s
  | .configRead off => configReadTurn off s
  | .processQueue q => processQueueTurn q s
  | .vicReset => .next (vicResetTurn s)
  | .enter => .next (enterTurn s)
  | .leave k => .next (leaveTurn k s)
  | .leaveAgain token => .next (leave token s)
  | .setStatus v => .next { s with crit.statusOther := v }
  | .setOrder b => .next (setOrderTurn b s)
  | .setCapacity c => .next { s with env.capacity := c }
  | .powerOn => .next s.powerOn

/-- The turn that comes next. -/
def nextTurn (s : State) : Turn :=
  match s.env.agenda with
  | t :: _ => t
  | [] => defaultTurn s

/-- The state with that turn taken off the schedule. -/
def turnTaken (s : State) : State := { s with env.agenda := s.env.agenda.tail }

/-- A machine with `FATAL` set: no agent of the block has a step (R36, R191), so the machine stops with the fault,
unless the schedule has a new power-on, the only event that clears the flag (R210). -/
def fatalStep (s : State) : Host.Outcome State Fault Refusal :=
  match s.env.agenda with
  | .powerOn :: _ => .next (turnTaken s).powerOn
  | _ => .fault .descLenViolation

/-! ## Where the next instruction is fetched -/

/-- Put a command's words in `RXQ` and let the dispatcher poll it next: the command word, and its operand word if it
has one. The words are the opcode table's, so the mode codes are its codes. -/
def placeCommand (ws : List Word) (s : State) : State :=
  { s with
      io.rxq := ws.take (match ws with
        | w :: _ => commandLength (decodeCommand w)
        | [] => 0)
      disp.dstate := .poll
      fatal := false
      env.params.modeCodes := Config.defaultModeCodes
      env.agenda := .dispatcher wholeTurn :: s.env.agenda }

/-- Where `placeRequest` puts the header: guest memory outside the peripheral window. -/
def headerPlace : Word := 0x20000000#32

/-- Put a request header in guest memory as the only descriptor of the job in progress, already got, and let the
backend read it next. -/
def placeRequest (ws : List Word) (s : State) : State :=
  { s with
      mem := s.mem.writeMany (byteAt headerPlace) 0 (bytesOfWords ws)
      blk.job.cur := { ptr := headerPlace, len := 16#32 }
      blk.job.rest := []
      blk.desc := { ptr := headerPlace, len := 16#32 }
      blk.cfgBuilt := true
      blk.bstate := .job .read
      fatal := false
      env.agenda := .backend wholeTurn :: s.env.agenda }

/-- The state whose next step runs the instruction of a table word (`tableWords`). -/
def placeTableWord (nbits w : Nat) (s : State) : State :=
  match tableFormat nbits w with
  | .cmd => placeCommand (tableWords nbits w) s
  | .blkhdr => placeRequest (tableWords nbits w) s

end Sys2Proof.Machine
end

