-- ==== Sys2Proof/Machine/Step.lean ====
section
/-! DEFINITION. The step: one turn of the schedule (R16, R69), or the stop of a fatal machine (R36). -/

namespace Sys2Proof.Machine

/-- One step of the machine. -/
def step (s : State) : Host.Outcome State Fault Refusal :=
  if s.fatal then fatalStep s else takeTurn (nextTurn s) (turnTaken s)

/-- The state with an instruction stored where `step` takes its next one from: a command in `RXQ` with the
dispatcher polling, a request in the job the backend has fetched. -/
def State.withFetchWord (s : State) (nbits w : Nat) : State := placeTableWord nbits w s

end Sys2Proof.Machine
end

