-- ==== Sys2Proof/Safety.lean ====
section
/-! DEFINITION. What a safe run is, in the terms statements use: the invariant, the line states (R24), quiescence and
the other ends of a run (R230), and the accounts of a request (R161). -/

namespace Sys2Proof.Machine

/-! ## The invariant -/

/-- Every listed cell lies inside an address space of `n` bytes (R38). -/
abbrev Memory.within (n : Nat) (m : Memory) : Prop := ∀ c ∈ m, c.1 < n

/-- The invariant of the VIC (R23): a bit is pending only for an armed line. -/
abbrev vicInv (v : Vic) : Prop := v.pending &&& ~~~v.armed = 0#32

/-- Whether `process_queue` is running (`B_JOB`, R35). -/
def inJob : BState → Bool
  | .job _ => true
  | .hardReset _ => false
  | .idle => false

/-- A request is in progress only after a `hard_reset` (R215). -/
abbrev backendInv (b : Backend) : Prop := inJob b.bstate = true → b.cfgBuilt = true

/-- A word waits for the dispatcher between its test of the queue and its pop: nothing else takes words (R130). -/
abbrev popInv (s : State) : Prop := s.disp.dstate = .pop → s.io.rxq ≠ []

/-- What every step keeps: both memories canonical and inside their address spaces, the VIC's invariant, a config
space of 60 bytes (R31), a backend that was reset before it ran, `ADDR` the address of the command in `CW` (R28),
queues no longer than the transport's depths (R7), and a word for a dispatcher about to pop one. -/
abbrev Inv (s : State) : Prop :=
  s.mem.wf ∧ s.mem.within (2 ^ 32) ∧ s.disk.wf ∧ s.disk.within (2 ^ 64 * 512) ∧ vicInv s.vic ∧
    s.blk.cfg.length = cfgSize ∧ backendInv s.blk ∧ s.disp.addr = periphAddr (regField s.disp.cw) ∧
    s.io.rxq.length ≤ s.env.params.rxDepth ∧ s.io.txq.length ≤ s.env.params.txDepth ∧ popInv s

/-! ## States of a logical line (R24) -/

/-- The states of R24's table, its unreachable row included. -/
inductive LineState where
  | masked
  | armed
  | pending
  | unreachable
deriving DecidableEq, Repr

/-- The state of logical line `L`, read off `(ARMED[L], PENDING[L])`. -/
def lineState (v : Vic) (L : Line) : LineState :=
  match v.armed.getLsbD L.toNat, v.pending.getLsbD L.toNat with
  | false, false => .masked
  | true, false => .armed
  | true, true => .pending
  | false, true => .unreachable

/-! ## Ends of a run (R230) -/

/-- A turn in which the device manager calls the backend (R13, R150 to R152). -/
def isBackendCall : Turn → Bool
  | .hardReset => true
  | .configRead _ => true
  | .processQueue _ => true
  | _ => false

/-- A quiescent state: nothing has gone wrong, nothing is in progress, and no call of the backend is pending in the
schedule. -/
abbrev Quiescent (s : State) : Prop :=
  s.fatal = false ∧ s.disp.dstate = .idle ∧ s.io.rxq = [] ∧ s.blk.bstate = .idle ∧ s.crit.imask = false ∧
    ∀ t ∈ s.env.agenda, isBackendCall t = false

/-- A failed run: the machine has stopped for good. -/
abbrev Failed (s : State) : Prop := s.fatal = true

/-- A hold that only the guest can lift: neither quiescent nor failed (R147). -/
abbrev Holding (s : State) : Prop := s.fatal = false ∧ held s = true

/-! ## Conditions under which a command executes normally -/

/-- The bus answers an access of `n` bytes at `addr` with a value: the address is a multiple of the width (R57), and
no register of a collaborator and no erroring address is touched (U6, U8). -/
abbrev BusAnswers (addr : Word) (n : Nat) (s : State) : Prop :=
  addr.toNat % n = 0 ∧ ∀ r ∈ s.env.params.regions, touches addr n r = false

/-- A blocking transport operation may be made: the debug assertion `need_sleep` is compiled out, or interrupts are
not masked (R104). -/
abbrev MayBlock (s : State) : Prop := s.env.params.assertions = false ∨ s.crit.imask = false

/-! ## Nesting of critical sections (R102) -/

/-- Calls of `enter` (true) and of `leave` with the newest token held (false), in order. -/
def runCritical : List Bool → State → State
  | [], s => s
  | true :: ops, s => runCritical ops (enterTurn s)
  | false :: ops, s => runCritical ops (leaveTurn 0 s)

/-- From nesting depth `d` the calls never leave more sections than they have entered and end outside all of them. -/
def nests : Nat → List Bool → Bool
  | d, [] => d == 0
  | d, true :: ops => nests (d + 1) ops
  | 0, false :: _ => false
  | d + 1, false :: ops => nests d ops

/-! ## The accounts of a request (R161) -/

/-- The bytes of the data descriptors of a chain. -/
def dataBytes (rule : Config.StatusLenRule) : List Desc → Nat
  | [] => 0
  | d :: ds => (if classify rule d.len = .data then d.len.toNat else 0) + dataBytes rule ds

/-- The transfers a chain of data descriptors asks for from sector `off` on: sector, count, pointer. -/
def plannedTransfers (rule : Config.StatusLenRule) (off : BitVec 64) : List Desc → List (BitVec 64 × Nat × Word)
  | [] => []
  | d :: ds =>
    if classify rule d.len = .data then
      (off, d.len.toNat / 512, d.ptr) :: plannedTransfers rule (off + BitVec.ofNat 64 (d.len.toNat / 512)) ds
    else plannedTransfers rule off ds

/-- The pointers of the status descriptors of a chain, in order. -/
def statusPointers (rule : Config.StatusLenRule) : List Desc → List Word
  | [] => []
  | d :: ds =>
    if classify rule d.len = .status then d.ptr :: statusPointers rule ds else statusPointers rule ds

/-- Where a call writes a byte of guest memory, if it is such a call. -/
def statusWriteOf : Call → Option Word
  | .guestWrite p _ => some p
  | _ => none

/-- What a read of the medium asked for, if the call is one. -/
def readOf : Call → Option (BitVec 64 × Nat × Word)
  | .readSectors off cnt ptr _ => some (off, cnt, ptr)
  | _ => none

/-- What a write of the medium asked for, if the call is one. -/
def writeOf : Call → Option (BitVec 64 × Nat × Word)
  | .writeSectors off cnt ptr _ => some (off, cnt, ptr)
  | _ => none

/-- A call is no storage call that failed. -/
def noFailure : Call → Bool
  | .readSectors _ _ _ st => st == 0
  | .writeSectors _ _ _ st => st == 0
  | _ => true

/-- Every storage call of a list of calls returned 0. -/
def allSucceeded (cs : List Call) : Bool := cs.all noFailure

/-- A request that began in `s` has completed in `t` with the calls `cs` and `n` bytes written back: the job is pushed
with that count; one byte is written for each status descriptor of the chain, in order, at its pointer; and that byte
is 0 exactly when every storage call before it succeeded. -/
def Accounted (s t : State) (cs : List Call) (n : Nat) : Prop :=
  t.env.calls = s.env.calls ++ cs ∧ t.fatal = false ∧ t.blk.bstate = .job .fetch ∧ t.blk.job.written = n ∧
    Call.pushCompleted s.blk.queue s.blk.job.id n ∈ cs ∧
    cs.filterMap statusWriteOf = statusPointers s.env.params.statusLen s.blk.job.rest ∧
    ∀ pre p b post, cs = pre ++ .guestWrite p b :: post → (b = 0#8 ↔ allSucceeded pre = true)

/-- No descriptor of a chain has a violating length (R94). -/
abbrev NoViolation (rule : Config.StatusLenRule) (ds : List Desc) : Prop := ∀ d ∈ ds, classify rule d.len ≠ .violation

end Sys2Proof.Machine
end

