-- ==== Sys2Proof/Laws/Memory.lean ====
section
/-! SUPPORT. Memory: every operation keeps the canonical form and the address space; what a read sees after a
write. -/

namespace Sys2Proof.Machine

theorem Memory.read_eq_unlisted_of_lt {m : Memory} {a : Nat} (h : ∀ c ∈ m, a < c.1) : m.read a = Memory.unlisted := by
  induction m with
  | nil => rfl
  | cons c m ih =>
    obtain ⟨k, b⟩ := c
    have hk : a < k := h (k, b) (by simp)
    rw [Memory.read, if_neg (by omega)]
    exact ih fun d hd => h d (by simp [hd])

/-- The cells of a memory after a write are old cells, or the cell written. -/
theorem Memory.mem_write {m : Memory} {a : Nat} {v : Byte} {c : Host.Cell} (h : c ∈ m.write a v) :
    c ∈ m ∨ (c = (a, v) ∧ v ≠ Memory.unlisted) := by
  induction m with
  | nil =>
    simp only [Memory.write] at h
    split at h
    · simp at h
    · right; exact ⟨by simpa using h, by assumption⟩
  | cons d m ih =>
    obtain ⟨k, b⟩ := d
    simp only [Memory.write] at h
    split at h
    · split at h
      · exact .inl h
      · rcases List.mem_cons.1 h with rfl | h
        · exact .inr ⟨rfl, by assumption⟩
        · exact .inl h
    · split at h
      · split at h
        · exact .inl (List.mem_cons_of_mem _ h)
        · rcases List.mem_cons.1 h with rfl | h
          · exact .inr ⟨rfl, by assumption⟩
          · exact .inl (List.mem_cons_of_mem _ h)
      · rcases List.mem_cons.1 h with rfl | h
        · exact .inl (by simp)
        · rcases ih h with h | h
          · exact .inl (List.mem_cons_of_mem _ h)
          · exact .inr h

theorem Memory.write_wf {m : Memory} (h : m.wf) (a : Nat) (v : Byte) : (m.write a v).wf := by
  obtain ⟨hs, hu⟩ := h
  refine ⟨?_, fun c hc => ?_⟩
  · induction m with
    | nil => simp only [Memory.write]; split <;> simp
    | cons d m ih =>
      obtain ⟨k, b⟩ := d
      have hs' := List.pairwise_cons.1 hs
      simp only [Memory.write]
      split
      · rename_i hlt
        split
        · exact hs
        · refine List.pairwise_cons.2 ⟨fun c hc => ?_, hs⟩
          rcases List.mem_cons.1 hc with rfl | hc
          · exact hlt
          · exact lt_trans hlt (hs'.1 c hc)
      · split
        · rename_i hak
          split
          · exact hs'.2
          · exact List.pairwise_cons.2 ⟨fun c hc => by rw [hak]; exact hs'.1 c hc, hs'.2⟩
        · refine List.pairwise_cons.2 ⟨fun c hc => ?_, ih hs'.2 fun c hc => hu c (List.mem_cons_of_mem _ hc)⟩
          rcases Memory.mem_write hc with hc | ⟨rfl, -⟩
          · exact hs'.1 c hc
          · show k < a; omega
  · rcases Memory.mem_write hc with hc | ⟨rfl, hv⟩
    · exact hu c hc
    · exact hv

theorem Memory.write_within {n : Nat} {m : Memory} (h : m.within n) {a : Nat} (ha : a < n) (v : Byte) :
    (m.write a v).within n := fun c hc => by
  rcases Memory.mem_write hc with hc | ⟨rfl, -⟩
  · exact h c hc
  · exact ha

theorem Memory.read_write_self {m : Memory} (h : m.wf) (a : Nat) (v : Byte) : (m.write a v).read a = v := by
  obtain ⟨hs, -⟩ := h
  induction m with
  | nil =>
    simp only [Memory.write]; split
    · rename_i hv; rw [hv]; rfl
    · simp [Memory.read]
  | cons d m ih =>
    obtain ⟨k, b⟩ := d
    have hs' := List.pairwise_cons.1 hs
    simp only [Memory.write]
    split
    · rename_i hlt
      split
      · rename_i hv
        rw [hv]
        refine Memory.read_eq_unlisted_of_lt fun c hc => ?_
        rcases List.mem_cons.1 hc with rfl | hc
        · exact hlt
        · exact lt_trans hlt (hs'.1 c hc)
      · simp [Memory.read]
    · split
      · rename_i hak
        split
        · rename_i hv
          rw [hv]
          exact Memory.read_eq_unlisted_of_lt fun c hc => by rw [hak]; exact hs'.1 c hc
        · simp [Memory.read]
      · rename_i hak
        rw [Memory.read, if_neg hak]
        exact ih hs'.2

theorem Memory.read_write_of_ne {m : Memory} {a a' : Nat} (h : a' ≠ a) (v : Byte) :
    (m.write a v).read a' = m.read a' := by
  induction m with
  | nil =>
    simp only [Memory.write]; split
    · rfl
    · simp [Memory.read, h]
  | cons d m ih =>
    obtain ⟨k, b⟩ := d
    simp only [Memory.write]
    split
    · split
      · rfl
      · rw [Memory.read, if_neg h]
    · split
      · rename_i hak
        split
        · rw [Memory.read, if_neg (by omega)]
        · rw [Memory.read, if_neg h, Memory.read, if_neg (by omega)]
      · simp only [Memory.read]
        split
        · rfl
        · exact ih

/-! ## Many bytes -/

theorem Memory.writeMany_wf {m : Memory} (h : m.wf) (f : Nat → Nat) (k : Nat) (bs : List Byte) :
    (m.writeMany f k bs).wf := by
  induction bs generalizing m k with
  | nil => exact h
  | cons b bs ih => exact ih (Memory.write_wf h _ _) _

theorem Memory.writeMany_within {n : Nat} {m : Memory} (h : m.within n) {f : Nat → Nat} (hf : ∀ k, f k < n) (k : Nat)
    (bs : List Byte) : (m.writeMany f k bs).within n := by
  induction bs generalizing m k with
  | nil => exact h
  | cons b bs ih => exact ih (Memory.write_within h (hf k) b) _

/-- An address that is none of those written reads as before. -/
theorem Memory.read_writeMany_of_ne {m : Memory} {f : Nat → Nat} {k : Nat} {bs : List Byte} {a : Nat}
    (h : ∀ j < bs.length, a ≠ f (k + j)) : (m.writeMany f k bs).read a = m.read a := by
  induction bs generalizing m k with
  | nil => rfl
  | cons b bs ih =>
    rw [Memory.writeMany, ih fun j hj => ?_, Memory.read_write_of_ne]
    · simpa using h 0 (by simp)
    · have := h (j + 1) (by simpa using hj)
      rwa [show k + (j + 1) = k + 1 + j by omega] at this

/-- Each of the addresses written, if they differ, reads as the byte written there. -/
theorem Memory.read_writeMany {m : Memory} (hm : m.wf) {f : Nat → Nat} {k : Nat} {bs : List Byte}
    (hf : ∀ i < bs.length, ∀ j < bs.length, f (k + i) = f (k + j) → i = j) {j : Nat} (hj : j < bs.length) :
    (m.writeMany f k bs).read (f (k + j)) = bs[j] := by
  induction bs generalizing m k j with
  | nil => simp at hj
  | cons b bs ih =>
    rw [Memory.writeMany]
    cases j with
    | zero =>
      rw [Memory.read_writeMany_of_ne, Nat.add_zero, Memory.read_write_self hm]
      · rfl
      · intro i hi he
        have := hf 0 (by simp) (i + 1) (by simpa using hi) (by rw [he]; congr 1; omega)
        omega
    | succ j =>
      have := ih (m := m.write (f k) b) (Memory.write_wf hm _ _) (k := k + 1) (j := j)
        (fun i hi l hl he => by
          have := hf (i + 1) (by simpa using hi) (l + 1) (by simpa using hl)
            (by rw [show k + (i + 1) = k + 1 + i by omega, show k + (l + 1) = k + 1 + l by omega]; exact he)
          omega) (by simpa using hj)
      rw [show k + (j + 1) = k + 1 + j by omega]
      simpa using this

@[simp] theorem Memory.readMany_length (m : Memory) (f : Nat → Nat) (n : Nat) : (m.readMany f n).length = n := by
  simp [Memory.readMany]

theorem Memory.readMany_getElem (m : Memory) (f : Nat → Nat) (n j : Nat) (h : j < (m.readMany f n).length) :
    (m.readMany f n)[j] = m.read (f j) := by simp [Memory.readMany]

/-! ## The addresses of a transfer -/

theorem byteAt_lt (p : Word) (k : Nat) : byteAt p k < 2 ^ 32 := (p + BitVec.ofNat 32 k).isLt

theorem byteAt_eq (p : Word) (k : Nat) : byteAt p k = (p.toNat + k) % 2 ^ 32 := by
  simp [byteAt, BitVec.toNat_add]

/-- The bytes of a buffer no longer than the address space have different addresses. -/
theorem byteAt_inj {p : Word} {i j : Nat} (hi : i < 2 ^ 32) (hj : j < 2 ^ 32) (h : byteAt p i = byteAt p j) : i = j := by
  rw [byteAt_eq, byteAt_eq] at h
  have := p.isLt
  omega

theorem diskAt_lt (off : BitVec 64) (k : Nat) : diskAt off k < 2 ^ 64 * 512 := Nat.mod_lt _ (by decide)

theorem diskAt_inj {off : BitVec 64} {i j : Nat} (hi : i < 2 ^ 64 * 512) (hj : j < 2 ^ 64 * 512)
    (h : diskAt off i = diskAt off j) : i = j := by
  simp only [diskAt] at h
  have := off.isLt
  omega

end Sys2Proof.Machine
end

