-- ==== Sys2Proof/Laws/State.lean ====
section
/-! SUPPORT. What each named update of the state leaves in each field: one lemma per field per update, true by `rfl`,
so that no later proof unfolds an update. -/

namespace Sys2Proof.Machine

/-! ### `State.note` -/

@[simp] theorem State.note_vic (c : Call) (s : State) : (s.note c).vic = s.vic := rfl
@[simp] theorem State.note_crit (c : Call) (s : State) : (s.note c).crit = s.crit := rfl
@[simp] theorem State.note_disp (c : Call) (s : State) : (s.note c).disp = s.disp := rfl
@[simp] theorem State.note_blk (c : Call) (s : State) : (s.note c).blk = s.blk := rfl
@[simp] theorem State.note_io (c : Call) (s : State) : (s.note c).io = s.io := rfl
@[simp] theorem State.note_fatal (c : Call) (s : State) : (s.note c).fatal = s.fatal := rfl
@[simp] theorem State.note_mem (c : Call) (s : State) : (s.note c).mem = s.mem := rfl
@[simp] theorem State.note_disk (c : Call) (s : State) : (s.note c).disk = s.disk := rfl
@[simp] theorem State.note_env_params (c : Call) (s : State) : (s.note c).env.params = s.env.params := rfl
@[simp] theorem State.note_env_capacity (c : Call) (s : State) : (s.note c).env.capacity = s.env.capacity := rfl
@[simp] theorem State.note_env_statuses (c : Call) (s : State) : (s.note c).env.statuses = s.env.statuses := rfl
@[simp] theorem State.note_env_draws (c : Call) (s : State) : (s.note c).env.draws = s.env.draws := rfl
@[simp] theorem State.note_env_posted (c : Call) (s : State) : (s.note c).env.posted = s.env.posted := rfl
@[simp] theorem State.note_env_loadFirst (c : Call) (s : State) : (s.note c).env.loadFirst = s.env.loadFirst := rfl
@[simp] theorem State.note_env_agenda (c : Call) (s : State) : (s.note c).env.agenda = s.env.agenda := rfl
@[simp] theorem State.note_env_budget (c : Call) (s : State) : (s.note c).env.budget = s.env.budget := rfl
@[simp] theorem State.note_env_calls (c : Call) (s : State) : (s.note c).env.calls = s.env.calls ++ [c] := rfl

/-! ### `State.drawn` -/

@[simp] theorem State.drawn_vic (n : Nat) (s : State) : (s.drawn n).vic = s.vic := rfl
@[simp] theorem State.drawn_crit (n : Nat) (s : State) : (s.drawn n).crit = s.crit := rfl
@[simp] theorem State.drawn_disp (n : Nat) (s : State) : (s.drawn n).disp = s.disp := rfl
@[simp] theorem State.drawn_blk (n : Nat) (s : State) : (s.drawn n).blk = s.blk := rfl
@[simp] theorem State.drawn_io (n : Nat) (s : State) : (s.drawn n).io = s.io := rfl
@[simp] theorem State.drawn_fatal (n : Nat) (s : State) : (s.drawn n).fatal = s.fatal := rfl
@[simp] theorem State.drawn_mem (n : Nat) (s : State) : (s.drawn n).mem = s.mem := rfl
@[simp] theorem State.drawn_disk (n : Nat) (s : State) : (s.drawn n).disk = s.disk := rfl
@[simp] theorem State.drawn_env_params (n : Nat) (s : State) : (s.drawn n).env.params = s.env.params := rfl
@[simp] theorem State.drawn_env_capacity (n : Nat) (s : State) : (s.drawn n).env.capacity = s.env.capacity := rfl
@[simp] theorem State.drawn_env_statuses (n : Nat) (s : State) : (s.drawn n).env.statuses = s.env.statuses := rfl
@[simp] theorem State.drawn_env_draws (n : Nat) (s : State) : (s.drawn n).env.draws = s.env.draws + n := rfl
@[simp] theorem State.drawn_env_posted (n : Nat) (s : State) : (s.drawn n).env.posted = s.env.posted := rfl
@[simp] theorem State.drawn_env_loadFirst (n : Nat) (s : State) : (s.drawn n).env.loadFirst = s.env.loadFirst := rfl
@[simp] theorem State.drawn_env_agenda (n : Nat) (s : State) : (s.drawn n).env.agenda = s.env.agenda := rfl
@[simp] theorem State.drawn_env_budget (n : Nat) (s : State) : (s.drawn n).env.budget = s.env.budget := rfl
@[simp] theorem State.drawn_env_calls (n : Nat) (s : State) : (s.drawn n).env.calls = s.env.calls := rfl

/-! ### `latchAddr` -/

@[simp] theorem latchAddr_vic (reg : BitVec 24) (s : State) : (latchAddr reg s).vic = s.vic := rfl
@[simp] theorem latchAddr_crit (reg : BitVec 24) (s : State) : (latchAddr reg s).crit = s.crit := rfl
@[simp] theorem latchAddr_disp (reg : BitVec 24) (s : State) :
    (latchAddr reg s).disp = { s.disp with addr := periphAddr reg } := rfl
@[simp] theorem latchAddr_blk (reg : BitVec 24) (s : State) : (latchAddr reg s).blk = s.blk := rfl
@[simp] theorem latchAddr_io (reg : BitVec 24) (s : State) : (latchAddr reg s).io = s.io := rfl
@[simp] theorem latchAddr_fatal (reg : BitVec 24) (s : State) : (latchAddr reg s).fatal = s.fatal := rfl
@[simp] theorem latchAddr_mem (reg : BitVec 24) (s : State) : (latchAddr reg s).mem = s.mem := rfl
@[simp] theorem latchAddr_disk (reg : BitVec 24) (s : State) : (latchAddr reg s).disk = s.disk := rfl
@[simp] theorem latchAddr_env (reg : BitVec 24) (s : State) : (latchAddr reg s).env = s.env := rfl

/-! ### `leave` -/

@[simp] theorem leave_vic (t : Bool) (s : State) : (leave t s).vic = s.vic := rfl
@[simp] theorem leave_crit (t : Bool) (s : State) : (leave t s).crit = { s.crit with imask := t } := rfl
@[simp] theorem leave_disp (t : Bool) (s : State) : (leave t s).disp = s.disp := rfl
@[simp] theorem leave_blk (t : Bool) (s : State) : (leave t s).blk = s.blk := rfl
@[simp] theorem leave_io (t : Bool) (s : State) : (leave t s).io = s.io := rfl
@[simp] theorem leave_fatal (t : Bool) (s : State) : (leave t s).fatal = s.fatal := rfl
@[simp] theorem leave_mem (t : Bool) (s : State) : (leave t s).mem = s.mem := rfl
@[simp] theorem leave_disk (t : Bool) (s : State) : (leave t s).disk = s.disk := rfl
@[simp] theorem leave_env (t : Bool) (s : State) : (leave t s).env = s.env := rfl

/-! ### `syncNotify` -/

@[simp] theorem syncNotify_vic (s : State) : (syncNotify s).vic = s.vic := rfl
@[simp] theorem syncNotify_crit (s : State) : (syncNotify s).crit = s.crit := rfl
@[simp] theorem syncNotify_disp (s : State) : (syncNotify s).disp = s.disp := rfl
@[simp] theorem syncNotify_blk (s : State) : (syncNotify s).blk = s.blk := rfl
@[simp] theorem syncNotify_io (s : State) : (syncNotify s).io = { s.io with sync := s.io.sync + 1 } := rfl
@[simp] theorem syncNotify_fatal (s : State) : (syncNotify s).fatal = s.fatal := rfl
@[simp] theorem syncNotify_mem (s : State) : (syncNotify s).mem = s.mem := rfl
@[simp] theorem syncNotify_disk (s : State) : (syncNotify s).disk = s.disk := rfl
@[simp] theorem syncNotify_env (s : State) : (syncNotify s).env = s.env := rfl

/-! ### `vicReset` -/

@[simp] theorem vicReset_vic (s : State) : (vicReset s).vic = { s.vic with pending := 0#32 } := rfl
@[simp] theorem vicReset_crit (s : State) : (vicReset s).crit = s.crit := rfl
@[simp] theorem vicReset_disp (s : State) : (vicReset s).disp = s.disp := rfl
@[simp] theorem vicReset_blk (s : State) : (vicReset s).blk = s.blk := rfl
@[simp] theorem vicReset_io (s : State) : (vicReset s).io = s.io := rfl
@[simp] theorem vicReset_fatal (s : State) : (vicReset s).fatal = s.fatal := rfl
@[simp] theorem vicReset_mem (s : State) : (vicReset s).mem = s.mem := rfl
@[simp] theorem vicReset_disk (s : State) : (vicReset s).disk = s.disk := rfl
@[simp] theorem vicReset_env (s : State) : (vicReset s).env = s.env := rfl

/-! ### `raiseFatal` -/

@[simp] theorem raiseFatal_vic (s : State) : (raiseFatal s).vic = s.vic := rfl
@[simp] theorem raiseFatal_crit (s : State) : (raiseFatal s).crit = s.crit := rfl
@[simp] theorem raiseFatal_disp (s : State) : (raiseFatal s).disp = s.disp := rfl
@[simp] theorem raiseFatal_blk (s : State) : (raiseFatal s).blk = s.blk := rfl
@[simp] theorem raiseFatal_io (s : State) : (raiseFatal s).io = s.io := rfl
@[simp] theorem raiseFatal_fatal (s : State) : (raiseFatal s).fatal = true := rfl
@[simp] theorem raiseFatal_mem (s : State) : (raiseFatal s).mem = s.mem := rfl
@[simp] theorem raiseFatal_disk (s : State) : (raiseFatal s).disk = s.disk := rfl
@[simp] theorem raiseFatal_env (s : State) : (raiseFatal s).env = s.env := rfl

/-! ### `fire` -/

@[simp] theorem fire_vic (L : Line) (s : State) :
    (fire L s).vic = { s.vic with pending := s.vic.pending ||| lineBit L } := rfl
@[simp] theorem fire_crit (L : Line) (s : State) : (fire L s).crit = s.crit := rfl
@[simp] theorem fire_disp (L : Line) (s : State) : (fire L s).disp = s.disp := rfl
@[simp] theorem fire_blk (L : Line) (s : State) : (fire L s).blk = s.blk := rfl
@[simp] theorem fire_io (L : Line) (s : State) : (fire L s).io = { s.io with sync := s.io.sync + 1 } := rfl
@[simp] theorem fire_fatal (L : Line) (s : State) : (fire L s).fatal = s.fatal := rfl
@[simp] theorem fire_mem (L : Line) (s : State) : (fire L s).mem = s.mem := rfl
@[simp] theorem fire_disk (L : Line) (s : State) : (fire L s).disk = s.disk := rfl
@[simp] theorem fire_env (L : Line) (s : State) : (fire L s).env = s.env := rfl

/-! ### `advance` -/

@[simp] theorem advance_vic (d : Desc) (s : State) : (advance d s).vic = s.vic := rfl
@[simp] theorem advance_crit (d : Desc) (s : State) : (advance d s).crit = s.crit := rfl
@[simp] theorem advance_disp (d : Desc) (s : State) : (advance d s).disp = s.disp := rfl
@[simp] theorem advance_blk (d : Desc) (s : State) :
    (advance d s).blk = { s.blk with soff := s.blk.soff + BitVec.ofNat 64 (sectorCount d.len) } := rfl
@[simp] theorem advance_io (d : Desc) (s : State) : (advance d s).io = s.io := rfl
@[simp] theorem advance_fatal (d : Desc) (s : State) : (advance d s).fatal = s.fatal := rfl
@[simp] theorem advance_mem (d : Desc) (s : State) : (advance d s).mem = s.mem := rfl
@[simp] theorem advance_disk (d : Desc) (s : State) : (advance d s).disk = s.disk := rfl
@[simp] theorem advance_env (d : Desc) (s : State) : (advance d s).env = s.env := rfl

/-! ### `captureHeader` -/

@[simp] theorem captureHeader_vic (ty : Word) (sec : BitVec 64) (s : State) :
    (captureHeader ty sec s).vic = s.vic := rfl
@[simp] theorem captureHeader_crit (ty : Word) (sec : BitVec 64) (s : State) :
    (captureHeader ty sec s).crit = s.crit := rfl
@[simp] theorem captureHeader_disp (ty : Word) (sec : BitVec 64) (s : State) :
    (captureHeader ty sec s).disp = s.disp := rfl
@[simp] theorem captureHeader_blk (ty : Word) (sec : BitVec 64) (s : State) :
    (captureHeader ty sec s).blk = { s.blk with rtype := ty, soff := sec, err := 0#8, bstate := .job .next } := rfl
@[simp] theorem captureHeader_io (ty : Word) (sec : BitVec 64) (s : State) : (captureHeader ty sec s).io = s.io := rfl
@[simp] theorem captureHeader_fatal (ty : Word) (sec : BitVec 64) (s : State) :
    (captureHeader ty sec s).fatal = s.fatal := rfl
@[simp] theorem captureHeader_mem (ty : Word) (sec : BitVec 64) (s : State) :
    (captureHeader ty sec s).mem = s.mem := rfl
@[simp] theorem captureHeader_disk (ty : Word) (sec : BitVec 64) (s : State) :
    (captureHeader ty sec s).disk = s.disk := rfl
@[simp] theorem captureHeader_env (ty : Word) (sec : BitVec 64) (s : State) :
    (captureHeader ty sec s).env = s.env := rfl

/-! ### `recordWritten` -/

@[simp] theorem recordWritten_vic (n : Nat) (s : State) : (recordWritten n s).vic = s.vic := rfl
@[simp] theorem recordWritten_crit (n : Nat) (s : State) : (recordWritten n s).crit = s.crit := rfl
@[simp] theorem recordWritten_disp (n : Nat) (s : State) : (recordWritten n s).disp = s.disp := rfl
@[simp] theorem recordWritten_blk (n : Nat) (s : State) :
    (recordWritten n s).blk = { s.blk with job := { s.blk.job with written := s.blk.job.written + n } } := rfl
@[simp] theorem recordWritten_io (n : Nat) (s : State) : (recordWritten n s).io = s.io := rfl
@[simp] theorem recordWritten_fatal (n : Nat) (s : State) : (recordWritten n s).fatal = s.fatal := rfl
@[simp] theorem recordWritten_mem (n : Nat) (s : State) : (recordWritten n s).mem = s.mem := rfl
@[simp] theorem recordWritten_disk (n : Nat) (s : State) : (recordWritten n s).disk = s.disk := rfl
@[simp] theorem recordWritten_env_params (n : Nat) (s : State) : (recordWritten n s).env.params = s.env.params := rfl
@[simp] theorem recordWritten_env_capacity (n : Nat) (s : State) :
    (recordWritten n s).env.capacity = s.env.capacity := rfl
@[simp] theorem recordWritten_env_statuses (n : Nat) (s : State) :
    (recordWritten n s).env.statuses = s.env.statuses := rfl
@[simp] theorem recordWritten_env_draws (n : Nat) (s : State) : (recordWritten n s).env.draws = s.env.draws := rfl
@[simp] theorem recordWritten_env_posted (n : Nat) (s : State) : (recordWritten n s).env.posted = s.env.posted := rfl
@[simp] theorem recordWritten_env_loadFirst (n : Nat) (s : State) :
    (recordWritten n s).env.loadFirst = s.env.loadFirst := rfl
@[simp] theorem recordWritten_env_agenda (n : Nat) (s : State) : (recordWritten n s).env.agenda = s.env.agenda := rfl
@[simp] theorem recordWritten_env_budget (n : Nat) (s : State) : (recordWritten n s).env.budget = s.env.budget := rfl
@[simp] theorem recordWritten_env_calls (n : Nat) (s : State) :
    (recordWritten n s).env.calls = s.env.calls ++ [.recordWritten s.blk.job.id n] := rfl

/-! ### `guestWriteByte` -/

@[simp] theorem guestWriteByte_vic (p : Word) (b : Byte) (s : State) : (guestWriteByte p b s).vic = s.vic := rfl
@[simp] theorem guestWriteByte_crit (p : Word) (b : Byte) (s : State) : (guestWriteByte p b s).crit = s.crit := rfl
@[simp] theorem guestWriteByte_disp (p : Word) (b : Byte) (s : State) : (guestWriteByte p b s).disp = s.disp := rfl
@[simp] theorem guestWriteByte_blk (p : Word) (b : Byte) (s : State) : (guestWriteByte p b s).blk = s.blk := rfl
@[simp] theorem guestWriteByte_io (p : Word) (b : Byte) (s : State) : (guestWriteByte p b s).io = s.io := rfl
@[simp] theorem guestWriteByte_fatal (p : Word) (b : Byte) (s : State) : (guestWriteByte p b s).fatal = s.fatal := rfl
@[simp] theorem guestWriteByte_mem (p : Word) (b : Byte) (s : State) :
    (guestWriteByte p b s).mem = s.mem.write (byteAt p 0) b := rfl
@[simp] theorem guestWriteByte_disk (p : Word) (b : Byte) (s : State) : (guestWriteByte p b s).disk = s.disk := rfl
@[simp] theorem guestWriteByte_env_params (p : Word) (b : Byte) (s : State) :
    (guestWriteByte p b s).env.params = s.env.params := rfl
@[simp] theorem guestWriteByte_env_capacity (p : Word) (b : Byte) (s : State) :
    (guestWriteByte p b s).env.capacity = s.env.capacity := rfl
@[simp] theorem guestWriteByte_env_statuses (p : Word) (b : Byte) (s : State) :
    (guestWriteByte p b s).env.statuses = s.env.statuses := rfl
@[simp] theorem guestWriteByte_env_draws (p : Word) (b : Byte) (s : State) :
    (guestWriteByte p b s).env.draws = s.env.draws := rfl
@[simp] theorem guestWriteByte_env_posted (p : Word) (b : Byte) (s : State) :
    (guestWriteByte p b s).env.posted = s.env.posted := rfl
@[simp] theorem guestWriteByte_env_loadFirst (p : Word) (b : Byte) (s : State) :
    (guestWriteByte p b s).env.loadFirst = s.env.loadFirst := rfl
@[simp] theorem guestWriteByte_env_agenda (p : Word) (b : Byte) (s : State) :
    (guestWriteByte p b s).env.agenda = s.env.agenda := rfl
@[simp] theorem guestWriteByte_env_budget (p : Word) (b : Byte) (s : State) :
    (guestWriteByte p b s).env.budget = s.env.budget := rfl
@[simp] theorem guestWriteByte_env_calls (p : Word) (b : Byte) (s : State) :
    (guestWriteByte p b s).env.calls = s.env.calls ++ [.guestWrite p b] := rfl

/-! ### `pushCompleted` -/

@[simp] theorem pushCompleted_vic (s : State) : (pushCompleted s).vic = s.vic := rfl
@[simp] theorem pushCompleted_crit (s : State) : (pushCompleted s).crit = s.crit := rfl
@[simp] theorem pushCompleted_disp (s : State) : (pushCompleted s).disp = s.disp := rfl
@[simp] theorem pushCompleted_blk (s : State) : (pushCompleted s).blk = s.blk := rfl
@[simp] theorem pushCompleted_io (s : State) : (pushCompleted s).io = s.io := rfl
@[simp] theorem pushCompleted_fatal (s : State) : (pushCompleted s).fatal = s.fatal := rfl
@[simp] theorem pushCompleted_mem (s : State) : (pushCompleted s).mem = s.mem := rfl
@[simp] theorem pushCompleted_disk (s : State) : (pushCompleted s).disk = s.disk := rfl
@[simp] theorem pushCompleted_env_params (s : State) : (pushCompleted s).env.params = s.env.params := rfl
@[simp] theorem pushCompleted_env_capacity (s : State) : (pushCompleted s).env.capacity = s.env.capacity := rfl
@[simp] theorem pushCompleted_env_statuses (s : State) : (pushCompleted s).env.statuses = s.env.statuses := rfl
@[simp] theorem pushCompleted_env_draws (s : State) : (pushCompleted s).env.draws = s.env.draws := rfl
@[simp] theorem pushCompleted_env_posted (s : State) : (pushCompleted s).env.posted = s.env.posted := rfl
@[simp] theorem pushCompleted_env_loadFirst (s : State) : (pushCompleted s).env.loadFirst = s.env.loadFirst := rfl
@[simp] theorem pushCompleted_env_agenda (s : State) : (pushCompleted s).env.agenda = s.env.agenda := rfl
@[simp] theorem pushCompleted_env_budget (s : State) : (pushCompleted s).env.budget = s.env.budget := rfl
@[simp] theorem pushCompleted_env_calls (s : State) : (pushCompleted s).env.calls = s.env.calls ++ [.pushCompleted s.blk.queue s.blk.job.id s.blk.job.written] := rfl

/-! ### `notifyHost` -/

@[simp] theorem notifyHost_vic (s : State) : (notifyHost s).vic = s.vic := rfl
@[simp] theorem notifyHost_crit (s : State) : (notifyHost s).crit = s.crit := rfl
@[simp] theorem notifyHost_disp (s : State) : (notifyHost s).disp = s.disp := rfl
@[simp] theorem notifyHost_blk (s : State) : (notifyHost s).blk = s.blk := rfl
@[simp] theorem notifyHost_io (s : State) : (notifyHost s).io = s.io := rfl
@[simp] theorem notifyHost_fatal (s : State) : (notifyHost s).fatal = s.fatal := rfl
@[simp] theorem notifyHost_mem (s : State) : (notifyHost s).mem = s.mem := rfl
@[simp] theorem notifyHost_disk (s : State) : (notifyHost s).disk = s.disk := rfl
@[simp] theorem notifyHost_env_params (s : State) : (notifyHost s).env.params = s.env.params := rfl
@[simp] theorem notifyHost_env_capacity (s : State) : (notifyHost s).env.capacity = s.env.capacity := rfl
@[simp] theorem notifyHost_env_statuses (s : State) : (notifyHost s).env.statuses = s.env.statuses := rfl
@[simp] theorem notifyHost_env_draws (s : State) : (notifyHost s).env.draws = s.env.draws := rfl
@[simp] theorem notifyHost_env_posted (s : State) : (notifyHost s).env.posted = s.env.posted := rfl
@[simp] theorem notifyHost_env_loadFirst (s : State) : (notifyHost s).env.loadFirst = s.env.loadFirst := rfl
@[simp] theorem notifyHost_env_agenda (s : State) : (notifyHost s).env.agenda = s.env.agenda := rfl
@[simp] theorem notifyHost_env_budget (s : State) : (notifyHost s).env.budget = s.env.budget := rfl
@[simp] theorem notifyHost_env_calls (s : State) : (notifyHost s).env.calls = s.env.calls ++ [.notifyHost s.blk.queue] := rfl

/-! ### `getDesc` -/

@[simp] theorem getDesc_vic (k : JobStep) (s : State) : (getDesc k s).vic = s.vic := rfl
@[simp] theorem getDesc_crit (k : JobStep) (s : State) : (getDesc k s).crit = s.crit := rfl
@[simp] theorem getDesc_disp (k : JobStep) (s : State) : (getDesc k s).disp = s.disp := rfl
@[simp] theorem getDesc_blk (k : JobStep) (s : State) :
    (getDesc k s).blk = { s.blk with desc := s.blk.job.cur, bstate := .job k } := rfl
@[simp] theorem getDesc_io (k : JobStep) (s : State) : (getDesc k s).io = s.io := rfl
@[simp] theorem getDesc_fatal (k : JobStep) (s : State) : (getDesc k s).fatal = s.fatal := rfl
@[simp] theorem getDesc_mem (k : JobStep) (s : State) : (getDesc k s).mem = s.mem := rfl
@[simp] theorem getDesc_disk (k : JobStep) (s : State) : (getDesc k s).disk = s.disk := rfl
@[simp] theorem getDesc_env (k : JobStep) (s : State) : (getDesc k s).env = s.env := rfl

/-! ### `turnTaken` -/

@[simp] theorem turnTaken_vic (s : State) : (turnTaken s).vic = s.vic := rfl
@[simp] theorem turnTaken_crit (s : State) : (turnTaken s).crit = s.crit := rfl
@[simp] theorem turnTaken_disp (s : State) : (turnTaken s).disp = s.disp := rfl
@[simp] theorem turnTaken_blk (s : State) : (turnTaken s).blk = s.blk := rfl
@[simp] theorem turnTaken_io (s : State) : (turnTaken s).io = s.io := rfl
@[simp] theorem turnTaken_fatal (s : State) : (turnTaken s).fatal = s.fatal := rfl
@[simp] theorem turnTaken_mem (s : State) : (turnTaken s).mem = s.mem := rfl
@[simp] theorem turnTaken_disk (s : State) : (turnTaken s).disk = s.disk := rfl
@[simp] theorem turnTaken_env_params (s : State) : (turnTaken s).env.params = s.env.params := rfl
@[simp] theorem turnTaken_env_capacity (s : State) : (turnTaken s).env.capacity = s.env.capacity := rfl
@[simp] theorem turnTaken_env_statuses (s : State) : (turnTaken s).env.statuses = s.env.statuses := rfl
@[simp] theorem turnTaken_env_draws (s : State) : (turnTaken s).env.draws = s.env.draws := rfl
@[simp] theorem turnTaken_env_posted (s : State) : (turnTaken s).env.posted = s.env.posted := rfl
@[simp] theorem turnTaken_env_loadFirst (s : State) : (turnTaken s).env.loadFirst = s.env.loadFirst := rfl
@[simp] theorem turnTaken_env_agenda (s : State) : (turnTaken s).env.agenda = s.env.agenda.tail := rfl
@[simp] theorem turnTaken_env_budget (s : State) : (turnTaken s).env.budget = s.env.budget := rfl
@[simp] theorem turnTaken_env_calls (s : State) : (turnTaken s).env.calls = s.env.calls := rfl

/-! ### `unmask` -/

@[simp] theorem unmask_vic (L : Line) (s : State) :
    (unmask L s).vic = { s.vic with armed := s.vic.armed ||| lineBit L } := rfl
@[simp] theorem unmask_crit (L : Line) (s : State) : (unmask L s).crit = s.crit := rfl
@[simp] theorem unmask_disp (L : Line) (s : State) : (unmask L s).disp = s.disp := rfl
@[simp] theorem unmask_blk (L : Line) (s : State) : (unmask L s).blk = s.blk := rfl
@[simp] theorem unmask_io (L : Line) (s : State) : (unmask L s).io = s.io := rfl
@[simp] theorem unmask_fatal (L : Line) (s : State) : (unmask L s).fatal = s.fatal := rfl
@[simp] theorem unmask_mem (L : Line) (s : State) : (unmask L s).mem = s.mem := rfl
@[simp] theorem unmask_disk (L : Line) (s : State) : (unmask L s).disk = s.disk := rfl
@[simp] theorem unmask_env_params (L : Line) (s : State) : (unmask L s).env.params = s.env.params := rfl
@[simp] theorem unmask_env_capacity (L : Line) (s : State) : (unmask L s).env.capacity = s.env.capacity := rfl
@[simp] theorem unmask_env_statuses (L : Line) (s : State) : (unmask L s).env.statuses = s.env.statuses := rfl
@[simp] theorem unmask_env_draws (L : Line) (s : State) : (unmask L s).env.draws = s.env.draws := rfl
@[simp] theorem unmask_env_posted (L : Line) (s : State) : (unmask L s).env.posted = s.env.posted := rfl
@[simp] theorem unmask_env_loadFirst (L : Line) (s : State) : (unmask L s).env.loadFirst = s.env.loadFirst := rfl
@[simp] theorem unmask_env_agenda (L : Line) (s : State) : (unmask L s).env.agenda = s.env.agenda := rfl
@[simp] theorem unmask_env_budget (L : Line) (s : State) : (unmask L s).env.budget = s.env.budget := rfl
@[simp] theorem unmask_env_calls (L : Line) (s : State) :
    (unmask L s).env.calls = s.env.calls ++ [.hwArm (hwLineOf s L)] := rfl

/-! ### `mask` -/

@[simp] theorem mask_vic (L : Line) (s : State) :
    (mask L s).vic = { armed := s.vic.armed &&& ~~~lineBit L, pending := s.vic.pending &&& ~~~lineBit L } := rfl
@[simp] theorem mask_crit (L : Line) (s : State) : (mask L s).crit = s.crit := rfl
@[simp] theorem mask_disp (L : Line) (s : State) : (mask L s).disp = s.disp := rfl
@[simp] theorem mask_blk (L : Line) (s : State) : (mask L s).blk = s.blk := rfl
@[simp] theorem mask_io (L : Line) (s : State) : (mask L s).io = s.io := rfl
@[simp] theorem mask_fatal (L : Line) (s : State) : (mask L s).fatal = s.fatal := rfl
@[simp] theorem mask_mem (L : Line) (s : State) : (mask L s).mem = s.mem := rfl
@[simp] theorem mask_disk (L : Line) (s : State) : (mask L s).disk = s.disk := rfl
@[simp] theorem mask_env_params (L : Line) (s : State) : (mask L s).env.params = s.env.params := rfl
@[simp] theorem mask_env_capacity (L : Line) (s : State) : (mask L s).env.capacity = s.env.capacity := rfl
@[simp] theorem mask_env_statuses (L : Line) (s : State) : (mask L s).env.statuses = s.env.statuses := rfl
@[simp] theorem mask_env_draws (L : Line) (s : State) : (mask L s).env.draws = s.env.draws := rfl
@[simp] theorem mask_env_posted (L : Line) (s : State) : (mask L s).env.posted = s.env.posted := rfl
@[simp] theorem mask_env_loadFirst (L : Line) (s : State) : (mask L s).env.loadFirst = s.env.loadFirst := rfl
@[simp] theorem mask_env_agenda (L : Line) (s : State) : (mask L s).env.agenda = s.env.agenda := rfl
@[simp] theorem mask_env_budget (L : Line) (s : State) : (mask L s).env.budget = s.env.budget := rfl
@[simp] theorem mask_env_calls (L : Line) (s : State) :
    (mask L s).env.calls = s.env.calls ++ [.hwDisarm (hwLineOf s L)] := rfl

/-! ### `popCommand` -/

@[simp] theorem popCommand_vic (w : Word) (ws : List Word) (n : Nat) (s : State) :
    (popCommand w ws n s).vic = s.vic := rfl
@[simp] theorem popCommand_crit (w : Word) (ws : List Word) (n : Nat) (s : State) :
    (popCommand w ws n s).crit = s.crit := rfl
@[simp] theorem popCommand_disp (w : Word) (ws : List Word) (n : Nat) (s : State) :
    (popCommand w ws n s).disp = { s.disp with cw := w, addr := periphAddr (regField w), dstate := .exec 1 } := rfl
@[simp] theorem popCommand_blk (w : Word) (ws : List Word) (n : Nat) (s : State) :
    (popCommand w ws n s).blk = s.blk := rfl
@[simp] theorem popCommand_io (w : Word) (ws : List Word) (n : Nat) (s : State) :
    (popCommand w ws n s).io = { s.io with rxq := ws } := rfl
@[simp] theorem popCommand_fatal (w : Word) (ws : List Word) (n : Nat) (s : State) :
    (popCommand w ws n s).fatal = s.fatal := rfl
@[simp] theorem popCommand_mem (w : Word) (ws : List Word) (n : Nat) (s : State) :
    (popCommand w ws n s).mem = s.mem := rfl
@[simp] theorem popCommand_disk (w : Word) (ws : List Word) (n : Nat) (s : State) :
    (popCommand w ws n s).disk = s.disk := rfl
@[simp] theorem popCommand_env_params (w : Word) (ws : List Word) (n : Nat) (s : State) :
    (popCommand w ws n s).env.params = s.env.params := rfl
@[simp] theorem popCommand_env_capacity (w : Word) (ws : List Word) (n : Nat) (s : State) :
    (popCommand w ws n s).env.capacity = s.env.capacity := rfl
@[simp] theorem popCommand_env_statuses (w : Word) (ws : List Word) (n : Nat) (s : State) :
    (popCommand w ws n s).env.statuses = s.env.statuses := rfl
@[simp] theorem popCommand_env_draws (w : Word) (ws : List Word) (n : Nat) (s : State) :
    (popCommand w ws n s).env.draws = s.env.draws := rfl
@[simp] theorem popCommand_env_posted (w : Word) (ws : List Word) (n : Nat) (s : State) :
    (popCommand w ws n s).env.posted = s.env.posted := rfl
@[simp] theorem popCommand_env_loadFirst (w : Word) (ws : List Word) (n : Nat) (s : State) :
    (popCommand w ws n s).env.loadFirst = s.env.loadFirst := rfl
@[simp] theorem popCommand_env_agenda (w : Word) (ws : List Word) (n : Nat) (s : State) :
    (popCommand w ws n s).env.agenda = s.env.agenda := rfl
@[simp] theorem popCommand_env_budget (w : Word) (ws : List Word) (n : Nat) (s : State) :
    (popCommand w ws n s).env.budget = n := rfl
@[simp] theorem popCommand_env_calls (w : Word) (ws : List Word) (n : Nat) (s : State) :
    (popCommand w ws n s).env.calls = s.env.calls := rfl

/-! ### `enter` -/

@[simp] theorem enter_token (s : State) : (enter s).1 = s.crit.imask := rfl
@[simp] theorem enter_state (s : State) : (enter s).2 = { s with crit := { s.crit with imask := true } } := rfl

end Sys2Proof.Machine
end

