-- ==== Sys2Proof/Laws/Ops.lean ====
section
/-! SUPPORT. For each shared operation, once, everything it can do. -/

namespace Sys2Proof.Machine

/-! ## Bytes -/

@[simp] theorem toBytesLE_length (n : Nat) {w : Nat} (v : BitVec w) : (toBytesLE n v).length = n := by
  induction n generalizing v with
  | zero => rfl
  | succ n ih => simp [toBytesLE, ih]

/-- Byte `k` of a value is its bits `8k + 7` to `8k`. -/
theorem toBytesLE_getElem (n : Nat) {w : Nat} (v : BitVec w) (k : Nat) (h : k < (toBytesLE n v).length) :
    (toBytesLE n v)[k] = v.extractLsb' (8 * k) 8 := by
  induction n generalizing v k with
  | zero => simp at h
  | succ n ih =>
    cases k with
    | zero =>
      apply BitVec.eq_of_getLsbD_eq
      intro i hi
      simp [toBytesLE, hi]
    | succ k =>
      have : k < (toBytesLE n (v >>> 8)).length := by simpa using h
      simp only [toBytesLE, List.getElem_cons_succ]
      rw [ih _ _ this]
      apply BitVec.eq_of_getLsbD_eq
      intro i hi
      simp only [BitVec.getLsbD_extractLsb', BitVec.getLsbD_ushiftRight]
      rw [show 8 + (8 * k + i) = 8 * (k + 1) + i by omega]

/-- Bit `i` of a value assembled from bytes is bit `i mod 8` of byte `i / 8`. -/
theorem ofBytesLE_getLsbD (w : Nat) (bs : List Byte) (i : Nat) :
    (ofBytesLE w bs).getLsbD i = (decide (i < w) && (bs.getD (i / 8) 0#8).getLsbD (i % 8)) := by
  induction bs generalizing i with
  | nil => simp [ofBytesLE]
  | cons b bs ih =>
    simp only [ofBytesLE, BitVec.getLsbD_or, BitVec.getLsbD_setWidth, BitVec.getLsbD_shiftLeft, ih]
    by_cases hi : i < 8
    · have h0 : i / 8 = 0 := by omega
      have h1 : i % 8 = i := by omega
      simp [hi, h0, h1]
    · obtain ⟨j, rfl⟩ : ∃ j, i = j + 8 := ⟨i - 8, by omega⟩
      have h0 : (j + 8) / 8 = j / 8 + 1 := by omega
      have h1 : (j + 8) % 8 = j % 8 := by omega
      have hb : b.getLsbD (j + 8) = false := BitVec.getLsbD_of_ge _ _ (by omega)
      simp only [hb, h0, h1, hi, Nat.add_sub_cancel, List.getD_cons_succ]
      by_cases hw : j + 8 < w
      · simp [hw, show j < w by omega]
      · simp [hw]

/-! ## The priority encoder -/

theorem prioBelow_cases (p : Word) (n : Nat) (hn : n ≤ 32) :
    (prioBelow p n = 32 ∧ ∀ i < n, p.getLsbD i = false) ∨
    (prioBelow p n < n ∧ p.getLsbD (prioBelow p n) = true ∧
      ∀ i, prioBelow p n < i → i < n → p.getLsbD i = false) := by
  induction n with
  | zero => left; simp [prioBelow]
  | succ n ih =>
    unfold prioBelow
    by_cases h : p.getLsbD n = true
    · right; rw [if_pos h]; exact ⟨by omega, h, fun i h1 h2 => by omega⟩
    · rw [if_neg h]
      rcases ih (by omega) with ⟨h1, h2⟩ | ⟨h1, h2, h3⟩
      · left; refine ⟨h1, fun i hi => ?_⟩
        rcases Nat.lt_or_ge i n with h4 | h4
        · exact h2 i h4
        · have : i = n := by omega
          subst this; simpa using h
      · right; refine ⟨by omega, h2, fun i hi hi2 => ?_⟩
        rcases Nat.lt_or_ge i n with h4 | h4
        · exact h3 i hi h4
        · have : i = n := by omega
          subst this; simpa using h

/-- The encoder answers 32 for no line, or the highest line whose bit is set. -/
theorem prio_cases (p : Word) :
    (p = 0#32 ∧ prio p = 32) ∨
    (prio p < 32 ∧ p.getLsbD (prio p) = true ∧ ∀ i, prio p < i → p.getLsbD i = false) := by
  rcases prioBelow_cases p 32 (by omega) with ⟨h1, h2⟩ | ⟨h1, h2, h3⟩
  · left; refine ⟨?_, h1⟩; apply BitVec.eq_of_getLsbD_eq; intro i hi; rw [h2 i hi]; simp
  · right; refine ⟨h1, h2, fun i hi => ?_⟩
    rcases Nat.lt_or_ge i 32 with h4 | h4
    · exact h3 i hi h4
    · exact BitVec.getLsbD_of_ge _ _ h4

/-! ## The bus -/

/-- An access has a meaning exactly when the bus answers it. -/
theorem busRefusal_eq_none (addr : Word) (n : Nat) (s : State) : busRefusal addr n s = none ↔ BusAnswers addr n s := by
  unfold busRefusal BusAnswers
  by_cases h : addr.toNat % n = 0
  · simp only [h, ne_eq, not_true_eq_false, if_false, true_and]
    cases hf : s.env.params.regions.find? (touches addr n) with
    | none => simpa using hf
    | some r =>
      have hp := List.find?_some hf
      have hm := List.mem_of_find?_eq_some hf
      constructor
      · intro hk; cases hr : r.kind <;> simp [hr] at hk
      · intro hk; simp [hk r hm] at hp
  · simp [h]

/-- A refusal of a bus access is one of the three that R57, U6 and U8 name. -/
theorem busRefusal_cases {addr : Word} {n : Nat} {s : State} {r : Refusal} (h : busRefusal addr n s = some r) :
    r = .busMisaligned ∨ r = .collaboratorRegister ∨ r = .busError := by
  unfold busRefusal at h
  split at h
  · simp_all
  · split at h
    · simp at h
    · split at h <;> simp_all

theorem busRead_of_answers {addr : Word} {n : Nat} {s : State} (h : BusAnswers addr n s) :
    busRead addr n s = .ok (ofBytesLE 32 (s.mem.readMany (byteAt addr) n), s.note (.memRead addr n)) := by
  simp [busRead, (busRefusal_eq_none addr n s).2 h]

theorem busWrite_of_answers {addr : Word} {n : Nat} {s : State} (v : Word) (h : BusAnswers addr n s) :
    busWrite addr n v s = .ok ({ s with mem := s.mem.writeMany (byteAt addr) 0 (toBytesLE n v) }.note
      (.memWrite addr n ((v.setWidth (8 * n)).setWidth 32))) := by
  simp [busWrite, (busRefusal_eq_none addr n s).2 h]

/-- A bus read that answers leaves a state that differs in the record alone. -/
theorem busRead_ok {addr : Word} {n : Nat} {s s' : State} {v : Word} (h : busRead addr n s = .ok (v, s')) :
    s' = s.note (.memRead addr n) ∧ v = ofBytesLE 32 (s.mem.readMany (byteAt addr) n) := by
  unfold busRead at h
  split at h
  · cases h
  · cases h; exact ⟨rfl, rfl⟩

/-- A bus write that is answered changes the bytes written and the record alone. -/
theorem busWrite_ok {addr : Word} {n : Nat} {v : Word} {s s' : State} (h : busWrite addr n v s = .ok s') :
    s' = { s with mem := s.mem.writeMany (byteAt addr) 0 (toBytesLE n v) }.note
      (.memWrite addr n ((v.setWidth (8 * n)).setWidth 32)) := by
  unfold busWrite at h
  split at h
  · cases h
  · cases h; rfl

/-! ## The steps of a command -/

/-- A receive that completes takes the oldest word into `OP`. -/
theorem recvStep_done {s t : State} (h : recvStep s = .done t) :
    ∃ w ws, s.io.rxq = w :: ws ∧ t = { s with disp := { s.disp with op := w }, io := { s.io with rxq := ws } } := by
  unfold recvStep at h
  split at h
  · cases h
  · split at h
    · cases h
    · cases h; exact ⟨_, _, by assumption, rfl⟩

/-- A send that completes appends `VAL` to a queue that has room. -/
theorem sendStep_done {s t : State} (h : sendStep s = .done t) :
    s.io.txq.length < s.env.params.txDepth ∧ t = { s with io := { s.io with txq := s.io.txq ++ [s.disp.val] } } := by
  unfold sendStep at h
  split at h
  · cases h
  · split at h
    · cases h; exact ⟨by assumption, rfl⟩
    · cases h

/-- A load that completes writes `VAL`: the sentinel without a bus access, or the value read. -/
theorem loadStep_done {size : Size} {s t : State} (h : loadStep size s = .done t) :
    (sizeBytes size = none ∧ t = { s with disp := { s.disp with val := badSizeValue } }) ∨
    (∃ n, sizeBytes size = some n ∧
      t = { s.note (.memRead s.disp.addr n) with
            disp := { s.disp with val := ofBytesLE 32 (s.mem.readMany (byteAt s.disp.addr) n) } }) := by
  unfold loadStep regRead at h
  split at h
  · rename_i v s' he
    cases h
    split at he
    · cases he; exact .inl ⟨by assumption, rfl⟩
    · obtain ⟨rfl, rfl⟩ := busRead_ok he; exact .inr ⟨_, by assumption, rfl⟩
  · cases h

/-- A store that completes changes nothing for an out-of-range size, else the bytes written and the record. -/
theorem storeStep_done {size : Size} {value : State → Word} {s t : State} (h : storeStep size value s = .done t) :
    (sizeBytes size = none ∧ t = s) ∨
    (∃ n, sizeBytes size = some n ∧
      t = { s with mem := s.mem.writeMany (byteAt s.disp.addr) 0 (toBytesLE n (value s)) }.note
            (.memWrite s.disp.addr n (((value s).setWidth (8 * n)).setWidth 32))) := by
  unfold storeStep regWrite at h
  split at h
  · rename_i s' he
    cases h
    split at he
    · cases he; exact .inl ⟨by assumption, rfl⟩
    · exact .inr ⟨_, by assumption, busWrite_ok he⟩
  · cases h

/-- A caller that may block fails no assertion. -/
theorem needSleepFails_of_mayBlock {s : State} (h : MayBlock s) : needSleepFails s = false := by
  rcases h with h | h <;> simp [needSleepFails, h]

theorem recvStep_of_cons {s : State} {w : Word} {ws : List Word} (h : MayBlock s) (hr : s.io.rxq = w :: ws) :
    recvStep s = .done { s with disp := { s.disp with op := w }, io := { s.io with rxq := ws } } := by
  unfold recvStep
  rw [if_neg (by simp [needSleepFails_of_mayBlock h])]
  simp [hr]

theorem recvStep_of_nil {s : State} (h : MayBlock s) (hr : s.io.rxq = []) : recvStep s = .hold := by
  unfold recvStep
  rw [if_neg (by simp [needSleepFails_of_mayBlock h])]
  simp [hr]

theorem sendStep_of_room {s : State} (h : MayBlock s) (hr : s.io.txq.length < s.env.params.txDepth) :
    sendStep s = .done { s with io := { s.io with txq := s.io.txq ++ [s.disp.val] } } := by
  unfold sendStep
  rw [if_neg (by simp [needSleepFails_of_mayBlock h]), if_pos hr]

theorem sendStep_of_full {s : State} (h : MayBlock s) (hr : ¬ s.io.txq.length < s.env.params.txDepth) :
    sendStep s = .hold := by
  unfold sendStep
  rw [if_neg (by simp [needSleepFails_of_mayBlock h]), if_neg hr]

theorem loadStep_of_answers {size : Size} {n : Nat} {s : State} (hn : sizeBytes size = some n)
    (h : BusAnswers s.disp.addr n s) :
    loadStep size s = .done
      { s.note (.memRead s.disp.addr n) with
        disp := { s.disp with val := ofBytesLE 32 (s.mem.readMany (byteAt s.disp.addr) n) } } := by
  unfold loadStep regRead
  simp only [hn]
  rw [busRead_of_answers h]; rfl

theorem storeStep_of_answers {size : Size} {n : Nat} {s : State} (value : State → Word) (hn : sizeBytes size = some n)
    (h : BusAnswers s.disp.addr n s) :
    storeStep size value s = .done
      ({ s with mem := s.mem.writeMany (byteAt s.disp.addr) 0 (toBytesLE n (value s)) }.note
        (.memWrite s.disp.addr n (((value s).setWidth (8 * n)).setWidth 32))) := by
  unfold storeStep regWrite
  simp only [hn]
  rw [busWrite_of_answers _ h]

theorem ioFirstStep_done {size : Size} {s t : State} (h : ioFirstStep size s = .done t) :
    loadStep size s = .done t ∨ recvStep s = .done t := by
  unfold ioFirstStep at h; split at h
  · exact .inl h
  · exact .inr h

theorem ioSecondStep_done {size : Size} {s t : State} (h : ioSecondStep size s = .done t) :
    loadStep size s = .done t ∨ recvStep s = .done t := by
  unfold ioSecondStep at h; split at h
  · exact .inr h
  · exact .inl h

/-! ## The runner -/

@[simp] theorem runSteps_nil (k n : Nat) (s : State) :
    runSteps [] k n s = .next { s with disp := { s.disp with dstate := .poll } } := rfl

@[simp] theorem runSteps_zero (op : State → Micro) (ops : List (State → Micro)) (k : Nat) (s : State) :
    runSteps (op :: ops) k 0 s = .next { s with disp := { s.disp with dstate := .exec k } } := rfl

theorem runSteps_done {op : State → Micro} {s s' : State} (h : op s = .done s') (ops : List (State → Micro)) (k n : Nat) :
    runSteps (op :: ops) k (n + 1) s = runSteps ops (k + 1) n s' := by simp [runSteps, h]

theorem runSteps_hold {op : State → Micro} {s : State} (h : op s = .hold) (ops : List (State → Micro)) (k n : Nat) :
    runSteps (op :: ops) k (n + 1) s = .next { s with disp := { s.disp with dstate := .exec k } } := by
  simp [runSteps, h]

theorem runSteps_stop {op : State → Micro} {s : State} {r : Refusal} (h : op s = .stop r)
    (ops : List (State → Micro)) (k n : Nat) : runSteps (op :: ops) k (n + 1) s = .refused r := by simp [runSteps, h]

/-- What every step of a command keeps, and what moving the sequencing state keeps, a command that answers keeps. -/
theorem runSteps_keeps {P : State → Prop} {ops : List (State → Micro)}
    (hd : ∀ s d, P s → P { s with disp := { s.disp with dstate := d } })
    (hs : ∀ op ∈ ops, ∀ s t, P s → op s = .done t → P t)
    {k n : Nat} {s t : State} (h : runSteps ops k n s = .next t) (hp : P s) : P t := by
  induction ops generalizing k n s with
  | nil => cases h; exact hd _ _ hp
  | cons op ops ih =>
    cases n with
    | zero => cases h; exact hd _ _ hp
    | succ n =>
      simp only [runSteps] at h
      split at h
      · exact ih (fun o ho => hs o (List.mem_cons_of_mem _ ho)) h (hs op (by simp) _ _ hp (by assumption))
      · cases h; exact hd _ _ hp
      · cases h

theorem runSteps_ne_fault (ops : List (State → Micro)) (k n : Nat) (s : State) (f : Fault) :
    runSteps ops k n s ≠ .fault f := by
  induction ops generalizing k n s with
  | nil => simp
  | cons op ops ih =>
    cases n with
    | zero => simp
    | succ n =>
      simp only [runSteps]
      split
      · exact ih _ _ _
      · simp
      · simp

@[simp] theorem runCommand_nil (s : State) :
    runCommand [] s = .next { s with disp := { s.disp with dstate := .poll } } := by simp [runCommand]

/-- A command at its first step takes all its steps. -/
theorem runCommand_first {s : State} (h : s.disp.dstate = .exec 1) (ops : List (State → Micro)) :
    runCommand ops s = runSteps ops 1 s.env.budget s := by simp [runCommand, stepNumber, h]

theorem runCommand_ne_fault (ops : List (State → Micro)) (s : State) (f : Fault) : runCommand ops s ≠ .fault f :=
  runSteps_ne_fault _ _ _ _ _

theorem runCommand_keeps {P : State → Prop} {ops : List (State → Micro)}
    (hd : ∀ s d, P s → P { s with disp := { s.disp with dstate := d } })
    (hs : ∀ op ∈ ops, ∀ s t, P s → op s = .done t → P t)
    {s t : State} (h : runCommand ops s = .next t) (hp : P s) : P t :=
  runSteps_keeps hd (fun op ho => hs op (List.mem_of_mem_drop ho)) h hp

/-! ## Storage -/

/-- What taking a status leaves alone. -/
theorem statusTaken_frame (s : State) :
    (statusTaken s).vic = s.vic ∧ (statusTaken s).crit = s.crit ∧ (statusTaken s).disp = s.disp ∧
    (statusTaken s).blk = s.blk ∧ (statusTaken s).io = s.io ∧ (statusTaken s).fatal = s.fatal ∧
    (statusTaken s).mem = s.mem ∧ (statusTaken s).disk = s.disk ∧ (statusTaken s).env.params = s.env.params ∧
    (statusTaken s).env.calls = s.env.calls := by
  unfold statusTaken
  split <;> simp

/-- A read of the medium changes guest memory, the statuses, the draws and the record. -/
theorem readSectors_frame (off : BitVec 64) (cnt : Nat) (ptr : Word) (s : State) :
    ∃ bs env, (readSectors off cnt ptr s).2 = { s with mem := s.mem.writeMany (byteAt ptr) 0 bs, env := env } ∧
      bs.length = cnt * 512 ∧ (nextStatus s = 0 → bs = s.disk.readMany (diskAt off) (cnt * 512)) ∧
      env.params = s.env.params ∧ env.calls = s.env.calls ++ [.readSectors off cnt ptr (nextStatus s)] := by
  obtain ⟨h1, h2, h3, h4, h5, h6, h7, h8, h9, h10⟩ := statusTaken_frame s
  unfold readSectors
  by_cases hst : nextStatus s = 0
  · refine ⟨s.disk.readMany (diskAt off) (cnt * 512), ((statusTaken s).note (.readSectors off cnt ptr 0)).env, ?_, by simp,
      fun _ => rfl, h9, ?_⟩
    · simp only [hst, if_true, State.note_mem, State.note_disk, h7, h8]
      simp [State.note, h1, h2, h3, h4, h5, h6, h8]
    · simp [State.note, h10, hst]
  · refine ⟨failedBytes ((statusTaken s).note (.readSectors off cnt ptr (nextStatus s))) (cnt * 512),
      (((statusTaken s).note (.readSectors off cnt ptr (nextStatus s))).drawn (cnt * 512)).env, ?_, by simp [failedBytes],
      fun h => absurd h hst, h9, ?_⟩
    · simp only [hst, if_false, State.note_mem, h7]
      simp [State.note, State.drawn, h1, h2, h3, h4, h5, h6, h8]
    · simp [State.note, State.drawn, h10]

/-- A write of the medium changes the medium, the statuses, the draws and the record. -/
theorem writeSectors_frame (off : BitVec 64) (cnt : Nat) (ptr : Word) (s : State) :
    ∃ bs env, (writeSectors off cnt ptr s).2 = { s with disk := s.disk.writeMany (diskAt off) 0 bs, env := env } ∧
      bs.length = cnt * 512 ∧ (nextStatus s = 0 → bs = s.mem.readMany (byteAt ptr) (cnt * 512)) ∧
      env.params = s.env.params ∧ env.calls = s.env.calls ++ [.writeSectors off cnt ptr (nextStatus s)] := by
  obtain ⟨h1, h2, h3, h4, h5, h6, h7, h8, h9, h10⟩ := statusTaken_frame s
  unfold writeSectors
  by_cases hst : nextStatus s = 0
  · refine ⟨s.mem.readMany (byteAt ptr) (cnt * 512), ((statusTaken s).note (.writeSectors off cnt ptr 0)).env, ?_, by simp,
      fun _ => rfl, h9, ?_⟩
    · simp only [hst, if_true, State.note_mem, State.note_disk, h7, h8]
      simp [State.note, h1, h2, h3, h4, h5, h6, h7]
    · simp [State.note, h10, hst]
  · refine ⟨failedBytes ((statusTaken s).note (.writeSectors off cnt ptr (nextStatus s))) (cnt * 512),
      (((statusTaken s).note (.writeSectors off cnt ptr (nextStatus s))).drawn (cnt * 512)).env, ?_, by simp [failedBytes],
      fun h => absurd h hst, h9, ?_⟩
    · simp only [hst, if_false, State.note_disk, h8]
      simp [State.note, State.drawn, h1, h2, h3, h4, h5, h6, h7]
    · simp [State.note, State.drawn, h10]

@[simp] theorem readSectors_status (off : BitVec 64) (cnt : Nat) (ptr : Word) (s : State) :
    (readSectors off cnt ptr s).1 = nextStatus s := rfl

@[simp] theorem writeSectors_status (off : BitVec 64) (cnt : Nat) (ptr : Word) (s : State) :
    (writeSectors off cnt ptr s).1 = nextStatus s := rfl

/-! ## The request -/

/-- A drawn error value is never zero. -/
theorem errValue_ne_zero (n : Nat) : errValue n ≠ 0#8 := by
  intro h
  have h1 : (errValue n).toNat = 0 := by rw [h]; rfl
  have h2 := (Config.errDraw n).isLt
  simp only [errValue, BitVec.toNat_ofNat] at h1
  omega

/-- Accumulating a status changes `ERR` and the draws alone. -/
theorem accumulate_frame (st : Nat) (s : State) :
    ∃ e n, accumulate st s = { s with blk := { s.blk with err := e }, env := { s.env with draws := n } } ∧
      (st = 0 → e = s.blk.err ∧ n = s.env.draws) ∧ (st ≠ 0 → e = s.blk.err ||| errValue s.env.draws) := by
  unfold accumulate
  by_cases h : st = 0
  · exact ⟨s.blk.err, s.env.draws, by simp [h], fun _ => ⟨rfl, rfl⟩, fun h' => absurd h h'⟩
  · exact ⟨_, s.env.draws + 1, by rw [if_neg h]; rfl, fun h' => absurd h' h, fun _ => rfl⟩

/-- One step of a request in progress, by the step the backend is at. -/
theorem jobStep_cases (s : State) :
    (s.fatal = true ∧ jobStep s = s) ∨
    (s.fatal = false ∧ s.blk.bstate = .job .next ∧ jobStep s = nextStep s) ∨
    (s.fatal = false ∧ s.blk.bstate = .job .desc ∧ jobStep s = getDesc .act s) ∨
    (s.fatal = false ∧ s.blk.bstate = .job .act ∧ jobStep s = actStep s) ∨
    (s.fatal = false ∧ s.blk.bstate = .job .account ∧ jobStep s = accountStep s) ∨
    (s.fatal = false ∧ s.blk.bstate = .job .push ∧ jobStep s = pushStep s) ∨
    (s.fatal = false ∧ s.blk.bstate = .job .notify ∧ jobStep s = notifyStep s) ∨
    (s.blk.bstate ∈ [.idle, .job .fetch, .job .header, .job .read] ∧ jobStep s = s) ∨
    ((∃ k, s.blk.bstate = .hardReset k) ∧ jobStep s = s) := by
  unfold jobStep
  cases hf : s.fatal
  · cases hb : s.blk.bstate with
    | idle => simp
    | hardReset k => simp
    | job k => cases k <;> simp
  · simp

/-- What the storage call of a data descriptor can be: a read, a write, or none. -/
theorem transfer_cases (d : Desc) (s : State) :
    (s.blk.rtype = 0#32 ∧ transfer d s = readSectors s.blk.soff (sectorCount d.len) d.ptr s) ∨
    (s.blk.rtype = 1#32 ∧ transfer d s = writeSectors s.blk.soff (sectorCount d.len) d.ptr s) ∨
    (s.blk.rtype ≠ 0#32 ∧ s.blk.rtype ≠ 1#32 ∧ transfer d s = (0, s)) := by
  unfold transfer
  by_cases h0 : s.blk.rtype = 0#32
  · simp [h0]
  · by_cases h1 : s.blk.rtype = 1#32 <;> simp [h0, h1]

/-- What acting on a descriptor can be: a transfer, a status byte, or the stop. -/
theorem actStep_cases (s : State) :
    (classify s.env.params.statusLen s.blk.desc.len = .data ∧ actStep s = dataStep s.blk.desc s) ∨
    (classify s.env.params.statusLen s.blk.desc.len = .status ∧ actStep s = statusStep s.blk.desc s) ∨
    (classify s.env.params.statusLen s.blk.desc.len = .violation ∧ actStep s = raiseFatal s) := by
  unfold actStep
  cases classify s.env.params.statusLen s.blk.desc.len <;> simp

/-- The accounting after a transfer changes the offset, `ERR`, what is recorded as written back, the draws and the
record of calls. -/
theorem accountStep_frame (s : State) :
    ∃ e w env, accountStep s = { s with
        blk := { s.blk with
          bstate := .job .next, err := e, soff := s.blk.soff + BitVec.ofNat 64 (sectorCount s.blk.desc.len)
          job := { s.blk.job with written := w } }
        env := env } ∧
      env.params = s.env.params ∧ (s.blk.st = 0 → e = s.blk.err) ∧ (s.blk.rtype ≠ 0#32 → w = s.blk.job.written) ∧
      (s.blk.rtype = 0#32 → w = s.blk.job.written + s.blk.desc.len.toNat) := by
  unfold accountStep account
  by_cases h : s.blk.rtype = 0#32
  · obtain ⟨e, n, he, h1, -⟩ := accumulate_frame s.blk.st (advance s.blk.desc (recordWritten s.blk.desc.len.toNat s))
    rw [if_pos h, he]
    exact ⟨e, s.blk.job.written + s.blk.desc.len.toNat,
      { s.env with draws := n, calls := s.env.calls ++ [.recordWritten s.blk.job.id s.blk.desc.len.toNat] },
      rfl, rfl, fun h0 => (h1 h0).1, fun h' => absurd h h', fun _ => rfl⟩
  · obtain ⟨e, n, he, h1, -⟩ := accumulate_frame s.blk.st (advance s.blk.desc s)
    rw [if_neg h, he]
    exact ⟨e, s.blk.job.written, { s.env with draws := n }, rfl, rfl, fun h0 => (h1 h0).1, fun _ => rfl, fun h' => absurd h' h⟩

/-- A pointer is among the status pointers of a chain exactly when a status descriptor of the chain has it. -/
theorem mem_statusPointers {rule : Config.StatusLenRule} {ds : List Desc} {p : Word} :
    p ∈ statusPointers rule ds ↔ ∃ d ∈ ds, classify rule d.len = .status ∧ d.ptr = p := by
  induction ds with
  | nil => simp [statusPointers]
  | cons d ds ih =>
    unfold statusPointers
    split <;> rename_i h
    · simp [ih, h, eq_comm]
    · simp [ih, h]

/-- What `config_read` can do: answer, or draw a free byte before the first `hard_reset`. -/
theorem configByte_cases (off : Nat) (s : State) :
    (configByte off s).2 = s ∨ (off < cfgSize ∧ s.blk.cfgBuilt = false ∧ (configByte off s).2 = s.drawn 1) := by
  unfold configByte
  by_cases h : cfgSize ≤ off
  · simp [h]
  · cases s.blk.cfgBuilt
    · simp [h]; omega
    · simp [h]

/-- What every step of a request keeps, any number of them keeps. -/
theorem runJob_keeps {P : State → Prop} (h : ∀ s, P s → P (jobStep s)) (n : Nat) {s : State} (hp : P s) : P (runJob n s) := by
  induction n generalizing s with
  | zero => exact hp
  | succ n ih => exact ih (h s hp)

theorem runHardReset_keeps {P : State → Prop} (h : ∀ s, P s → P (hardResetStep s)) (n : Nat) {s : State} (hp : P s) :
    P (runHardReset n s) := by
  induction n generalizing s with
  | zero => exact hp
  | succ n ih => exact ih (h s hp)

/-- A job that is fetched was posted on the queue; the others stay. -/
theorem takeJob_some {q : Nat} {js ks : List Job} {j : Job} (h : takeJob q js = some (j, ks)) :
    j.queue = q ∧ ∃ as bs, js = as ++ j :: bs ∧ ks = as ++ bs ∧ ∀ a ∈ as, a.queue ≠ q := by
  induction js generalizing ks with
  | nil => simp [takeJob] at h
  | cons a js ih =>
    unfold takeJob at h
    split at h
    · cases h; exact ⟨by assumption, [], _, rfl, rfl, by simp⟩
    · rename_i ha
      split at h
      · cases h
      · rename_i k ks' he
        cases h
        obtain ⟨hq, as, bs, rfl, rfl, has⟩ := ih he
        exact ⟨hq, a :: as, bs, rfl, rfl, fun x hx => by
          rcases List.mem_cons.1 hx with rfl | hx
          · exact ha
          · exact has x hx⟩

end Sys2Proof.Machine
end

