-- ==== Sys2Proof/Certificates/Slice0/Obligations.lean ====
section
/-! DEFINITION. The statements for the provers. A frame is written as one equation between records: the next state,
with the parts the statement has described put back, is the first state with exactly the fields named changed. -/

open Sys2Proof Sys2Proof.Machine

/-! ## Encoding -/

/-- The three fields tile the command word; encoding and decoding are inverse to each other.
The word's own round trip is the spec's inference (R91). -/
def Obligations.FieldsTileTheWord : Prop :=
  (∀ (mode size : BitVec 4) (reg : BitVec 24),
    modeField (encodeFields mode size reg) = mode ∧ sizeField (encodeFields mode size reg) = size ∧
    regField (encodeFields mode size reg) = reg ∧
    encodeFields mode size reg = (mode.setWidth 32 <<< 28) ||| (size.setWidth 32 <<< 24) ||| reg.setWidth 32) ∧
  ∀ w : Word, encodeFields (modeField w) (sizeField w) (regField w) = w

/-- Decoding the words of any well-formed instruction, with any words after them, gives it back with those words.
The default mode codes and the header's layout are the spec's decisions D1 and D18 (log entries 1, 15). -/
def Obligations.DecodeInvertsEncode : Prop :=
  ∀ (i : Instr) (ws : List Word), i.wellFormed = true → decodeWords i.format (encode i ++ ws) = .ok (i, ws)

/-- Every one of the 2^32 words is the encoding of the one well-formed command it decodes to, whose mode is the
word's mode field. -/
def Obligations.EveryWordIsOneCommand : Prop :=
  ∀ w : Word, (decodeCommand w).wellFormed = true ∧ (decodeCommand w).format = .cmd ∧
    modeCode (decodeCommand w) = modeField w ∧ encode (decodeCommand w) = [w]

/-- A few words written out from the encodings of R80, R81, R92 decode to the instructions they stand for (vectors
V-E1, V-E2, V-E5, V-E6, V-E11, V-E9, V-E13, V-E18, V-E19).
The mode codes and the header's layout are the spec's decisions D1 and D18 (log entries 1, 15). -/
def Obligations.SampleWordsDecode : Prop :=
  decodeCommand 0x02001000#32 = .write .word 0x001000#24 ∧
  decodeCommand 0x10001000#32 = .read .byte 0x001000#24 ∧
  decodeCommand 0x21000100#32 = .ioset .half 0x000100#24 ∧
  decodeCommand 0x30000003#32 = .ioclr .byte 0x000003#24 ∧
  decodeCommand 0x40000000#32 = .irqget .byte 0#24 ∧
  decodeCommand 0x5AFFFFFF#32 = .irqmask (.other 10#4) 0xFFFFFF#24 ∧
  decodeCommand 0x6000001F#32 = .irqunmask .byte 31#24 ∧
  decodeCommand 0xFFFFFFFF#32 = .unknownMode15 (.other 15#4) 0xFFFFFF#24 ∧
  decodeWords .blkhdr (wordsOfBytes [0, 0, 0, 0, 0, 0, 0, 0, 0x10, 0, 0, 0, 0, 0, 0, 0]) = .ok (.blkIn 0#32 0x10#64, []) ∧
  decodeWords .blkhdr (wordsOfBytes [1, 0, 0, 0, 0, 0, 0, 0, 0x34, 0x12, 0, 0, 0, 0, 0, 0])
    = .ok (.blkOut 0#32 0x1234#64, [])

/-- Under any injective assignment of mode codes each mode's code selects its command, and a value that is no mode's
code selects an unknown mode. -/
def Obligations.AnyModeCodesSelectTheirCommand : Prop :=
  ∀ (c : Config.ModeCodes) (size : BitVec 4) (reg : BitVec 24), (codeList c).Nodup →
    decodeCommandUnder c (encodeFields c.write size reg) = .write (sizeOfCode size) reg ∧
    decodeCommandUnder c (encodeFields c.read size reg) = .read (sizeOfCode size) reg ∧
    decodeCommandUnder c (encodeFields c.ioset size reg) = .ioset (sizeOfCode size) reg ∧
    decodeCommandUnder c (encodeFields c.ioclr size reg) = .ioclr (sizeOfCode size) reg ∧
    decodeCommandUnder c (encodeFields c.irqget size reg) = .irqget (sizeOfCode size) reg ∧
    decodeCommandUnder c (encodeFields c.irqmask size reg) = .irqmask (sizeOfCode size) reg ∧
    decodeCommandUnder c (encodeFields c.irqunmask size reg) = .irqunmask (sizeOfCode size) reg ∧
    ∀ m : BitVec 4, m ∉ codeList c → 7 ≤ (modeCode (decodeCommandUnder c (encodeFields m size reg))).toNat

/-- R83: the address is the window's base plus the field, which is the concatenation, with no carry. -/
def Obligations.AddressAssembly : Prop :=
  (∀ reg : BitVec 24, periphAddr reg = 0x10000000#32 + reg.setWidth 32 ∧ periphAddr reg = 0x10#8 ++ reg ∧
    (periphAddr reg).toNat = 0x10000000 + reg.toNat) ∧
  periphAddr 0x141200#24 = 0x10141200#32

/-- The line number is the field's low five bits, always in range. -/
def Obligations.LineNumberAssembly : Prop :=
  (∀ reg : BitVec 24, (lineOf reg).toNat = (reg &&& 0x1F#24).toNat ∧ (lineOf reg).toNat < 32) ∧ lineOf 0x000029#24 = 9#5

/-! ## The step -/

/-- A step whose turn is the dispatcher's, about to test a nonempty queue with two steps left or more, or about to pop,
pops the oldest word and is `exec` of the command it decodes to, on the state with the latches written; a command in
flight goes on as `exec` of the command in `CW`. With the default mode codes that command is the opcode table's.
The number of steps in a turn is the model's choice (log entry 7). -/
def Obligations.StepRunsThePoppedCommand : Prop :=
  ∀ (s : State) (n : Nat), s.fatal = false →
    (∀ w ws, (nextTurn s = .dispatcher (n + 2) ∧ s.disp.dstate = .poll) ∨
        (nextTurn s = .dispatcher (n + 1) ∧ s.disp.dstate = .pop) → s.io.rxq = w :: ws →
      step s = exec (decodeCommandUnder s.env.params.modeCodes w)
        { s with
            io.rxq := ws
            disp.cw := w
            disp.addr := 0x10000000#32 + (regField w).setWidth 32
            disp.dstate := .exec 1
            env.agenda := s.env.agenda.tail
            env.budget := n }) ∧
    (∀ k, nextTurn s = .dispatcher (n + 1) → s.disp.dstate = .exec k →
      step s = exec (decodeCommandUnder s.env.params.modeCodes s.disp.cw)
        { s with env.agenda := s.env.agenda.tail, env.budget := n + 1 }) ∧
    (s.env.params.modeCodes = Config.defaultModeCodes →
      ∀ w, decodeCommandUnder s.env.params.modeCodes w = decodeCommand w)

/-- A step whose turn is the backend's, at a job just fetched, gets its first descriptor; with that descriptor got, it
is `exec` of the request the 16 bytes at its pointer spell, on the state with the access recorded.
The header's layout is the spec's decision D18 (log entry 15). -/
def Obligations.StepRunsTheRequestOfTheHeader : Prop :=
  ∀ (s : State) (n : Nat), s.fatal = false → nextTurn s = .backend (n + 1) →
    (s.blk.bstate = .job .header →
      step s = .next
        { s with blk := { s.blk with desc := s.blk.job.cur, bstate := .job .read }, env.agenda := s.env.agenda.tail }) ∧
    ∀ (h : List Byte) (i : Instr), s.blk.bstate = .job .read → h = s.mem.readMany (byteAt s.blk.desc.ptr) 16 →
      decodeRequest (ofBytesLE 32 (h.take 4)) (ofBytesLE 32 ((h.drop 4).take 4)) (ofBytesLE 64 (h.drop 8)) = .ok i →
      step s = exec i
        { s with
            env.agenda := s.env.agenda.tail
            env.budget := n + 1
            env.calls := s.env.calls ++ [.guestRead s.blk.desc.ptr 16] }

/-- A step at a header whose type is neither 0 nor 1 latches type and sector, clears `ERR` and goes on with the
descriptors under `literal`, with the read recorded, as `runOtherRequest` does; under `refuse` the model refuses it.
The switch is the spec's decision D19 (log entry 14), the header's layout its decision D18 (log entry 15). -/
def Obligations.StepRunsARequestOfAnotherType : Prop :=
  ∀ (s : State) (n : Nat) (h : List Byte) (type : Word), s.fatal = false → nextTurn s = .backend (n + 1) →
    s.blk.bstate = .job .read → h = s.mem.readMany (byteAt s.blk.desc.ptr) 16 → type = ofBytesLE 32 (h.take 4) →
    type ≠ 0#32 → type ≠ 1#32 →
    step s = runOtherRequest type (ofBytesLE 64 (h.drop 8))
      { s with
          env.agenda := s.env.agenda.tail
          env.budget := n + 1
          env.calls := s.env.calls ++ [.guestRead s.blk.desc.ptr 16] } ∧
    (s.env.params.unknownType = .literal →
      step s = .next (runJob n
        { s with
            blk := { s.blk with rtype := type, soff := ofBytesLE 64 (h.drop 8), err := 0#8, bstate := .job .next }
            env.agenda := s.env.agenda.tail
            env.budget := n + 1
            env.calls := s.env.calls ++ [.guestRead s.blk.desc.ptr 16] })) ∧
    (s.env.params.unknownType = .refuse → step s = .refused .unknownRequestType)

/-- The dispatcher's loop outside a command: signalled it polls, not signalled it waits, finding the queue empty it goes
idle, and finding a word it is about to pop it, a step of its own; nothing else changes.
The signal as one bit is the model's choice (log entry 8). -/
def Obligations.DispatcherLoopOutsideACommand : Prop :=
  ∀ (s : State) (n : Nat), s.fatal = false → nextTurn s = .dispatcher (n + 1) →
    (s.disp.dstate = .idle → s.io.signal = true →
      step s = .next { s with io.signal := false, disp.dstate := .poll, env.agenda := s.env.agenda.tail }) ∧
    (s.disp.dstate = .idle → s.io.signal = false → step s = .next { s with env.agenda := s.env.agenda.tail }) ∧
    (s.disp.dstate = .poll → s.io.rxq = [] →
      step s = .next { s with disp.dstate := .idle, env.agenda := s.env.agenda.tail }) ∧
    (s.disp.dstate = .poll → s.io.rxq ≠ [] → n = 0 →
      step s = .next { s with disp.dstate := .pop, env.agenda := s.env.agenda.tail })

/-- The transport-availability callback: with interrupts enabled and a word waiting it signals the dispatch loop and
does nothing else; masked, or with no word waiting, it does not run.
The signal as one bit is the model's choice (log entry 8). -/
def Obligations.RxAvailOnlySignals : Prop :=
  ∀ s : State, s.fatal = false → nextTurn s = .rxAvail →
    step s = .next { s with
      io.signal := if s.io.rxq ≠ [] ∧ s.crit.imask = false then true else s.io.signal
      env.agenda := s.env.agenda.tail }

/-! ## Register commands -/

/-- WRITE at a width of the spec: the operand word is received, its low bytes are stored at `ADDR` lowest first, and
one access is made. No other byte of memory and no other part of the state changes.
Byte order and truncation are the spec's decisions D8 and D6 (log entries 16, 17). -/
def Obligations.WriteStoresTheOperand : Prop :=
  ∀ (size : Size) (reg : BitVec 24) (n : Nat) (s : State) (w : Word) (ws : List Word),
    sizeBytes size = some n → s.disp.dstate = .exec 1 → s.io.rxq = w :: ws → 2 ≤ s.env.budget → MayBlock s →
    BusAnswers (periphAddr reg) n s → s.mem.wf →
    ∃ t, exec (.write size reg) s = .next t ∧
      (∀ k < n, t.mem.read (byteAt (periphAddr reg) k) = w.extractLsb' (8 * k) 8) ∧
      (∀ a, (∀ k < n, a ≠ byteAt (periphAddr reg) k) → t.mem.read a = s.mem.read a) ∧
      { t with mem := s.mem } =
        { s with
            disp := { s.disp with dstate := .poll, addr := periphAddr reg, op := w }
            io.rxq := ws
            env.calls := s.env.calls ++ [.memWrite (periphAddr reg) n ((w.setWidth (8 * n)).setWidth 32)] }

/-- READ at a width of the spec: one access is made, the bytes at `ADDR` are the low bytes of the reply, its other
bytes are zero, and the reply is sent. Nothing else changes, no byte of memory does.
Byte order and zero extension are the spec's decisions D8 and D5 (log entries 16, 17). -/
def Obligations.ReadSendsTheValue : Prop :=
  ∀ (size : Size) (reg : BitVec 24) (n : Nat) (s : State),
    sizeBytes size = some n → s.disp.dstate = .exec 1 → s.io.txq.length < s.env.params.txDepth → 2 ≤ s.env.budget →
    MayBlock s → BusAnswers (periphAddr reg) n s →
    ∃ v : Word,
      (∀ k < 4, v.extractLsb' (8 * k) 8 = if k < n then s.mem.read (byteAt (periphAddr reg) k) else 0#8) ∧
      exec (.read size reg) s = .next
        { s with
            disp := { s.disp with dstate := .poll, addr := periphAddr reg, val := v }
            io.txq := s.io.txq ++ [v]
            env.calls := s.env.calls ++ [.memRead (periphAddr reg) n] }

/-- IOSET at a width of the spec: with the operand there and in either order of load and receive, each byte at `ADDR`
becomes its OR with the operand's byte, by one load and one store of that width. Nothing else changes.
Byte order, zero extension and truncation are the spec's decisions D8, D5 and D6 (log entries 16, 17), both orders its
decision D10 (log entry 36). -/
def Obligations.IosetSetsTheOperandsBits : Prop :=
  ∀ (size : Size) (reg : BitVec 24) (n : Nat) (s : State) (w : Word) (ws : List Word),
    sizeBytes size = some n → s.disp.dstate = .exec 1 → s.io.rxq = w :: ws → 3 ≤ s.env.budget → MayBlock s →
    BusAnswers (periphAddr reg) n s → s.mem.wf →
    ∃ (t : State) (v : Word), exec (.ioset size reg) s = .next t ∧
      (∀ k < 4, v.extractLsb' (8 * k) 8 = if k < n then s.mem.read (byteAt (periphAddr reg) k) else 0#8) ∧
      (∀ k < n, t.mem.read (byteAt (periphAddr reg) k) =
        s.mem.read (byteAt (periphAddr reg) k) ||| w.extractLsb' (8 * k) 8) ∧
      (∀ a, (∀ k < n, a ≠ byteAt (periphAddr reg) k) → t.mem.read a = s.mem.read a) ∧
      { t with mem := s.mem } =
        { s with
            disp := { s.disp with dstate := .poll, addr := periphAddr reg, op := w, val := v }
            io.rxq := ws
            env.calls := s.env.calls ++ [.memRead (periphAddr reg) n,
              .memWrite (periphAddr reg) n (((v ||| w).setWidth (8 * n)).setWidth 32)] }

/-- IOCLR at a width of the spec: as IOSET, each byte becoming its AND with the complement of the operand's byte.
Byte order, zero extension and truncation are the spec's decisions D8, D5 and D6 (log entries 16, 17), both orders its
decision D10 (log entry 36). -/
def Obligations.IoclrClearsTheOperandsBits : Prop :=
  ∀ (size : Size) (reg : BitVec 24) (n : Nat) (s : State) (w : Word) (ws : List Word),
    sizeBytes size = some n → s.disp.dstate = .exec 1 → s.io.rxq = w :: ws → 3 ≤ s.env.budget → MayBlock s →
    BusAnswers (periphAddr reg) n s → s.mem.wf →
    ∃ (t : State) (v : Word), exec (.ioclr size reg) s = .next t ∧
      (∀ k < 4, v.extractLsb' (8 * k) 8 = if k < n then s.mem.read (byteAt (periphAddr reg) k) else 0#8) ∧
      (∀ k < n, t.mem.read (byteAt (periphAddr reg) k) =
        s.mem.read (byteAt (periphAddr reg) k) &&& ~~~(w.extractLsb' (8 * k) 8)) ∧
      (∀ a, (∀ k < n, a ≠ byteAt (periphAddr reg) k) → t.mem.read a = s.mem.read a) ∧
      { t with mem := s.mem } =
        { s with
            disp := { s.disp with dstate := .poll, addr := periphAddr reg, op := w, val := v }
            io.rxq := ws
            env.calls := s.env.calls ++ [.memRead (periphAddr reg) n,
              .memWrite (periphAddr reg) n (((v &&& ~~~w).setWidth (8 * n)).setWidth 32)] }

/-- The four register commands with an out-of-range size: no access is made and memory does not change; the operand
word is consumed where there is one, and a READ replies the sentinel.
That the operand is consumed is the spec's decision D9 (log entry 18). -/
def Obligations.OutOfRangeSizeMakesNoAccess : Prop :=
  ∀ (code : BitVec 4) (reg : BitVec 24) (s : State) (w : Word) (ws : List Word),
    s.disp.dstate = .exec 1 → 3 ≤ s.env.budget → MayBlock s →
    (s.io.rxq = w :: ws →
      exec (.write (.other code) reg) s = .next
        { s with disp := { s.disp with dstate := .poll, addr := periphAddr reg, op := w }, io.rxq := ws } ∧
      exec (.ioset (.other code) reg) s = .next
        { s with
            disp := { s.disp with dstate := .poll, addr := periphAddr reg, op := w, val := 0xDEADBEEF#32 }
            io.rxq := ws } ∧
      exec (.ioclr (.other code) reg) s = .next
        { s with
            disp := { s.disp with dstate := .poll, addr := periphAddr reg, op := w, val := 0xDEADBEEF#32 }
            io.rxq := ws }) ∧
    (s.io.txq.length < s.env.params.txDepth →
      exec (.read (.other code) reg) s = .next
        { s with
            disp := { s.disp with dstate := .poll, addr := periphAddr reg, val := 0xDEADBEEF#32 }
            io.txq := s.io.txq ++ [0xDEADBEEF#32] })

/-- The width helpers. A read returns the value of one access of the width, zero above it, and the sentinel for sizes
3..15; a write hands the low bits to one access of the width, and does nothing for sizes 3..15.
Zero extension and truncation are the spec's decisions D5 and D6 (log entry 17). -/
def Obligations.WidthHelpers : Prop :=
  ∀ (addr v : Word) (s : State),
    (∀ n ∈ [1, 2, 4], ∀ x s', busRead addr n s = .ok (x, s') → x.toNat < 2 ^ (8 * n)) ∧
    regRead addr .byte s = busRead addr 1 s ∧ regRead addr .half s = busRead addr 2 s ∧
    regRead addr .word s = busRead addr 4 s ∧
    (∀ code, regRead addr (.other code) s = .ok (0xDEADBEEF#32, s)) ∧
    regWrite addr .byte v s = busWrite addr 1 ((v.extractLsb' 0 8).setWidth 32) s ∧
    regWrite addr .half v s = busWrite addr 2 ((v.extractLsb' 0 16).setWidth 32) s ∧
    regWrite addr .word v s = busWrite addr 4 v s ∧
    (∀ code, regWrite addr (.other code) v s = .ok s)

/-- The model refuses a half or word access whose address is no multiple of the width (R57): at the load of a READ,
whatever waits in `RXQ`, and at the store of a WRITE, IOSET or IOCLR, whose operand has been received.
The refusal is the spec's decision D7 (log entry 19). -/
def Obligations.MisalignedAccessIsRefused : Prop :=
  ∀ (size : Size) (reg : BitVec 24) (n : Nat) (s : State), sizeBytes size = some n → (periphAddr reg).toNat % n ≠ 0 →
    s.disp.dstate = .exec 1 →
    (1 ≤ s.env.budget → exec (.read size reg) s = .refused .busMisaligned) ∧
    ∀ (w : Word) (ws : List Word), s.io.rxq = w :: ws → 3 ≤ s.env.budget → MayBlock s →
      exec (.write size reg) s = .refused .busMisaligned ∧ exec (.ioset size reg) s = .refused .busMisaligned ∧
      exec (.ioclr size reg) s = .refused .busMisaligned

/-- Two masked updates with one mask on a register that behaves as plain memory. The second decides: after
an IOSET the mask's bits are set, after an IOCLR they are clear, and all others are as at first, whatever the first
was; so IOSET then IOCLR restores a byte exactly when it had no bit of the mask. Each makes its own two accesses.
The rule is the spec's inference from R139 and R140; byte order is its decision D8 (log entry 16). -/
def Obligations.TwoMaskedUpdates : Prop :=
  ∀ (first second : Bool) (size : Size) (reg : BitVec 24) (n : Nat) (s : State) (m : Word) (ws : List Word),
    sizeBytes size = some n → s.disp.dstate = .exec 1 → s.io.rxq = m :: m :: ws → 3 ≤ s.env.budget → MayBlock s →
    BusAnswers (periphAddr reg) n s → s.mem.wf →
    ∃ t u, exec (if first then .ioset size reg else .ioclr size reg) s = .next t ∧
      exec (if second then .ioset size reg else .ioclr size reg) { t with disp.dstate := .exec 1 } = .next u ∧
      (∀ k < n, u.mem.read (byteAt (periphAddr reg) k) =
        if second then s.mem.read (byteAt (periphAddr reg) k) ||| m.extractLsb' (8 * k) 8
        else s.mem.read (byteAt (periphAddr reg) k) &&& ~~~(m.extractLsb' (8 * k) 8)) ∧
      (∀ k < n, second = false →
        (u.mem.read (byteAt (periphAddr reg) k) = s.mem.read (byteAt (periphAddr reg) k) ↔
          s.mem.read (byteAt (periphAddr reg) k) &&& m.extractLsb' (8 * k) 8 = 0#8)) ∧
      t.env.calls.length = s.env.calls.length + 2 ∧ u.env.calls.length = s.env.calls.length + 4

/-- A dispatcher that waits for an operand or for room has no step: its turn, however long, leaves every part
of the state as it is (the count of the turn's steps aside).
The turn as the unit of a step, and a turn that changes nothing for an agent without a step, are the model's choices
(log entries 2, 7, 43). -/
def Obligations.HeldDispatcherWaits : Prop :=
  ∀ (s : State) (n : Nat), Inv s → held s = true → MayBlock s →
    ∃ b, dispatcherTurn n s = .next { s with disp.dstate := .exec b, env.budget := if n = 0 then s.env.budget else n } ∧
      (n ≠ 0 → b = stepNumber s) ∧ (n = 0 → s.disp.dstate = .exec b)

/-! ## Interrupt commands and the VIC -/

/-- IRQGET: the reply is the highest pending line, whose bit alone is cleared, or 32 when none is pending; the
interrupt-mask bit is as it was. Nothing else changes.
That the send follows `leave` is the spec's decision D12 (log entry 20), the reply's zero extension and the ignored
fields its decisions D39 and D11 (log entry 37). -/
def Obligations.IrqgetCollectsTheHighestLine : Prop :=
  ∀ (size : Size) (reg : BitVec 24) (s : State),
    s.disp.dstate = .exec 1 → s.io.txq.length < s.env.params.txDepth → 4 ≤ s.env.budget → MayBlock s →
    ∃ r : Nat,
      ((s.vic.pending = 0#32 ∧ r = 32) ∨
        (r < 32 ∧ s.vic.pending.getLsbD r = true ∧ ∀ j, r < j → s.vic.pending.getLsbD j = false)) ∧
      exec (.irqget size reg) s = .next
        { s with
            vic.pending := s.vic.pending &&& ~~~(1#32 <<< r)
            disp := { s.disp with
              dstate := .poll, addr := periphAddr reg, val := BitVec.ofNat 32 r, token := s.crit.imask }
            io.txq := s.io.txq ++ [BitVec.ofNat 32 r] }

/-- IRQMASK: the line named by `reg[4:0]` is disarmed and what is pending on it is dropped; every other line, the
interrupt-mask bit and the rest of the state are as they were.
`ARMED` as a register of the block is the spec's decision D3 (log entry 11), the ignored fields are its D11 (log entry
37). -/
def Obligations.IrqmaskDisarmsAndDrops : Prop :=
  ∀ (size : Size) (reg : BitVec 24) (s : State), s.disp.dstate = .exec 1 → 3 ≤ s.env.budget →
    ∃ t, exec (.irqmask size reg) s = .next t ∧
      (∀ L : Line, t.vic.armed.getLsbD L.toNat = (s.vic.armed.getLsbD L.toNat && decide (L ≠ lineOf reg))) ∧
      (∀ L : Line, t.vic.pending.getLsbD L.toNat = (s.vic.pending.getLsbD L.toNat && decide (L ≠ lineOf reg))) ∧
      { t with vic := s.vic } =
        { s with
            disp := { s.disp with dstate := .poll, addr := periphAddr reg, token := s.crit.imask }
            env.calls := s.env.calls ++ [.hwDisarm (hwLineOf s (lineOf reg))] }

/-- IRQUNMASK: the line named by `reg[4:0]` is armed; `PENDING`, every other line, the interrupt-mask bit and the rest
of the state are as they were.
That `PENDING` is not written is the spec's decision D15 (log entry 21), the ignored fields are its D11 (log entry
37). -/
def Obligations.IrqunmaskArms : Prop :=
  ∀ (size : Size) (reg : BitVec 24) (s : State), s.disp.dstate = .exec 1 → 3 ≤ s.env.budget →
    ∃ t, exec (.irqunmask size reg) s = .next t ∧
      (∀ L : Line, t.vic.armed.getLsbD L.toNat = (s.vic.armed.getLsbD L.toNat || decide (L = lineOf reg))) ∧
      { t with vic.armed := s.vic.armed } =
        { s with
            disp := { s.disp with dstate := .poll, addr := periphAddr reg, token := s.crit.imask }
            env.calls := s.env.calls ++ [.hwArm (hwLineOf s (lineOf reg))] }

/-- The nine unknown modes: no step, no reply, no fault; the address latch is computed as for every command and the
loop goes on. -/
def Obligations.UnknownModesDoNothing : Prop :=
  ∀ (size : Size) (reg : BitVec 24) (s : State) (i : Instr),
    i ∈ [.unknownMode7 size reg, .unknownMode8 size reg, .unknownMode9 size reg, .unknownMode10 size reg,
      .unknownMode11 size reg, .unknownMode12 size reg, .unknownMode13 size reg, .unknownMode14 size reg,
      .unknownMode15 size reg] →
    s.disp.dstate = .exec 1 →
    exec i s = .next { s with disp := { s.disp with dstate := .poll, addr := periphAddr reg } }

/-- R144: under any injective mode codes, a word whose mode is not one of the seven codes is consumed by the step that
pops it and does nothing: no operand is received, nothing is sent, no access is made, `I`, `PENDING` and `ARMED` are
untouched, and the loop polls again. The latches hold the word and its address, as after every pop (R131). -/
def Obligations.UnknownModeWordsDoNothing : Prop :=
  ∀ (s : State) (n : Nat) (w : Word) (ws : List Word), s.fatal = false →
    (nextTurn s = .dispatcher (n + 2) ∧ s.disp.dstate = .poll) ∨
      (nextTurn s = .dispatcher (n + 1) ∧ s.disp.dstate = .pop) → s.io.rxq = w :: ws → 
    (codeList s.env.params.modeCodes).Nodup → modeField w ∉ codeList s.env.params.modeCodes →
    step s = .next
      { s with
          io.rxq := ws
          disp := { s.disp with dstate := .poll, cw := w, addr := periphAddr (regField w) }
          env.agenda := s.env.agenda.tail
          env.budget := n }

/-- R113: `get_pending` returns the highest-numbered line whose bit is set and clears that bit alone, or returns 32
with nothing pending; `ARMED` is not written. With it the rule's examples. -/
def Obligations.GetPendingCollectsTheHighestLine : Prop :=
  (∀ s : State, s.vic.pending = 0#32 → getPending s = (32, s)) ∧
  (∀ s : State, s.vic.pending ≠ 0#32 → ∃ L : Line, s.vic.pending.getLsbD L.toNat = true ∧
    (∀ i : Line, L.toNat < i.toNat → s.vic.pending.getLsbD i.toNat = false) ∧
    (getPending s).1 = L.toNat ∧
    (∀ i : Line, (getPending s).2.vic.pending.getLsbD i.toNat = (s.vic.pending.getLsbD i.toNat && decide (i ≠ L))) ∧
    { (getPending s).2 with vic.pending := s.vic.pending } = s) ∧
  ∀ s : State,
    (s.vic.pending = 0xFFFFFFFF#32 → (getPending s).1 = 31 ∧ (getPending s).2.vic.pending = 0x7FFFFFFF#32) ∧
    (s.vic.pending = 0x00000001#32 → (getPending s).1 = 0 ∧ (getPending s).2.vic.pending = 0#32) ∧
    (s.vic.pending = 0x00000224#32 → (getPending s).1 = 9 ∧ (getPending s).2.vic.pending = 0x00000024#32) ∧
    (s.vic.pending = 0x00000024#32 → (getPending s).1 = 5 ∧ (getPending s).2.vic.pending = 0x00000004#32) ∧
    (s.vic.pending = 0x00000004#32 → (getPending s).1 = 2 ∧ (getPending s).2.vic.pending = 0#32)

/-- The priority encoder as a pure function, and `get_pending` in terms of it.
The rule is the spec's restatement of R113. -/
def Obligations.PriorityEncoder : Prop :=
  prio 0#32 = 32 ∧
  (∀ p : Word, p ≠ 0#32 → prio p = Nat.log2 p.toNat ∧ prio p = 31 - p.clz.toNat ∧ p.getLsbD (prio p) = true ∧
    ∀ i, prio p < i → p.getLsbD i = false) ∧
  ∀ s : State, getPending s =
    (prio s.vic.pending,
      if prio s.vic.pending = 32 then s
      else { s with vic.pending := s.vic.pending &&& ~~~(1#32 <<< prio s.vic.pending) })

/-- The complete per-line transition table, with the side effects of each entry.
The table is the spec's inference from R110 to R114. -/
def Obligations.LineTransitionTable : Prop :=
  ∀ (s : State) (L : Line), lineState s.vic L ≠ .unreachable →
    lineState (unmask L s).vic L = (if lineState s.vic L = .pending then .pending else .armed) ∧
    { unmask L s with vic := s.vic } = { s with env.calls := s.env.calls ++ [.hwArm (hwLineOf s L)] } ∧
    lineState (mask L s).vic L = .masked ∧
    { mask L s with vic := s.vic } = { s with env.calls := s.env.calls ++ [.hwDisarm (hwLineOf s L)] } ∧
    (lineState s.vic L = .masked → fireEnabled L s = false ∧ fireTurn L s = s) ∧
    (lineState s.vic L ≠ .masked → lineState (fire L s).vic L = .pending) ∧
    { fire L s with vic := s.vic } = { s with io.sync := s.io.sync + 1 } ∧
    ((getPending s).1 = L.toNat → lineState s.vic L = .pending ∧ lineState (getPending s).2.vic L = .armed ∧
      ∀ H : Line, L.toNat < H.toNat → lineState s.vic H ≠ .pending) ∧
    ((getPending s).1 ≠ L.toNat → lineState (getPending s).2.vic L = lineState s.vic L) ∧
    { (getPending s).2 with vic := s.vic } = s ∧
    lineState (vicReset s).vic L = (if lineState s.vic L = .pending then .armed else lineState s.vic L) ∧
    { vicReset s with vic := s.vic } = s

/-- No bit is pending for a line that is not armed. It holds at reset, every operation of the VIC preserves it,
and so does every step of the machine.
That every operation preserves it is the spec's inference (R23). -/
def Obligations.VicInvariantIsKept : Prop :=
  vicInv State.reset.vic ∧
  (∀ (s : State) (L : Line), vicInv s.vic →
    vicInv (unmask L s).vic ∧ vicInv (mask L s).vic ∧ vicInv (fireTurn L s).vic ∧ vicInv (getPending s).2.vic ∧
    vicInv (vicReset s).vic) ∧
  ∀ s t : State, vicInv s.vic → step s = .next t → vicInv t.vic

/-- A line becomes pending in a step only because its handler ran in that step: its turn, the line armed, interrupts
enabled, and one sync raised. No command, no backend call, no other event sets a pending bit. -/
def Obligations.OnlyFireMakesALinePending : Prop :=
  ∀ (s t : State) (L : Line), step s = .next t → t.vic.pending.getLsbD L.toNat = true →
    s.vic.pending.getLsbD L.toNat = false →
    s.fatal = false ∧ nextTurn s = .fire L ∧ s.vic.armed.getLsbD L.toNat = true ∧ s.crit.imask = false ∧
    t.io.sync = s.io.sync + 1

/-- The sync count of the transport grows by one in a step in which a handler ran, starts again from 0 at a power-on, and
is changed by nothing else.
That a power-on empties the transport is the model's choice (log entry 30). -/
def Obligations.SyncOnlyFromFire : Prop :=
  ∀ s t : State, step s = .next t →
    t.io.sync = s.io.sync ∨ (∃ L, nextTurn s = .fire L ∧ fireEnabled L s = true ∧ t.io.sync = s.io.sync + 1) ∨
    (nextTurn s = .powerOn ∧ t.io.sync = 0)

/-- A turn of line `L`'s handler: taken with the line armed and interrupts enabled it sets the bit and raises one
sync, and saves and changes nothing else; otherwise it does not run. -/
def Obligations.FireIsGated : Prop :=
  ∀ (s : State) (L : Line), s.fatal = false → nextTurn s = .fire L →
    (s.vic.armed.getLsbD L.toNat = true → s.crit.imask = false →
      step s = .next
        { s with
            vic.pending := s.vic.pending ||| lineBit L
            io.sync := s.io.sync + 1
            env.agenda := s.env.agenda.tail }) ∧
    (s.vic.armed.getLsbD L.toNat = false ∨ s.crit.imask = true →
      step s = .next { s with env.agenda := s.env.agenda.tail })

/-- A handler that runs between the query of an IRQGET and its send (vector V-D34): with interrupts enabled before the
command, three steps leave them enabled again and nothing sent; a fire then sets its bit, and the command goes on to
send the line the query found.
That the send follows `leave` is the spec's decision D12 (log entry 20). -/
def Obligations.LateFireMissesTheReply : Prop :=
  ∀ (size : Size) (reg : BitVec 24) (s : State) (L : Line),
    s.disp.dstate = .exec 1 → s.env.budget = 3 → s.crit.imask = false → s.fatal = false →
    s.io.txq.length < s.env.params.txDepth → s.vic.armed.getLsbD L.toNat = true →
    ∃ t u, exec (.irqget size reg) s = .next t ∧ t.disp.dstate = .exec 4 ∧ t.crit.imask = false ∧
      t.io.txq = s.io.txq ∧
      exec (.irqget size reg) { fireTurn L t with env.budget := 1 } = .next u ∧
      u.io.txq = s.io.txq ++ [BitVec.ofNat 32 (prio s.vic.pending)] ∧ u.vic.pending.getLsbD L.toNat = true ∧
      u.disp.dstate = .poll

/-- The VIC's `reset` clears `PENDING` and nothing else, and an armed line can fire right after it; called in a
critical section it leaves the interrupt-mask bit as it found it.
The critical section around it is the spec's decision D16 (log entry 22). -/
def Obligations.VicResetClearsPendingOnly : Prop :=
  ∀ s : State, vicReset s = { s with vic.pending := 0#32 } ∧
    (∀ L, fireEnabled L (vicReset s) = fireEnabled L s) ∧
    (s.fatal = false → nextTurn s = .vicReset →
      step s = .next { s with vic.pending := 0#32, env.agenda := s.env.agenda.tail })

/-! ## The critical section -/

/-- R100 and R101: `enter` returns the prior value of `I` and sets it; `leave` restores exactly that bit. -/
def Obligations.EnterAndLeave : Prop :=
  ∀ (s : State) (token : Bool),
    enter s = (s.crit.imask, { s with crit.imask := true }) ∧ leave token s = { s with crit.imask := token } ∧
    (leave token s).crit.statusOther = s.crit.statusOther

/-- Calls of `enter` and `leave` by one caller that nest and unwind in LIFO order, to any depth, give back the
whole state; at every point in between interrupts are masked.
The rule is the spec's inference from R100 and R101. -/
def Obligations.NestedCriticalSections : Prop :=
  ∀ (s : State) (ops : List Bool), nests 0 ops = true →
    runCritical ops s = s ∧
    ∀ pre post, ops = pre ++ post → pre.count false < pre.count true → (runCritical pre s).crit.imask = true

/-! ## The block backend -/

/-- `hard_reset` run to its end: every byte of the config space has the value of R32's table, `CFG_BUILT` is set, the
storage driver is initialised once, and nothing else changes. -/
def Obligations.HardResetBuildsTheConfigSpace : Prop :=
  ∀ (s : State) (n : Nat), s.fatal = false → nextTurn s = .backend n → 5 ≤ n → s.blk.bstate = .hardReset 1 →
    ∃ t, step s = .next t ∧ t.blk.cfg.length = 60 ∧
      (∀ off < 60, t.blk.cfg.getD off 0xFF#8 =
        if off < 8 then s.env.capacity.extractLsb' (8 * off) 8
        else if off < 12 then s.env.params.sizeMax.extractLsb' (8 * (off - 8)) 8
        else if off < 16 then s.env.params.segMax.extractLsb' (8 * (off - 12)) 8
        else if off = 21 then 0x02#8
        else 0x00#8) ∧
      { t with blk.cfg := s.blk.cfg } =
        { s with
            blk := { s.blk with bstate := .idle, cfgBuilt := true, cap := s.env.capacity }
            env.agenda := s.env.agenda.tail
            env.calls := s.env.calls ++ [.storageInit, .storageCapacity s.env.capacity] }

/-- `config_read` of a built config space by an idle backend answers the byte in bounds and 0xFF out of bounds, and
changes nothing; before the first `hard_reset` a read in bounds answers a byte, of which nothing is said, and changes
nothing but the draws.
That the byte is any value is one of the two treatments U13 gives (log entry 27). -/
def Obligations.ConfigReadAnswersBytes : Prop :=
  ∀ (s : State) (off : Nat), s.fatal = false → nextTurn s = .configRead off → s.blk.bstate = .idle →
    s.blk.cfg.length = 60 →
    ((s.blk.cfgBuilt = true ∨ 60 ≤ off) → ∃ b, (∀ h : off < s.blk.cfg.length, b = s.blk.cfg[off]) ∧
      (60 ≤ off → b = 0xFF#8) ∧
      step s = .next
        { s with env.agenda := s.env.agenda.tail, env.calls := s.env.calls ++ [.configByte off b] }) ∧
    (s.blk.cfgBuilt = false → off < 60 → ∃ b, step s = .next
      { s with
          env.agenda := s.env.agenda.tail, env.draws := s.env.draws + 1, env.calls := s.env.calls ++ [.configByte off b] })

/-- The class of a descriptor by its length alone, the tests in order (R155); in terms of the length's low nine bits;
the sector count of a data descriptor, exact, at least one, at most 8388607 (R156); and the narrower reading `exact1`.
`STATUS_LEN_RULE` is the parameter of R162 and U1 (log entry 12), the width of a length its decision D36 (log entry
45). -/
def Obligations.DescriptorLengthClasses : Prop :=
  (∀ len : Word, classify .mod512 len =
    if len ≠ 0#32 ∧ len.toNat % 512 = 0 then .data else if len.toNat % 512 = 1 then .status else .violation) ∧
  (∀ (rule : Config.StatusLenRule) (len : Word),
    (classify rule len = .data ↔ len ≠ 0#32 ∧ len.extractLsb' 0 9 = 0#9) ∧
    (classify rule len = .data → sectorCount len * 512 = len.toNat ∧ 1 ≤ sectorCount len ∧ sectorCount len ≤ 0x7FFFFF ∧
      BitVec.ofNat 32 (sectorCount len) = len >>> 9)) ∧
  (∀ len : Word, classify .mod512 len = .status ↔ len.extractLsb' 0 9 = 1#9) ∧
  (∀ len : Word, classify .exact1 len = .status ↔ len = 1#32) ∧
  ∀ rule, sectorCount 0xFFFFFE00#32 = 0x7FFFFF ∧ classify rule 0#32 = .violation

/-- The lengths that are a violation; at one the flag is set and nothing else happens: no byte of either memory is read
or written, what earlier descriptors did stands, the job is not pushed, nobody is notified and no waiting job is fetched;
and with the flag set no agent has a step, unless a power-on comes.
The stop as a fault of the next step is the model's choice (log entry 29). -/
def Obligations.ViolationStopsTheBlock : Prop :=
  (∀ len : Word, classify .mod512 len = .violation ↔ len = 0#32 ∨ 2 ≤ len.toNat % 512) ∧
  (∀ (s : State) (n : Nat), s.fatal = false → nextTurn s = .backend (n + 1) → s.blk.bstate = .job .act →
    classify s.env.params.statusLen s.blk.desc.len = .violation →
    step s = .next { s with fatal := true, env.agenda := s.env.agenda.tail }) ∧
  ∀ s : State, s.fatal = true → (∀ ts, s.env.agenda ≠ .powerOn :: ts) → step s = .fault .descLenViolation

/-- BLK_IN on a chain of one data descriptor and one status descriptor, the storage call succeeding: the sectors are
copied to the buffer, the status byte is 0 (a status byte inside the buffer wins), the bytes of the transfer are
recorded, the job is pushed, then the notification raised. Nothing else changes.
That the length in bytes is recorded is the spec's decision D20 (log entry 24). -/
def Obligations.BlkInCopiesSectors : Prop :=
  ∀ (reserved : Word) (sector : BitVec 64) (s : State) (d e : Desc),
    s.blk.job.rest = [d, e] → classify s.env.params.statusLen d.len = .data →
    classify s.env.params.statusLen e.len = .status → nextStatus s = 0 → s.fatal = false → 11 ≤ s.env.budget → s.mem.wf →
    ∃ t, exec (.blkIn reserved sector) s = .next t ∧
      t.mem.read e.ptr.toNat = 0#8 ∧
      (∀ k < d.len.toNat, byteAt d.ptr k ≠ e.ptr.toNat → t.mem.read (byteAt d.ptr k) = s.disk.read (diskAt sector k)) ∧
      (∀ a, a ≠ e.ptr.toNat → (∀ k < d.len.toNat, a ≠ byteAt d.ptr k) → t.mem.read a = s.mem.read a) ∧
      { t with mem := s.mem } =
        { statusTaken s with
            blk := { s.blk with
              bstate := .job .fetch, rtype := 0#32, err := 0#8, desc := e, st := 0
              soff := sector + BitVec.ofNat 64 (d.len.toNat / 512)
              job := { s.blk.job with cur := e, rest := [], written := s.blk.job.written + d.len.toNat } }
            env.calls := s.env.calls ++ [.readSectors sector (d.len.toNat / 512) d.ptr 0,
              .recordWritten s.blk.job.id d.len.toNat, .guestWrite e.ptr 0#8,
              .pushCompleted s.blk.queue s.blk.job.id (s.blk.job.written + d.len.toNat), .notifyHost s.blk.queue] }

/-- BLK_OUT on such a chain: the buffer is copied to the sectors, nothing is recorded as written back, and of guest
memory only the status byte is written.
That a status byte records nothing is the spec's decision D21 (log entry 24). -/
def Obligations.BlkOutWritesSectors : Prop :=
  ∀ (reserved : Word) (sector : BitVec 64) (s : State) (d e : Desc),
    s.blk.job.rest = [d, e] → classify s.env.params.statusLen d.len = .data →
    classify s.env.params.statusLen e.len = .status → nextStatus s = 0 → s.fatal = false → 11 ≤ s.env.budget → s.mem.wf →
    s.disk.wf →
    ∃ t, exec (.blkOut reserved sector) s = .next t ∧
      t.mem.read e.ptr.toNat = 0#8 ∧ (∀ a, a ≠ e.ptr.toNat → t.mem.read a = s.mem.read a) ∧
      (∀ k < d.len.toNat, t.disk.read (diskAt sector k) = s.mem.read (byteAt d.ptr k)) ∧
      (∀ a, (∀ k < d.len.toNat, a ≠ diskAt sector k) → t.disk.read a = s.disk.read a) ∧
      { t with mem := s.mem, disk := s.disk } =
        { statusTaken s with
            blk := { s.blk with
              bstate := .job .fetch, rtype := 1#32, err := 0#8, desc := e, st := 0
              soff := sector + BitVec.ofNat 64 (d.len.toNat / 512)
              job := { s.blk.job with cur := e, rest := [] } }
            env.calls := s.env.calls ++ [.writeSectors sector (d.len.toNat / 512) d.ptr 0, .guestWrite e.ptr 0#8,
              .pushCompleted s.blk.queue s.blk.job.id s.blk.job.written, .notifyHost s.blk.queue] }

/-- BLK_IN on such a chain, the storage call failing: guest memory changes in the buffer and the status byte alone, the
medium not at all; the status byte, which wins inside the buffer, is nonzero; the bytes are recorded all the same, the
job is pushed and the notification raised. The buffer's content is not said.
What a failure leaves is the spec's decisions D37, D23 and D20 (log entries 24 to 26). -/
def Obligations.FailedBlkInIsReportedInTheStatusByte : Prop :=
  ∀ (reserved : Word) (sector : BitVec 64) (s : State) (d e : Desc),
    s.blk.job.rest = [d, e] → classify s.env.params.statusLen d.len = .data →
    classify s.env.params.statusLen e.len = .status → nextStatus s ≠ 0 → s.fatal = false → 11 ≤ s.env.budget → s.mem.wf →
    ∃ (t : State) (b : Byte), exec (.blkIn reserved sector) s = .next t ∧ b ≠ 0#8 ∧ t.mem.read e.ptr.toNat = b ∧
      (∀ a, a ≠ e.ptr.toNat → (∀ k < d.len.toNat, a ≠ byteAt d.ptr k) → t.mem.read a = s.mem.read a) ∧
      { t with mem := s.mem, env.draws := s.env.draws } =
        { s with
            blk := { s.blk with
              bstate := .job .fetch, rtype := 0#32, err := b, desc := e, st := nextStatus s
              soff := sector + BitVec.ofNat 64 (d.len.toNat / 512)
              job := { s.blk.job with cur := e, rest := [], written := s.blk.job.written + d.len.toNat } }
            env.statuses := s.env.statuses.tail
            env.calls := s.env.calls ++ [.readSectors sector (d.len.toNat / 512) d.ptr (nextStatus s),
              .recordWritten s.blk.job.id d.len.toNat, .guestWrite e.ptr b,
              .pushCompleted s.blk.queue s.blk.job.id (s.blk.job.written + d.len.toNat), .notifyHost s.blk.queue] }

/-- BLK_OUT on such a chain, the storage call failing: the medium changes in the sectors asked for alone, guest memory in
the status byte alone, which is nonzero; nothing is recorded as written back, the job is pushed and the notification
raised. The sectors' content is not said.
What a failure leaves is the spec's decisions D37 and D23 (log entries 25, 26). -/
def Obligations.FailedBlkOutIsReportedInTheStatusByte : Prop :=
  ∀ (reserved : Word) (sector : BitVec 64) (s : State) (d e : Desc),
    s.blk.job.rest = [d, e] → classify s.env.params.statusLen d.len = .data →
    classify s.env.params.statusLen e.len = .status → nextStatus s ≠ 0 → s.fatal = false → 11 ≤ s.env.budget → s.mem.wf →
    ∃ (t : State) (b : Byte), exec (.blkOut reserved sector) s = .next t ∧ b ≠ 0#8 ∧ t.mem.read e.ptr.toNat = b ∧
      (∀ a, a ≠ e.ptr.toNat → t.mem.read a = s.mem.read a) ∧
      (∀ a, (∀ k < d.len.toNat, a ≠ diskAt sector k) → t.disk.read a = s.disk.read a) ∧
      { t with mem := s.mem, disk := s.disk, env.draws := s.env.draws } =
        { s with
            blk := { s.blk with
              bstate := .job .fetch, rtype := 1#32, err := b, desc := e, st := nextStatus s
              soff := sector + BitVec.ofNat 64 (d.len.toNat / 512)
              job := { s.blk.job with cur := e, rest := [] } }
            env.statuses := s.env.statuses.tail
            env.calls := s.env.calls ++ [.writeSectors sector (d.len.toNat / 512) d.ptr (nextStatus s),
              .guestWrite e.ptr b, .pushCompleted s.blk.queue s.blk.job.id s.blk.job.written,
              .notifyHost s.blk.queue] }

/-- For a chain of any length and any order of data and status descriptors, of each type: the request
completes; its transfers are those of the data descriptors, each from the sector where the one before it ended; an IN
request has recorded their bytes at the push and every other request none; one byte is written for each status
descriptor, in order, at its pointer, and it is 0 exactly when every storage call before it returned 0. `WRITTEN` counts from the job's, 0 when fetched.
The rule is the spec's inference, with its decisions D20, D21, D23, D24 (log entries 24, 25). -/
def Obligations.ScatterGatherAccounting : Prop :=
  ∀ (reserved type : Word) (sector : BitVec 64) (s : State), s.fatal = false →
    NoViolation s.env.params.statusLen s.blk.job.rest → 4 * s.blk.job.rest.length + 4 ≤ s.env.budget →
    (∃ t cs, exec (.blkIn reserved sector) s = .next t ∧
      Accounted s t cs (s.blk.job.written + dataBytes s.env.params.statusLen s.blk.job.rest) ∧
      cs.filterMap readOf = plannedTransfers s.env.params.statusLen sector s.blk.job.rest ∧ cs.filterMap writeOf = []) ∧
    (∃ t cs, exec (.blkOut reserved sector) s = .next t ∧ Accounted s t cs s.blk.job.written ∧
      cs.filterMap writeOf = plannedTransfers s.env.params.statusLen sector s.blk.job.rest ∧ cs.filterMap readOf = []) ∧
    (type ≠ 0#32 → type ≠ 1#32 → s.env.params.unknownType = .literal →
      ∃ t cs, runOtherRequest type sector s = .next t ∧ Accounted s t cs s.blk.job.written ∧
        cs.filterMap readOf = [] ∧ cs.filterMap writeOf = [])

/-- A request of a type other than 0 and 1, under the spec's default: its calls are the write of a 0 at the pointer of
each status descriptor, in order, then the push and the notification; memory reads 0 there and is unchanged elsewhere,
the medium is unchanged, and nothing is recorded as written back.
It is the spec's decision D19 (log entry 14). -/
def Obligations.OtherTypesTransferNothing : Prop :=
  ∀ (type : Word) (sector : BitVec 64) (s : State), type ≠ 0#32 → type ≠ 1#32 → s.fatal = false →
    s.env.params.unknownType = .literal → NoViolation s.env.params.statusLen s.blk.job.rest →
    4 * s.blk.job.rest.length + 4 ≤ s.env.budget → s.mem.wf →
    ∃ t, runOtherRequest type sector s = .next t ∧
      t.env.calls = s.env.calls ++
        (statusPointers s.env.params.statusLen s.blk.job.rest).map (fun p => Call.guestWrite p 0#8) ++
        [.pushCompleted s.blk.queue s.blk.job.id s.blk.job.written, .notifyHost s.blk.queue] ∧
      t.disk = s.disk ∧ t.blk.job.written = s.blk.job.written ∧ t.blk.err = 0#8 ∧ t.blk.bstate = .job .fetch ∧
      (∀ d ∈ s.blk.job.rest, classify s.env.params.statusLen d.len = .status → t.mem.read d.ptr.toNat = 0#8) ∧
      t.blk.soff = sector + BitVec.ofNat 64 (dataBytes s.env.params.statusLen s.blk.job.rest / 512) ∧
      ∀ a, (∀ d ∈ s.blk.job.rest, classify s.env.params.statusLen d.len = .status → a ≠ d.ptr.toNat) →
        t.mem.read a = s.mem.read a

/-- The fetch of a running `process_queue`: the first job posted on its queue is taken, with nothing written yet, and
the jobs before and after it stay; with none posted on the queue the call ends and nothing else changes.
That jobs of a queue are presented in the order posted is the model's choice (log entry 44). -/
def Obligations.FetchTakesTheFirstJob : Prop :=
  ∀ (s : State) (n : Nat), s.fatal = false → nextTurn s = .backend (n + 1) → s.blk.bstate = .job .fetch →
    (∀ as j bs, s.env.posted = as ++ j :: bs → j.queue = s.blk.queue → (∀ a ∈ as, a.queue ≠ s.blk.queue) →
      step s = .next
        { s with
            blk := { s.blk with job := { j with written := 0 }, bstate := .job .header }
            env.posted := as ++ bs
            env.agenda := s.env.agenda.tail }) ∧
    ((∀ a ∈ s.env.posted, a.queue ≠ s.blk.queue) →
      step s = .next { s with blk.bstate := .idle, env.agenda := s.env.agenda.tail })

/-! ## The whole machine -/

/-- The fatal flag is set in a step only by the backend, at a descriptor of a violating length. -/
def Obligations.FatalOnlyFromAViolation : Prop :=
  ∀ s t : State, step s = .next t → s.fatal = false → t.fatal = true →
    (∃ n, nextTurn s = .backend n) ∧ t.blk.bstate = .job .act ∧
    classify t.env.params.statusLen t.blk.desc.len = .violation

/-- No command word can raise a fault, whatever its bits and its operand, in any state. -/
def Obligations.CommandsRaiseNoFault : Prop :=
  ∀ (i : Instr) (s : State), i.format = .cmd →
    (∀ f, exec i s ≠ .fault f) ∧ ∀ t, exec i s = .next t → t.fatal = s.fatal

/-- With the fatal flag set no agent has a step: the machine stops with the fault, unless a new power-on comes, which
clears the flag.
The stop as a fault of the next step is the model's choice (log entry 29). -/
def Obligations.FatalIsTerminal : Prop :=
  ∀ s : State, s.fatal = true →
    (∀ t, step s = .next t → (∃ ts, s.env.agenda = .powerOn :: ts) ∧ t.fatal = false) ∧
    ((∀ ts, s.env.agenda ≠ .powerOn :: ts) → step s = .fault .descLenViolation)

/-- The ends of a run: quiescent, failed and holding exclude one another. In a quiescent state with nothing scheduled and
no signal raised, a step changes nothing; a state with a call of the backend scheduled is not quiescent.
What moves when nothing is scheduled is the model's choice (log entries 7, 43); the definition is the spec's D29, a
pending call being one in the schedule (log entry 28). -/
def Obligations.EndsOfARun : Prop :=
  (∀ s : State, (Quiescent s → ¬ Failed s ∧ ¬ Holding s) ∧ (Holding s → ¬ Failed s)) ∧
  (∀ s : State, Quiescent s → s.env.agenda = [] → s.io.signal = false → step s = .next s) ∧
  ∀ (s : State) (off q : Nat), (.hardReset ∈ s.env.agenda ∨ .configRead off ∈ s.env.agenda ∨
    .processQueue q ∈ s.env.agenda) → ¬ Quiescent s

/-- The power-on values that R210 gives.
That the memories keep their content is the model's choice (log entry 30). -/
def Obligations.PowerOnValues : Prop :=
  (∀ s : State, s.powerOn.vic.pending = 0#32 ∧ s.powerOn.vic.armed = 0#32 ∧ s.powerOn.disp.dstate = .idle ∧
    s.powerOn.blk.bstate = .idle ∧ s.powerOn.fatal = false ∧ s.powerOn.blk.cfgBuilt = false ∧
    s.powerOn.mem = s.mem ∧ s.powerOn.disk = s.disk) ∧
  State.reset.vic.pending = 0#32 ∧ State.reset.vic.armed = 0#32 ∧ State.reset.disp.dstate = .idle ∧
  State.reset.blk.bstate = .idle ∧ State.reset.fatal = false ∧ State.reset.blk.cfgBuilt = false

/-- The invariant holds after reset. -/
def Obligations.InvariantHoldsAtReset : Prop := Inv State.reset

/-- Every step keeps the invariant: canonical memories inside their address spaces, a pending line armed, a config
space of 60 bytes, a backend reset before it runs, `ADDR` the address of `CW`, queues within their depths, and a word
waiting for a dispatcher about to pop. -/
def Obligations.StepKeepsTheInvariant : Prop := ∀ s t : State, Inv s → step s = .next t → Inv t

/-- No step changes a parameter. -/
def Obligations.StepKeepsTheParameters : Prop := ∀ s t : State, step s = .next t → t.env.params = s.env.params

/-- The two thread-context agents touch disjoint parts of the block: a turn of the backend leaves the VIC, the
critical section, the dispatcher and the transport alone; a turn of the dispatcher leaves the backend, its jobs and
the medium alone. -/
def Obligations.AgentsTouchDisjointState : Prop :=
  ∀ (s t : State) (n : Nat), s.fatal = false → step s = .next t →
    (nextTurn s = .backend n → t.vic = s.vic ∧ t.crit = s.crit ∧ t.disp = s.disp ∧ t.io = s.io) ∧
    (nextTurn s = .dispatcher n → t.blk = s.blk ∧ t.disk = s.disk ∧ t.fatal = false ∧ t.env.posted = s.env.posted ∧
      t.env.statuses = s.env.statuses ∧ t.env.draws = s.env.draws)
end

