-- ==== Sys2Proof/Laws/PerInstr.lean ====
section
/-! SUPPORT. Facts about every instruction as syntax, one lemma for each constructor. -/

namespace Sys2Proof.Laws.TableRow

/-- The first word of an instruction's encoding matches its row of the opcode table, and a command's encoding is that
word alone. -/
def Statement (i : Instr) : Prop :=
  ∃ w ws, encode i = w :: ws ∧ w &&& (tableRow i).2 = (tableRow i).1 ∧
    (i.format = .cmd → ws = []) ∧
    (i.format = .blkhdr → ws.length = 3)

/-- The mode field is the top of the word. -/
theorem encodeFields_and (mode size : BitVec 4) (reg : BitVec 24) :
    encodeFields mode size reg &&& 0xF0000000#32 = mode.setWidth 32 <<< 28 := by
  apply BitVec.eq_of_getLsbD_eq
  intro i hi
  have hm : (0xF0000000#32).getLsbD i = decide (28 ≤ i) := by
    revert i; decide
  rw [BitVec.getLsbD_and, hm]
  simp only [encodeFields, BitVec.getLsbD_append, BitVec.getLsbD_shiftLeft, BitVec.getLsbD_setWidth]
  by_cases h : 28 ≤ i
  · have h1 : ¬ i < 24 + 4 := by omega
    have h3 : i - 28 < 32 := by omega
    simp [h, h1, hi]
    intros; omega
  · simp [h]

/-- A command's row is its mode code in the top four bits. -/
theorem of_command {i : Instr} {size : BitVec 4} {reg : BitVec 24} (h : encode i = [encodeFields (modeCode i) size reg])
    (hf : i.format = .cmd) (hr : tableRow i = ((modeCode i).setWidth 32 <<< 28, 0xF0000000#32)) : Statement i :=
  ⟨_, _, h, by rw [hr]; exact encodeFields_and _ _ _, fun _ => rfl, by simp [hf]⟩

theorem write (size : Size) (reg : BitVec 24) : Statement (.write size reg) :=
  of_command (size := codeOfSize size) rfl rfl (by simp [tableRow, modeCode])

theorem read (size : Size) (reg : BitVec 24) : Statement (.read size reg) :=
  of_command (size := codeOfSize size) rfl rfl (by simp [tableRow, modeCode])

theorem ioset (size : Size) (reg : BitVec 24) : Statement (.ioset size reg) :=
  of_command (size := codeOfSize size) rfl rfl (by simp [tableRow, modeCode])

theorem ioclr (size : Size) (reg : BitVec 24) : Statement (.ioclr size reg) :=
  of_command (size := codeOfSize size) rfl rfl (by simp [tableRow, modeCode])

theorem irqget (size : Size) (reg : BitVec 24) : Statement (.irqget size reg) :=
  of_command (size := codeOfSize size) rfl rfl (by simp [tableRow, modeCode])

theorem irqmask (size : Size) (reg : BitVec 24) : Statement (.irqmask size reg) :=
  of_command (size := codeOfSize size) rfl rfl (by simp [tableRow, modeCode])

theorem irqunmask (size : Size) (reg : BitVec 24) : Statement (.irqunmask size reg) :=
  of_command (size := codeOfSize size) rfl rfl (by simp [tableRow, modeCode])

theorem unknownMode7 (size : Size) (reg : BitVec 24) : Statement (.unknownMode7 size reg) :=
  of_command (size := codeOfSize size) rfl rfl (by simp [tableRow, modeCode])

theorem unknownMode8 (size : Size) (reg : BitVec 24) : Statement (.unknownMode8 size reg) :=
  of_command (size := codeOfSize size) rfl rfl (by simp [tableRow, modeCode])

theorem unknownMode9 (size : Size) (reg : BitVec 24) : Statement (.unknownMode9 size reg) :=
  of_command (size := codeOfSize size) rfl rfl (by simp [tableRow, modeCode])

theorem unknownMode10 (size : Size) (reg : BitVec 24) : Statement (.unknownMode10 size reg) :=
  of_command (size := codeOfSize size) rfl rfl (by simp [tableRow, modeCode])

theorem unknownMode11 (size : Size) (reg : BitVec 24) : Statement (.unknownMode11 size reg) :=
  of_command (size := codeOfSize size) rfl rfl (by simp [tableRow, modeCode])

theorem unknownMode12 (size : Size) (reg : BitVec 24) : Statement (.unknownMode12 size reg) :=
  of_command (size := codeOfSize size) rfl rfl (by simp [tableRow, modeCode])

theorem unknownMode13 (size : Size) (reg : BitVec 24) : Statement (.unknownMode13 size reg) :=
  of_command (size := codeOfSize size) rfl rfl (by simp [tableRow, modeCode])

theorem unknownMode14 (size : Size) (reg : BitVec 24) : Statement (.unknownMode14 size reg) :=
  of_command (size := codeOfSize size) rfl rfl (by simp [tableRow, modeCode])

theorem unknownMode15 (size : Size) (reg : BitVec 24) : Statement (.unknownMode15 size reg) :=
  of_command (size := codeOfSize size) rfl rfl (by simp [tableRow, modeCode])

theorem blkIn (reserved : Word) (sector : BitVec 64) : Statement (.blkIn reserved sector) :=
  ⟨_, _, rfl, by simp [tableRow], by simp [Instr.format], fun _ => rfl⟩

theorem blkOut (reserved : Word) (sector : BitVec 64) : Statement (.blkOut reserved sector) :=
  ⟨_, _, rfl, by simp [tableRow], by simp [Instr.format], fun _ => rfl⟩

end Sys2Proof.Laws.TableRow
end

