-- ==== Sys2Proof/Tests/Slice0.lean ====
section
/-! SUPPORT. Tests: ill-formed terms, words written out from the encodings, at most two steps for each instruction
with results taken from `95_test_vectors.md`, and for every statement with hypotheses a state that meets them. -/

namespace Sys2Proof.Tests

open Sys2Proof.Machine

/-! ## Helpers -/

/-- The state of an outcome that has one. -/
def stateOf : Host.Outcome State Fault Refusal → State
  | .next t => t
  | _ => State.reset

/-- A dispatcher that polls these words, over this memory. -/
def polling (ws : List Word) (m : Memory) : State :=
  { State.reset with io.rxq := ws, disp.dstate := .poll, mem := m }

/-- The state after one step. -/
def after (s : State) : State := stateOf (step s)

/-- The `n` bytes from an address on. -/
def bytesFrom (a n : Nat) (s : State) : List Byte := (List.range n).map fun k => s.mem.read (a + k)

/-- A dispatcher with `n` steps left at the first step of a command, and these words waiting. -/
def atFirst (n : Nat) (ws : List Word) : State :=
  { State.reset with disp.dstate := .exec 1, io.rxq := ws, env.budget := n }

/-- A machine whose next turn is `t`. -/
def scheduled (t : Turn) (s : State) : State := { s with env.agenda := [t] }

/-- A VIC with these registers. -/
def withLines (armed pending : Word) (s : State) : State := { s with vic := { pending := pending, armed := armed } }

/-- A backend about to read the header of job 7 on queue 3, which stands at 0x20000000; the descriptors after it are
given; the storage calls return the statuses in turn. -/
def atHeader (header : List Byte) (ds : List Desc) (statuses : List Nat) (disk : Memory) : State :=
  { State.reset with
      mem := Memory.writeMany [] (byteAt 0x20000000#32) 0 header
      disk := disk
      blk.bstate := .job .read
      blk.desc := { ptr := 0x20000000#32, len := 16#32 }
      blk.cfgBuilt := true
      blk.queue := 3
      blk.job := { id := 7, queue := 3, cur := { ptr := 0x20000000#32, len := 16#32 }, rest := ds, written := 0 }
      env.statuses := statuses
      env.agenda := [.backend 20] }

/-- The header of vector V-E18: IN, sector 0x10. -/
def inHeader : List Byte := [0, 0, 0, 0, 0, 0, 0, 0, 0x10, 0, 0, 0, 0, 0, 0, 0]

/-- The header of vector V-E19: OUT, sector 0x1234. -/
def outHeader : List Byte := [1, 0, 0, 0, 0, 0, 0, 0, 0x34, 0x12, 0, 0, 0, 0, 0, 0]

/-- One data descriptor of a sector and a status descriptor (V-B1, V-B2). -/
def oneSector : List Desc := [{ ptr := 0x20001000#32, len := 512#32 }, { ptr := 0x20003000#32, len := 1#32 }]

/-! ## Well-formedness: each command refuses a size code that has a name of its own -/

theorem test_illformed_register_commands :
    Instr.wellFormed (.write (.other 0#4) 0#24) = false ∧ Instr.wellFormed (.read (.other 1#4) 0#24) = false ∧
    Instr.wellFormed (.ioset (.other 2#4) 0#24) = false ∧ Instr.wellFormed (.ioclr (.other 0#4) 0#24) = false := by
  decide

theorem test_illformed_irq_commands :
    Instr.wellFormed (.irqget (.other 0#4) 0#24) = false ∧ Instr.wellFormed (.irqmask (.other 1#4) 0#24) = false ∧
    Instr.wellFormed (.irqunmask (.other 2#4) 0#24) = false := by decide

theorem test_illformed_unknown_modes :
    Instr.wellFormed (.unknownMode7 (.other 0#4) 0#24) = false ∧
    Instr.wellFormed (.unknownMode8 (.other 1#4) 0#24) = false ∧
    Instr.wellFormed (.unknownMode9 (.other 2#4) 0#24) = false ∧
    Instr.wellFormed (.unknownMode10 (.other 0#4) 0#24) = false ∧
    Instr.wellFormed (.unknownMode11 (.other 1#4) 0#24) = false ∧
    Instr.wellFormed (.unknownMode12 (.other 2#4) 0#24) = false ∧
    Instr.wellFormed (.unknownMode13 (.other 0#4) 0#24) = false ∧
    Instr.wellFormed (.unknownMode14 (.other 1#4) 0#24) = false ∧
    Instr.wellFormed (.unknownMode15 (.other 2#4) 0#24) = false := by decide

/-! ## Decoding: words written out from R80 to R82 and R92 -/

/-- V-E1, V-E12. -/
theorem test_decode_write :
    decodeCommand 0b0000_0010_000000000001000000000000#32 = .write .word 0x001000#24 ∧
    decodeCommand 0x00000000#32 = .write .byte 0#24 := by decide

/-- V-E3, V-D8. -/
theorem test_decode_read :
    decodeCommand 0b0001_0010_111111111111111111111100#32 = .read .word 0xFFFFFC#24 ∧
    decodeCommand 0x1F001000#32 = .read (.other 15#4) 0x001000#24 := by decide

/-- V-E5. -/
theorem test_decode_ioset :
    decodeCommand 0b0010_0001_000000000000000100000000#32 = .ioset .half 0x000100#24 := by decide

/-- V-E6. -/
theorem test_decode_ioclr :
    decodeCommand 0b0011_0000_000000000000000000000011#32 = .ioclr .byte 0x000003#24 := by decide

/-- V-E7, V-D23. -/
theorem test_decode_irqget :
    decodeCommand 0b0100_0000_000000000000000000000000#32 = .irqget .byte 0#24 ∧
    decodeCommand 0x4F123456#32 = .irqget (.other 15#4) 0x123456#24 := by decide

/-- V-E10, V-E11. -/
theorem test_decode_irqmask :
    decodeCommand 0b0101_0000_000000000000000000101001#32 = .irqmask .byte 0x000029#24 ∧
    decodeCommand 0x5AFFFFFF#32 = .irqmask (.other 10#4) 0xFFFFFF#24 := by decide

/-- V-E9. -/
theorem test_decode_irqunmask :
    decodeCommand 0b0110_0000_000000000000000000011111#32 = .irqunmask .byte 31#24 := by decide

/-- V-E14, V-E13: the nine codes 7 to 15. -/
theorem test_decode_unknown_modes :
    decodeCommand 0x70000000#32 = .unknownMode7 .byte 0#24 ∧ decodeCommand 0x81000000#32 = .unknownMode8 .half 0#24 ∧
    decodeCommand 0x92000001#32 = .unknownMode9 .word 1#24 ∧
    decodeCommand 0xA3000000#32 = .unknownMode10 (.other 3#4) 0#24 ∧
    decodeCommand 0xB0800000#32 = .unknownMode11 .byte 0x800000#24 ∧
    decodeCommand 0xC0000000#32 = .unknownMode12 .byte 0#24 ∧ decodeCommand 0xD0000000#32 = .unknownMode13 .byte 0#24 ∧
    decodeCommand 0xE0000000#32 = .unknownMode14 .byte 0#24 ∧
    decodeCommand 0xFFFFFFFF#32 = .unknownMode15 (.other 15#4) 0xFFFFFF#24 := by decide

/-- V-E18, V-E20. -/
theorem test_decode_blk_in :
    decodeWords .blkhdr (wordsOfBytes inHeader) = .ok (.blkIn 0#32 0x10#64, []) ∧
    decodeWords .blkhdr (wordsOfBytes
      [0, 0, 0, 0, 0xEF, 0xBE, 0xAD, 0xDE, 0xEF, 0xCD, 0xAB, 0x89, 0x67, 0x45, 0x23, 0x01])
      = .ok (.blkIn 0xDEADBEEF#32 0x0123456789ABCDEF#64, []) := by decide

/-- V-E19. -/
theorem test_decode_blk_out :
    decodeWords .blkhdr (wordsOfBytes outHeader) = .ok (.blkOut 0#32 0x1234#64, []) := by decide

/-- V-E21, and lists too short for either format. -/
theorem test_decode_rejects :
    decodeWords .blkhdr (wordsOfBytes [0, 1, 0, 0, 0, 0, 0, 0, 5, 0, 0, 0, 0, 0, 0, 0]) = .error .otherType ∧
    decodeWords .blkhdr [0#32, 0#32, 0#32] = .error .shortHeader ∧ decodeWords .cmd [] = .error .noWord := by decide

/-- V-E15, V-E16. -/
theorem test_command_lengths :
    [0x0F000000#32, 0x2F000000#32, 0x3F000000#32].map (fun w => commandLength (decodeCommand w)) = [2, 2, 2] ∧
    [0x1F000000#32, 0x4F000000#32, 0x5F000000#32, 0x6F000000#32, 0x80000000#32].map
      (fun w => commandLength (decodeCommand w)) = [1, 1, 1, 1, 1] := by decide

/-- The host's numbering: a command word, a command word with its operand, a header, and a BLKHDR row's 32 bits. -/
theorem test_table_words :
    decodeTableWord 32 0x02001000 = some (.write .word 0x001000#24) ∧
    decodeTableWord 64 0x00000000 = some (.write .byte 0#24) ∧
    decodeTableWord 128 (0x1234 <<< 64 ||| 1) = some (.blkOut 0#32 0x1234#64) ∧
    decodeTableWord 32 0 = some (.blkIn 0#32 0#64) ∧ decodeTableWord 32 1 = some (.blkOut 0#32 0#64) := by decide

/-! ## One step of each instruction -/

/-- V-D1. -/
theorem test_write_word :
    bytesFrom 0x10001000 4 (after (polling [0x02001000#32, 0xCAFEF00D#32] [])) = [0x0D, 0xF0, 0xFE, 0xCA] := by decide

/-- V-D2: the neighbours of a byte are not touched. -/
theorem test_write_byte :
    bytesFrom 0x10003000 4 (after (polling [0x00003001#32, 0xABCDEF99#32]
      [(0x10003000, 0x11), (0x10003001, 0x22), (0x10003002, 0x33), (0x10003003, 0x44)])) = [0x11, 0x99, 0x33, 0x44] := by
  decide

/-- V-D6: zero-extended. -/
theorem test_read_byte :
    (after (polling [0x10001000#32] [(0x10001000, 0x80)])).io.txq = [0x00000080#32] := by decide

/-- V-D8. -/
theorem test_read_bad_size :
    (after (polling [0x13001000#32] [(0x10001000, 0x78)])).io.txq = [0xDEADBEEF#32] := by decide

/-- V-D12. -/
theorem test_ioset_byte :
    bytesFrom 0x10002000 4 (after (polling [0x20002001#32, 0xFFFFFF01#32]
      [(0x10002000, 0x81), (0x10002001, 0x7E), (0x10002002, 0x55), (0x10002003, 0xAA)])) = [0x81, 0x7F, 0x55, 0xAA] := by
  decide

/-- V-D16: the operand is consumed and nothing is stored. -/
theorem test_ioset_bad_size :
    (after (polling [0x2F001000#32, 0xFFFFFFFF#32] [(0x10001000, 0x78)])).io.rxq = [] ∧
    (after (polling [0x2F001000#32, 0xFFFFFFFF#32] [(0x10001000, 0x78)])).env.calls = [] := by decide

/-- V-D13. -/
theorem test_ioclr_half :
    bytesFrom 0x10002000 4 (after (polling [0x31002002#32, 0x0001F0F0#32]
      [(0x10002000, 0x81), (0x10002001, 0x7F), (0x10002002, 0x55), (0x10002003, 0xAA)])) = [0x81, 0x7F, 0x05, 0x0A] := by
  decide

/-- V-D11. -/
theorem test_ioclr_word :
    (after (polling [0x32001000#32, 0x00000030#32] [(0x10001000, 0xF5)])).env.calls =
      [.memRead 0x10001000#32 4, .memWrite 0x10001000#32 4 0x000000C5#32] := by decide

/-- V-D19. -/
theorem test_irqget_highest :
    (after (withLines 0x224#32 0x224#32 (polling [0x40000000#32] []))).io.txq = [9#32] ∧
    (after (withLines 0x224#32 0x224#32 (polling [0x40000000#32] []))).vic = { pending := 0x24#32, armed := 0x224#32 } := by
  decide

/-- V-D20. -/
theorem test_irqget_none : (after (polling [0x40000000#32] [])).io.txq = [0x20#32] := by decide

/-- V-D24. -/
theorem test_irqmask_drops :
    (after (withLines 0x220#32 0x200#32 (polling [0x50000009#32] []))).vic = { pending := 0#32, armed := 0x20#32 } := by
  decide

/-- V-D25, the first command. -/
theorem test_irqmask_low_bits :
    (after (withLines 0x80000200#32 0x80000000#32 (polling [0x50000029#32] []))).vic
      = { pending := 0x80000000#32, armed := 0x80000000#32 } := by decide

/-- V-D26. -/
theorem test_irqunmask_arms :
    (after (polling [0x6000001F#32] [])).vic = { pending := 0#32, armed := 0x80000000#32 } ∧
    (after (polling [0x6000001F#32] [])).env.calls = [.hwArm 31] := by decide

/-- V-D27. -/
theorem test_irqunmask_pending :
    (after (withLines 0x20#32 0x20#32 (polling [0x60000005#32] []))).vic = { pending := 0x20#32, armed := 0x20#32 } := by
  decide

/-- What is left in the queue and what has been called after one step. -/
def leftAfter (ws : List Word) : List Word × List Call := ((after (polling ws [])).io.rxq, (after (polling ws [])).env.calls)

/-- V-D28 and V-E14: each unknown mode consumes its one word and calls nothing. -/
theorem test_unknown_modes :
    leftAfter [0x70000000#32, 1#32] = ([1#32], []) ∧ leftAfter [0x8F000000#32, 1#32] = ([1#32], []) ∧
    leftAfter [0x9FFFFFFF#32, 1#32] = ([1#32], []) ∧ leftAfter [0xA0000000#32, 1#32] = ([1#32], []) ∧
    leftAfter [0xB0000000#32, 1#32] = ([1#32], []) ∧ leftAfter [0xC0000000#32, 1#32] = ([1#32], []) ∧
    leftAfter [0xD0000000#32, 1#32] = ([1#32], []) ∧ leftAfter [0xE0000000#32, 1#32] = ([1#32], []) ∧
    leftAfter [0xF2001000#32, 1#32] = ([1#32], []) := by decide

/-- V-B1: the calls and the accounts of a read of one sector. -/
theorem test_blk_in_calls :
    (after (atHeader inHeader oneSector [0] [])).env.calls =
      [.guestRead 0x20000000#32 16, .readSectors 0x10#64 1 0x20001000#32 0, .recordWritten 7 512,
        .guestWrite 0x20003000#32 0#8, .pushCompleted 3 7 512, .notifyHost 3] := by decide

set_option maxRecDepth 20000 in
/-- V-B1: the first and the last byte of sector 0x10 in the buffer. -/
theorem test_blk_in_data :
    (after (atHeader inHeader oneSector [0] [(0x2000, 0xA1), (0x21FF, 0xA2), (0x2200, 0xA3)])).mem =
      [(0x20000008, 0x10), (0x20001000, 0xA1), (0x200011FF, 0xA2)] := by decide

/-- V-B2: the calls of a write of one sector, nothing recorded. -/
theorem test_blk_out_calls :
    (after (atHeader outHeader oneSector [0] [])).env.calls =
      [.guestRead 0x20000000#32 16, .writeSectors 0x1234#64 1 0x20001000#32 0, .guestWrite 0x20003000#32 0#8,
        .pushCompleted 3 7 0, .notifyHost 3] := by decide

/-- V-B18: a good transfer stands, then the violation stops the machine with nothing pushed. -/
theorem test_blk_out_violation :
    (after (atHeader outHeader [{ ptr := 0x20001000#32, len := 512#32 }, { ptr := 0x20002000#32, len := 100#32 }] [0] [])).fatal
      = true ∧
    (after (atHeader outHeader [{ ptr := 0x20001000#32, len := 512#32 }, { ptr := 0x20002000#32, len := 100#32 }] [0]
      [])).env.calls = [.guestRead 0x20000000#32 16, .writeSectors 0x1234#64 1 0x20001000#32 0] := by decide

/-- V-D30. -/
theorem test_misaligned_refused : step (polling [0x11001001#32] []) = .refused .busMisaligned := rfl

/-- V-D32: the dispatcher waits for the operand. -/
theorem test_operand_hold : (after (polling [0x02001000#32] [])).disp.dstate = .exec 1 := by decide

/-- V-I3, V-I5: a line fires only while armed. -/
theorem test_fire :
    (after (scheduled (.fire 2#5) (withLines 4#32 0#32 State.reset))).io.sync = 1 ∧
    (after (scheduled (.fire 2#5) State.reset)).vic.pending = 0#32 := by decide

/-- The examples of R117. -/
theorem test_prio :
    [0#32, 1#32, 2#32, 3#32, 0x224#32, 0x10000#32, 0x7FFFFFFF#32, 0x80000000#32].map prio = [32, 0, 1, 1, 9, 16, 30, 31] := by
  decide

/-- V-K1. -/
theorem test_hard_reset :
    (after (scheduled (.backend 5) { State.reset with blk.bstate := .hardReset 1, env.capacity := 0x3B0000#64 })).blk.cfg =
      [0, 0, 0x3B] ++ List.replicate 18 0 ++ [0x02] ++ List.replicate 38 0 := by decide

/-- The host's words run as the first instruction after reset. -/
theorem test_fetch_words :
    (after (State.reset.withFetchWord 32 0x60000005)).vic.armed = 0x20#32 ∧
    (after (State.reset.withFetchWord 64 0x0000005A00FFFFFF)).mem = [(0x10FFFFFF, 0x5A)] ∧
    (after (State.reset.withFetchWord 32 1)).env.calls =
      [.guestRead 0x20000000#32 16, .pushCompleted 0 0 0, .notifyHost 0] := by decide

/-! ## Witnesses: states and operands that meet the hypotheses of the statements -/

/-- Codes other than the default: 15 down to 9. -/
def otherCodes : Config.ModeCodes :=
  { write := 15#4, read := 14#4, ioset := 13#4, ioclr := 12#4, irqget := 11#4, irqmask := 10#4, irqunmask := 9#4 }

/-- `DecodeInvertsEncode`: the ends of the out-of-range sizes. -/
theorem witness_DecodeInvertsEncode :
    Instr.wellFormed (.write (.other 3#4) 0xFFFFFF#24) = true ∧ Instr.wellFormed (.irqget (.other 15#4) 0#24) = true ∧
    Instr.wellFormed (.blkIn 0xFFFFFFFF#32 0#64) = true := by decide

/-- `AnyModeCodesSelectTheirCommand`: two assignments, and values at both ends that are no code. -/
theorem witness_AnyModeCodesSelectTheirCommand :
    (codeList Config.defaultModeCodes).Nodup ∧ 7#4 ∉ codeList Config.defaultModeCodes ∧
    15#4 ∉ codeList Config.defaultModeCodes ∧ (codeList otherCodes).Nodup ∧ 0#4 ∉ codeList otherCodes ∧
    8#4 ∉ codeList otherCodes := by decide

/-- A dispatcher about to pop one of these words, with one step in its turn. -/
def popping (ws : List Word) : State :=
  { polling ws [] with disp.dstate := .pop, env.agenda := [.dispatcher 1] }

/-- `StepRunsThePoppedCommand`: a test and a pop, a pop, a command in flight, the default codes. -/
theorem witness_StepRunsThePoppedCommand :
    ((polling [0x40000000#32] []).fatal = false ∧ nextTurn (polling [0x40000000#32] []) = .dispatcher (6 + 2) ∧
      (polling [0x40000000#32] []).disp.dstate = .poll ∧ (polling [0x40000000#32] []).io.rxq = [0x40000000#32] ∧
      (polling [0x40000000#32] []).env.params.modeCodes = Config.defaultModeCodes) ∧
    ((popping [0x40000000#32]).fatal = false ∧ nextTurn (popping [0x40000000#32]) = .dispatcher (0 + 1) ∧
      (popping [0x40000000#32]).disp.dstate = .pop ∧ (popping [0x40000000#32]).io.rxq = [0x40000000#32]) ∧
    (nextTurn (scheduled (.dispatcher 1) (atFirst 0 [])) = .dispatcher (0 + 1) ∧
      (scheduled (.dispatcher 1) (atFirst 0 [])).fatal = false ∧
      (scheduled (.dispatcher 1) (atFirst 0 [])).disp.dstate = .exec 1) := by decide

/-- The header of vector V-E21: type 0x100, sector 5. -/
def otherHeader : List Byte := [0, 1, 0, 0, 0, 0, 0, 0, 5, 0, 0, 0, 0, 0, 0, 0]

/-- `StepRunsARequestOfAnotherType`, under each value of the switch. -/
theorem witness_StepRunsARequestOfAnotherType :
    (atHeader otherHeader [] [] []).fatal = false ∧ nextTurn (atHeader otherHeader [] [] []) = .backend (19 + 1) ∧
    (atHeader otherHeader [] [] []).blk.bstate = .job .read ∧
    otherHeader = (atHeader otherHeader [] [] []).mem.readMany (byteAt 0x20000000#32) 16 ∧
    ofBytesLE 32 (otherHeader.take 4) = 0x100#32 ∧ (0x100#32 : Word) ≠ 0#32 ∧ (0x100#32 : Word) ≠ 1#32 ∧
    (atHeader otherHeader [] [] []).env.params.unknownType = .literal ∧
    { resetParams with unknownType := .refuse }.unknownType = .refuse := by decide

/-- `StepRunsTheRequestOfTheHeader`: a job just fetched, and a header of either type. -/
theorem witness_StepRunsTheRequestOfTheHeader :
    { atHeader inHeader [] [] [] with blk.bstate := .job .header }.blk.bstate = .job .header ∧
    ((atHeader inHeader [] [] []).fatal = false ∧ nextTurn (atHeader inHeader [] [] []) = .backend (19 + 1) ∧
      (atHeader inHeader [] [] []).blk.bstate = .job .read ∧
      inHeader = (atHeader inHeader [] [] []).mem.readMany (byteAt 0x20000000#32) 16 ∧
      decodeRequest (ofBytesLE 32 (inHeader.take 4)) (ofBytesLE 32 ((inHeader.drop 4).take 4))
        (ofBytesLE 64 (inHeader.drop 8)) = .ok (.blkIn 0#32 0x10#64)) ∧
    (outHeader = (atHeader outHeader [] [] []).mem.readMany (byteAt 0x20000000#32) 16 ∧
      decodeRequest (ofBytesLE 32 (outHeader.take 4)) (ofBytesLE 32 ((outHeader.drop 4).take 4))
        (ofBytesLE 64 (outHeader.drop 8)) = .ok (.blkOut 0#32 0x1234#64)) := by decide

/-- `DispatcherLoopOutsideACommand`: its four cases. -/
theorem witness_DispatcherLoopOutsideACommand :
    (nextTurn (scheduled (.dispatcher 1) State.reset) = .dispatcher (0 + 1) ∧ State.reset.disp.dstate = .idle ∧
      State.reset.io.signal = false ∧ (scheduled (.dispatcher 1) State.reset).fatal = false) ∧
    (nextTurn { State.reset with io.signal := true } = .dispatcher (7 + 1)) ∧
    (nextTurn (polling [] []) = .dispatcher (7 + 1) ∧ (polling [] []).io.rxq = []) ∧
    (nextTurn (scheduled (.dispatcher 1) (polling [5#32] [])) = .dispatcher (0 + 1) ∧ (polling [5#32] []).io.rxq ≠ []) := by
  decide

/-- `RxAvailOnlySignals`: with a word waiting and interrupts enabled, masked, and with no word. -/
theorem witness_RxAvailOnlySignals :
    nextTurn { State.reset with io.rxq := [0#32] } = .rxAvail ∧ State.reset.fatal = false ∧
    nextTurn (scheduled .rxAvail { State.reset with io.rxq := [0#32], crit.imask := true }) = .rxAvail ∧
    nextTurn (scheduled .rxAvail State.reset) = .rxAvail := by decide

/-- The bus of a machine at the first step of a command answers at the top of the window at each width. -/
theorem witness_bus_answers (ws : List Word) :
    BusAnswers (periphAddr 0xFFFFFF#24) 1 (atFirst 3 ws) ∧ BusAnswers (periphAddr 0xFFFFFE#24) 2 (atFirst 3 ws) ∧
    BusAnswers (periphAddr 0xFFFFFC#24) 4 (atFirst 3 ws) ∧ BusAnswers (periphAddr 0#24) 4 (atFirst 3 ws) := by
  simp only [BusAnswers, atFirst]; decide

/-- `WriteStoresTheOperand`, with the fewest steps it takes. -/
theorem witness_WriteStoresTheOperand :
    sizeBytes .byte = some 1 ∧ sizeBytes .half = some 2 ∧ sizeBytes .word = some 4 ∧
    (atFirst 2 [5#32]).disp.dstate = .exec 1 ∧ (atFirst 2 [5#32]).io.rxq = [5#32] ∧ 2 ≤ (atFirst 2 [5#32]).env.budget ∧
    MayBlock (atFirst 2 [5#32]) ∧ BusAnswers (periphAddr 0xFFFFFF#24) 1 (atFirst 2 [5#32]) ∧
    BusAnswers (periphAddr 0xFFFFFE#24) 2 (atFirst 2 [5#32]) ∧ BusAnswers (periphAddr 0xFFFFFC#24) 4 (atFirst 2 [5#32]) ∧
    (atFirst 2 [5#32]).mem.wf := by decide

/-- `ReadSendsTheValue`. -/
theorem witness_ReadSendsTheValue :
    sizeBytes .half = some 2 ∧ (atFirst 2 []).disp.dstate = .exec 1 ∧
    (atFirst 2 []).io.txq.length < (atFirst 2 []).env.params.txDepth ∧ 2 ≤ (atFirst 2 []).env.budget ∧
    MayBlock (atFirst 2 []) ∧ BusAnswers (periphAddr 0xFFFFFE#24) 2 (atFirst 2 []) := by decide

/-- `IosetSetsTheOperandsBits`. -/
theorem witness_IosetSetsTheOperandsBits :
    sizeBytes .word = some 4 ∧ (atFirst 3 [5#32]).disp.dstate = .exec 1 ∧ (atFirst 3 [5#32]).io.rxq = [5#32] ∧
    3 ≤ (atFirst 3 [5#32]).env.budget ∧ MayBlock (atFirst 3 [5#32]) ∧
    BusAnswers (periphAddr 0xFFFFFC#24) 4 (atFirst 3 [5#32]) ∧ (atFirst 3 [5#32]).mem.wf := by decide

/-- `IoclrClearsTheOperandsBits`. -/
theorem witness_IoclrClearsTheOperandsBits :
    sizeBytes .byte = some 1 ∧ (atFirst 3 [5#32]).disp.dstate = .exec 1 ∧ (atFirst 3 [5#32]).io.rxq = [5#32] ∧
    3 ≤ (atFirst 3 [5#32]).env.budget ∧ MayBlock (atFirst 3 [5#32]) ∧
    BusAnswers (periphAddr 0xFFFFFF#24) 1 (atFirst 3 [5#32]) ∧ (atFirst 3 [5#32]).mem.wf := by decide

/-- `OutOfRangeSizeMakesNoAccess`: an operand waiting, and room for a reply; the codes are any. -/
theorem witness_OutOfRangeSizeMakesNoAccess :
    (atFirst 3 [5#32]).disp.dstate = .exec 1 ∧ 3 ≤ (atFirst 3 [5#32]).env.budget ∧ MayBlock (atFirst 3 [5#32]) ∧
    (atFirst 3 [5#32]).io.rxq = [5#32] ∧ (atFirst 3 [5#32]).io.txq.length < (atFirst 3 [5#32]).env.params.txDepth := by
  decide

/-- `WidthHelpers`: each width is in the list and its read answers. -/
theorem witness_WidthHelpers :
    (∃ x t, busRead 0x10000000#32 1 State.reset = .ok (x, t)) ∧
    (∃ x t, busRead 0x10000000#32 2 State.reset = .ok (x, t)) ∧ (∃ x t, busRead 0x10000000#32 4 State.reset = .ok (x, t)) :=
  ⟨⟨_, _, rfl⟩, ⟨_, _, rfl⟩, ⟨_, _, rfl⟩⟩

/-- `MisalignedAccessIsRefused`: a half at an odd address, a word at each of the three offsets; a READ with an empty
queue and one step left, the others with their operand. -/
theorem witness_MisalignedAccessIsRefused :
    sizeBytes .half = some 2 ∧ (periphAddr 0xFFFFFF#24).toNat % 2 ≠ 0 ∧ sizeBytes .word = some 4 ∧
    (periphAddr 1#24).toNat % 4 ≠ 0 ∧ (periphAddr 2#24).toNat % 4 ≠ 0 ∧ (periphAddr 3#24).toNat % 4 ≠ 0 ∧
    (atFirst 1 []).disp.dstate = .exec 1 ∧ 1 ≤ (atFirst 1 []).env.budget ∧ (atFirst 1 []).io.rxq = [] ∧
    (atFirst 3 [5#32]).disp.dstate = .exec 1 ∧ 3 ≤ (atFirst 3 [5#32]).env.budget ∧ MayBlock (atFirst 3 [5#32]) ∧
    (atFirst 3 [5#32]).io.rxq = [5#32] := by decide

/-- `TwoMaskedUpdates`. -/
theorem witness_TwoMaskedUpdates :
    sizeBytes .word = some 4 ∧ (atFirst 3 [5#32, 5#32]).disp.dstate = .exec 1 ∧
    (atFirst 3 [5#32, 5#32]).io.rxq = 5#32 :: 5#32 :: [] ∧ 3 ≤ (atFirst 3 [5#32, 5#32]).env.budget ∧
    MayBlock (atFirst 3 [5#32, 5#32]) ∧ BusAnswers (periphAddr 0#24) 4 (atFirst 3 [5#32, 5#32]) ∧
    (atFirst 3 [5#32, 5#32]).mem.wf := by decide

/-- A dispatcher at step `k` of a command, with these replies unread. -/
def waiting (k : Nat) (w : Word) (replies : List Word) : State :=
  { State.reset with
      disp := { State.reset.disp with dstate := .exec k, cw := w, addr := periphAddr (regField w) }
      io.txq := replies }

/-- `HeldDispatcherWaits`: a WRITE without its operand, a READ and an IRQGET without room. -/
theorem witness_HeldDispatcherWaits :
    (Inv (waiting 1 0x02001000#32 []) ∧ held (waiting 1 0x02001000#32 []) = true ∧ MayBlock (waiting 1 0x02001000#32 [])) ∧
    (Inv (waiting 2 0x12001000#32 [0#32]) ∧ held (waiting 2 0x12001000#32 [0#32]) = true ∧
      MayBlock (waiting 2 0x12001000#32 [0#32])) ∧
    (Inv (waiting 4 0x40000000#32 [0#32]) ∧ held (waiting 4 0x40000000#32 [0#32]) = true) ∧
    (Inv (waiting 2 0x22001000#32 []) ∧ held (waiting 2 0x22001000#32 []) = true) :=
  ⟨⟨by decide, by decide, by decide⟩, ⟨by decide, by decide, by decide⟩, ⟨by decide, by decide⟩, by decide, by decide⟩

/-- `IrqgetCollectsTheHighestLine`: nothing pending, line 0 alone, line 31. -/
theorem witness_IrqgetCollectsTheHighestLine :
    (atFirst 4 []).disp.dstate = .exec 1 ∧ (atFirst 4 []).io.txq.length < (atFirst 4 []).env.params.txDepth ∧
    4 ≤ (atFirst 4 []).env.budget ∧ MayBlock (atFirst 4 []) ∧ (atFirst 4 []).vic.pending = 0#32 ∧
    MayBlock (withLines 1#32 1#32 (atFirst 4 [])) ∧ MayBlock (withLines 0x80000000#32 0x80000000#32 (atFirst 4 [])) := by
  decide

/-- `IrqmaskDisarmsAndDrops` and `IrqunmaskArms`. -/
theorem witness_IrqmaskDisarmsAndDrops :
    (withLines 0x80000001#32 0x80000001#32 (atFirst 3 [])).disp.dstate = .exec 1 ∧
    3 ≤ (withLines 0x80000001#32 0x80000001#32 (atFirst 3 [])).env.budget := by decide

theorem witness_IrqunmaskArms :
    (atFirst 3 []).disp.dstate = .exec 1 ∧ 3 ≤ (atFirst 3 []).env.budget := by decide

/-- The nine unknown modes with these fields. -/
def unknownModes (size : Size) (reg : BitVec 24) : List Instr :=
  [.unknownMode7 size reg, .unknownMode8 size reg, .unknownMode9 size reg, .unknownMode10 size reg,
    .unknownMode11 size reg, .unknownMode12 size reg, .unknownMode13 size reg, .unknownMode14 size reg,
    .unknownMode15 size reg]

/-- `UnknownModesDoNothing`: the first and the last of the nine, with no step left in the turn. -/
theorem witness_UnknownModesDoNothing :
    (atFirst 0 []).disp.dstate = .exec 1 ∧ Instr.unknownMode7 .byte 0#24 ∈ unknownModes .byte 0#24 ∧
    Instr.unknownMode15 (.other 15#4) 0xFFFFFF#24 ∈ unknownModes (.other 15#4) 0xFFFFFF#24 := by decide

/-- `UnknownModeWordsDoNothing`: the default codes with words of modes 7 and 15, other codes with mode 0. -/
theorem witness_UnknownModeWordsDoNothing :
    (polling [0xF2001000#32] []).fatal = false ∧ nextTurn (polling [0xF2001000#32] []) = .dispatcher (6 + 2) ∧
    nextTurn (popping [0xF2001000#32]) = .dispatcher (0 + 1) ∧ (popping [0xF2001000#32]).disp.dstate = .pop ∧
    (polling [0xF2001000#32] []).disp.dstate = .poll ∧ (polling [0xF2001000#32] []).io.rxq = [0xF2001000#32] ∧
    (codeList (polling [0xF2001000#32] []).env.params.modeCodes).Nodup ∧
    modeField 0xF2001000#32 ∉ codeList (polling [0xF2001000#32] []).env.params.modeCodes ∧
    modeField 0x70000000#32 ∉ codeList (polling [0x70000000#32] []).env.params.modeCodes ∧
    modeField 0x02001000#32 ∉ codeList otherCodes := by decide

/-- `PriorityEncoder`: the lowest and the highest bit. -/
theorem witness_PriorityEncoder : (1#32 : Word) ≠ 0#32 ∧ (0x80000000#32 : Word) ≠ 0#32 := by decide

/-- `GetPendingCollectsTheHighestLine`: nothing pending, and a state with each pending set of the examples. -/
theorem witness_GetPendingCollectsTheHighestLine :
    State.reset.vic.pending = 0#32 ∧ (∀ p : Word, (withLines p p State.reset).vic.pending = p) ∧
    (0xFFFFFFFF#32 : Word) ≠ 0#32 ∧ (1#32 : Word) ≠ 0#32 := ⟨rfl, fun _ => rfl, by decide, by decide⟩

/-- `LineTransitionTable`: a masked, an armed and a pending line; the pending one is the line collected. -/
theorem witness_LineTransitionTable :
    lineState State.reset.vic 0#5 = .masked ∧ lineState (withLines 1#32 0#32 State.reset).vic 0#5 = .armed ∧
    lineState (withLines 0x80000000#32 0x80000000#32 State.reset).vic 31#5 = .pending ∧
    (getPending (withLines 0x80000000#32 0x80000000#32 State.reset)).1 = (31#5 : Line).toNat ∧
    (getPending State.reset).1 ≠ (31#5 : Line).toNat := by decide

/-- A machine with line 31 armed whose handler comes next. -/
def aboutToFire : State := scheduled (.fire 31#5) (withLines 0x80000000#32 0#32 State.reset)

/-- `VicInvariantIsKept`, `OnlyFireMakesALinePending` and `SyncOnlyFromFire`: a step in which line 31 fires. -/
theorem witness_VicInvariantIsKept :
    vicInv aboutToFire.vic ∧ step aboutToFire = .next (after aboutToFire) := ⟨by decide, rfl⟩

theorem witness_OnlyFireMakesALinePending :
    step aboutToFire = .next (after aboutToFire) ∧ (after aboutToFire).vic.pending.getLsbD (31#5 : Line).toNat = true ∧
    aboutToFire.vic.pending.getLsbD (31#5 : Line).toNat = false := ⟨rfl, by decide, by decide⟩

theorem witness_SyncOnlyFromFire :
    step aboutToFire = .next (after aboutToFire) ∧
    step (scheduled .powerOn State.reset) = .next (after (scheduled .powerOn State.reset)) := ⟨rfl, rfl⟩

/-- `FireIsGated`: taken, not armed, and masked. -/
theorem witness_FireIsGated :
    (aboutToFire.fatal = false ∧ nextTurn aboutToFire = .fire 31#5 ∧
      aboutToFire.vic.armed.getLsbD (31#5 : Line).toNat = true ∧ aboutToFire.crit.imask = false) ∧
    (nextTurn (scheduled (.fire 0#5) State.reset) = .fire 0#5 ∧
      (scheduled (.fire 0#5) State.reset).vic.armed.getLsbD (0#5 : Line).toNat = false) ∧
    { aboutToFire with crit.imask := true }.crit.imask = true := by decide

/-- `LateFireMissesTheReply`: the start of V-D34. -/
theorem witness_LateFireMissesTheReply :
    (withLines 0x204#32 4#32 (atFirst 3 [])).disp.dstate = .exec 1 ∧
    (withLines 0x204#32 4#32 (atFirst 3 [])).env.budget = 3 ∧
    (withLines 0x204#32 4#32 (atFirst 3 [])).crit.imask = false ∧ (withLines 0x204#32 4#32 (atFirst 3 [])).fatal = false ∧
    (withLines 0x204#32 4#32 (atFirst 3 [])).io.txq.length < (withLines 0x204#32 4#32 (atFirst 3 [])).env.params.txDepth ∧
    (withLines 0x204#32 4#32 (atFirst 3 [])).vic.armed.getLsbD (9#5 : Line).toNat = true := by decide

/-- `VicResetClearsPendingOnly`. -/
theorem witness_VicResetClearsPendingOnly :
    (scheduled .vicReset State.reset).fatal = false ∧ nextTurn (scheduled .vicReset State.reset) = .vicReset := by decide

/-- `NestedCriticalSections`: vector V-C5, and two sections inside a third with the points in between. -/
theorem witness_NestedCriticalSections :
    nests 0 [true, true, false, false] = true ∧ nests 0 [true, true, false, true, false, false] = true ∧ nests 0 [] = true ∧
    [true, true, false, true, false, false] = [true, true, false] ++ [true, false, false] ∧
    [true, true, false].count false < [true, true, false].count true := by decide

/-- A backend about to run `hard_reset`. -/
def resetting : State := scheduled (.backend 5) { State.reset with blk.bstate := .hardReset 1 }

/-- `HardResetBuildsTheConfigSpace`, with the fewest steps it takes. -/
theorem witness_HardResetBuildsTheConfigSpace :
    resetting.fatal = false ∧ nextTurn resetting = .backend 5 ∧ 5 ≤ 5 ∧ resetting.blk.bstate = .hardReset 1 := by decide

/-- An idle backend asked for the byte at `off`. -/
def asked (off : Nat) (built : Bool) : State := scheduled (.configRead off) { State.reset with blk.cfgBuilt := built }

/-- `ConfigReadAnswersBytes`: the last byte in bounds and the first out of bounds, built and not. -/
theorem witness_ConfigReadAnswersBytes :
    ((asked 59 true).fatal = false ∧ nextTurn (asked 59 true) = .configRead 59 ∧ (asked 59 true).blk.bstate = .idle ∧
      (asked 59 true).blk.cfg.length = 60 ∧ (asked 59 true).blk.cfgBuilt = true) ∧
    (nextTurn (asked 60 false) = .configRead 60 ∧ 60 ≤ 60) ∧
    ((asked 59 false).blk.cfgBuilt = false ∧ 59 < 60 ∧ nextTurn (asked 59 false) = .configRead 59) := by decide

/-- A backend that looks at a descriptor of this length. -/
def looking (len : Word) : State :=
  scheduled (.backend 1)
    { State.reset with blk.bstate := .job .act, blk.desc := { ptr := 0#32, len := len } }

/-- `ViolationStopsTheBlock`: the lengths at the ends of the violating ranges. -/
theorem witness_ViolationStopsTheBlock :
    (looking 0#32).fatal = false ∧ nextTurn (looking 0#32) = .backend (0 + 1) ∧ (looking 0#32).blk.bstate = .job .act ∧
    classify (looking 0#32).env.params.statusLen (looking 0#32).blk.desc.len = .violation ∧
    classify .mod512 2#32 = .violation ∧ classify .mod512 511#32 = .violation ∧
    classify .mod512 0xFFFFFFFF#32 = .violation ∧ classify .exact1 513#32 = .violation ∧
    { State.reset with fatal := true }.fatal = true ∧ { State.reset with fatal := true }.env.agenda = [] := by decide

/-- A request about to run on a chain of one sector and a status descriptor, with steps enough for any chain of two. -/
def oneSectorRequest : State := { atHeader inHeader oneSector [0] [] with env.budget := 12 }

/-- `BlkInCopiesSectors` and `BlkOutWritesSectors`. -/
theorem witness_BlkInCopiesSectors :
    oneSectorRequest.blk.job.rest = [{ ptr := 0x20001000#32, len := 512#32 }, { ptr := 0x20003000#32, len := 1#32 }] ∧
    classify oneSectorRequest.env.params.statusLen 512#32 = .data ∧
    classify oneSectorRequest.env.params.statusLen 1#32 = .status ∧ nextStatus oneSectorRequest = 0 ∧
    oneSectorRequest.fatal = false ∧ 11 ≤ oneSectorRequest.env.budget ∧ oneSectorRequest.mem.wf := by decide

theorem witness_BlkOutWritesSectors :
    oneSectorRequest.blk.job.rest = [{ ptr := 0x20001000#32, len := 512#32 }, { ptr := 0x20003000#32, len := 1#32 }] ∧
    classify oneSectorRequest.env.params.statusLen 512#32 = .data ∧
    classify oneSectorRequest.env.params.statusLen 1#32 = .status ∧ nextStatus oneSectorRequest = 0 ∧
    oneSectorRequest.fatal = false ∧ 11 ≤ oneSectorRequest.env.budget ∧ oneSectorRequest.mem.wf ∧
    oneSectorRequest.disk.wf := by decide

/-- The same request, whose storage call fails. -/
def failingRequest : State := { oneSectorRequest with env.statuses := [1] }

/-- `FailedBlkInIsReportedInTheStatusByte` and `FailedBlkOutIsReportedInTheStatusByte`. -/
theorem witness_FailedBlkInIsReportedInTheStatusByte :
    failingRequest.blk.job.rest = [{ ptr := 0x20001000#32, len := 512#32 }, { ptr := 0x20003000#32, len := 1#32 }] ∧
    classify failingRequest.env.params.statusLen 512#32 = .data ∧
    classify failingRequest.env.params.statusLen 1#32 = .status ∧ nextStatus failingRequest ≠ 0 ∧
    failingRequest.fatal = false ∧ 11 ≤ failingRequest.env.budget ∧ failingRequest.mem.wf := by decide

theorem witness_FailedBlkOutIsReportedInTheStatusByte :
    failingRequest.blk.job.rest = [{ ptr := 0x20001000#32, len := 512#32 }, { ptr := 0x20003000#32, len := 1#32 }] ∧
    classify failingRequest.env.params.statusLen 512#32 = .data ∧
    classify failingRequest.env.params.statusLen 1#32 = .status ∧ nextStatus failingRequest ≠ 0 ∧
    failingRequest.fatal = false ∧ 11 ≤ failingRequest.env.budget ∧ failingRequest.mem.wf := by decide

/-- `ScatterGatherAccounting`: the longest data descriptor, a status descriptor before it (V-B13), and an empty chain. -/
theorem witness_ScatterGatherAccounting :
    (oneSectorRequest.fatal = false ∧
      NoViolation oneSectorRequest.env.params.statusLen oneSectorRequest.blk.job.rest ∧
      4 * oneSectorRequest.blk.job.rest.length + 4 ≤ oneSectorRequest.env.budget) ∧
    NoViolation .mod512 [{ ptr := 0#32, len := 1#32 }, { ptr := 0#32, len := 0xFFFFFE00#32 }] ∧ NoViolation .exact1 [] ∧
    (2#32 : Word) ≠ 0#32 ∧ (2#32 : Word) ≠ 1#32 ∧ oneSectorRequest.env.params.unknownType = .literal := by decide

/-- `OtherTypesTransferNothing`: the type of V-E21 and the largest. -/
theorem witness_OtherTypesTransferNothing :
    (0x100#32 : Word) ≠ 0#32 ∧ (0x100#32 : Word) ≠ 1#32 ∧ (0xFFFFFFFF#32 : Word) ≠ 1#32 ∧ oneSectorRequest.fatal = false ∧
    oneSectorRequest.env.params.unknownType = .literal ∧
    NoViolation oneSectorRequest.env.params.statusLen oneSectorRequest.blk.job.rest ∧
    4 * oneSectorRequest.blk.job.rest.length + 4 ≤ oneSectorRequest.env.budget ∧ oneSectorRequest.mem.wf := by decide

/-- A backend about to fetch on queue 1, with jobs posted on these queues. -/
def fetching (queues : List Nat) : State :=
  scheduled (.backend 1)
    { State.reset with
        blk.bstate := .job .fetch
        blk.queue := 1
        env.posted := queues.map fun q => { resetJob with queue := q } }

/-- `FetchTakesTheFirstJob`: a job behind another queue's, and none of the queue. -/
theorem witness_FetchTakesTheFirstJob :
    ((fetching [0, 1, 1]).fatal = false ∧ nextTurn (fetching [0, 1, 1]) = .backend (0 + 1) ∧
      (fetching [0, 1, 1]).blk.bstate = .job .fetch ∧
      (fetching [0, 1, 1]).env.posted =
        [{ resetJob with queue := 0 }] ++ { resetJob with queue := 1 } :: [{ resetJob with queue := 1 }] ∧
      (∀ a ∈ [{ resetJob with queue := 0 }], a.queue ≠ (fetching [0, 1, 1]).blk.queue)) ∧
    (∀ a ∈ (fetching [0, 2]).env.posted, a.queue ≠ (fetching [0, 2]).blk.queue) := by decide

/-- `FatalOnlyFromAViolation`: a step that sets the flag. -/
theorem witness_FatalOnlyFromAViolation :
    step (looking 0#32) = .next (after (looking 0#32)) ∧ (looking 0#32).fatal = false ∧ (after (looking 0#32)).fatal = true :=
  ⟨rfl, rfl, by decide⟩

/-- `CommandsRaiseNoFault`. -/
theorem witness_CommandsRaiseNoFault :
    (Instr.write .word 0#24).format = .cmd ∧ exec (.irqget .byte 0#24) (atFirst 4 []) =
      .next (stateOf (exec (.irqget .byte 0#24) (atFirst 4 []))) := ⟨rfl, rfl⟩

/-- A machine that has stopped. -/
def stopped : State := { State.reset with fatal := true }

/-- `EndsOfARun`: a quiescent machine, one that holds, one with a call of the backend scheduled. -/
theorem witness_EndsOfARun :
    (Quiescent State.reset ∧ State.reset.env.agenda = [] ∧ State.reset.io.signal = false) ∧
    Holding (waiting 1 0x02001000#32 []) ∧
    (.configRead 59 ∈ (scheduled (.configRead 59) State.reset).env.agenda ∧
      .hardReset ∈ (scheduled .hardReset State.reset).env.agenda ∧
      .processQueue 1 ∈ (scheduled (.processQueue 1) State.reset).env.agenda) := by decide

/-- `FatalIsTerminal`: stopped for good, and with a power-on next. -/
theorem witness_FatalIsTerminal :
    stopped.fatal = true ∧ step stopped = .fault .descLenViolation ∧
    step (scheduled .powerOn stopped) = .next (after (scheduled .powerOn stopped)) := ⟨rfl, rfl, rfl⟩

/-- `StepKeepsTheInvariant` and `StepKeepsTheParameters`: a step of each thread-context agent from a state that meets
the invariant. -/
theorem witness_StepKeepsTheInvariant :
    (Inv aboutToFire ∧ step aboutToFire = .next (after aboutToFire)) ∧
    (Inv (atHeader inHeader [] [] []) ∧ step (atHeader inHeader [] [] []) = .next (after (atHeader inHeader [] [] []))) :=
  ⟨⟨by decide, rfl⟩, by decide, rfl⟩

theorem witness_StepKeepsTheParameters : step State.reset = .next (after State.reset) := rfl

/-- `AgentsTouchDisjointState`: a step of each. -/
theorem witness_AgentsTouchDisjointState :
    (resetting.fatal = false ∧ step resetting = .next (after resetting) ∧ nextTurn resetting = .backend 5) ∧
    ((polling [0x40000000#32] []).fatal = false ∧
      step (polling [0x40000000#32] []) = .next (after (polling [0x40000000#32] [])) ∧
      nextTurn (polling [0x40000000#32] []) = .dispatcher 8) := ⟨⟨rfl, rfl, rfl⟩, rfl, rfl, rfl⟩

end Sys2Proof.Tests
end

section
/-! PROOFS. The bus address of a command (R83): the sum does not carry, so it is a concatenation. -/

namespace Sys2Proof.Machine

/-- No carry leaves the sum: a 24-bit field above `0x10000000` stays below `2^32` (R83). -/
theorem periphAddr_toNat (reg : BitVec 24) : (periphAddr reg).toNat = 0x10000000 + reg.toNat := by
  have hfield : reg.toNat < 2 ^ 24 := reg.isLt
  have hzext : (reg.setWidth 32).toNat = reg.toNat := BitVec.toNat_setWidth_of_le (by decide)
  have hsum : 0x10000000 + reg.toNat < 2 ^ 32 := by omega
  calc (periphAddr reg).toNat
      = (0x10000000 + (reg.setWidth 32).toNat) % 2 ^ 32 := BitVec.toNat_add _ _
    _ = 0x10000000 + reg.toNat := by rw [hzext, Nat.mod_eq_of_lt hsum]

/-- The base's low 24 bits are zero, so its sum with the field only puts the two side by side (R83). -/
theorem periphAddr_eq_append (reg : BitVec 24) : periphAddr reg = 0x10#8 ++ reg := by
  apply BitVec.eq_of_toNat_eq
  calc (periphAddr reg).toNat
      = 0x10 <<< 24 + reg.toNat := periphAddr_toNat reg
    _ = 0x10 <<< 24 ||| reg.toNat := Nat.shiftLeft_add_eq_or_of_lt reg.isLt 0x10
    _ = (0x10#8 ++ reg).toNat := (BitVec.toNat_append 0x10#8 reg).symm

/-- Settles O6: the sum has no carry, which makes it the concatenation; the rule's example is evaluated. -/
theorem addressAssembly : Obligations.AddressAssembly :=
  ⟨fun reg => ⟨rfl, periphAddr_eq_append reg, periphAddr_toNat reg⟩, rfl⟩

end Sys2Proof.Machine
end

section
/-! PROOFS. The critical section (R100, R101): each operation as one equation of the whole state. -/

namespace Sys2Proof.Machine

/-- The token is read before the bit is set, and the bit is all that is written (R100). -/
theorem enter_eq (s : State) : enter s = (s.crit.imask, { s with crit.imask := true }) :=
  Prod.ext (enter_token s) (enter_state s)

/-- The token goes to the bit of the current state: no saved copy of the status is written back (R101). -/
theorem leave_eq (token : Bool) (s : State) : leave token s = { s with crit.imask := token } := rfl

/-- The status bits other than `I` keep their current value (R101). -/
theorem leave_crit_statusOther (token : Bool) (s : State) :
    (leave token s).crit.statusOther = s.crit.statusOther := by
  rw [leave_crit]

/-- Settles O35, from the two equations; the status bits' frame follows from what `leave` makes of the register. -/
theorem enterAndLeave : Obligations.EnterAndLeave :=
  fun s token => ⟨enter_eq s, leave_eq token s, leave_crit_statusOther token s⟩

end Sys2Proof.Machine
end

section
/-! PROOFS. `get_pending` of the virtual interrupt controller (R113): the line collected and the one bit cleared. -/

namespace Sys2Proof.Machine

/-- Of the bits that name a line, `lineBit L` has the bit of `L` and no other. -/
theorem lineBit_getLsbD (L i : Line) : (lineBit L).getLsbD i.toNat = decide (i = L) := by
  have hlt : L.toNat < 32 := L.isLt
  have hline : L.toNat = i.toNat ↔ i = L := eq_comm.trans BitVec.toNat_inj
  calc (lineBit L).getLsbD i.toNat
      = (BitVec.twoPow 32 L.toNat).getLsbD i.toNat := by rw [BitVec.twoPow_eq]; rfl
    _ = decide (i = L) := by simp [BitVec.getLsbD_twoPow, hlt, hline]

/-- Masking with the complement of `lineBit L` clears the bit of `L` and leaves the other lines' bits. -/
theorem getLsbD_and_not_lineBit (p : Word) (L i : Line) :
    (p &&& ~~~lineBit L).getLsbD i.toNat = (p.getLsbD i.toNat && decide (i ≠ L)) := by
  have hi : i.toNat < 32 := i.isLt
  rw [BitVec.getLsbD_and, BitVec.getLsbD_not, lineBit_getLsbD, decide_eq_true hi, Bool.true_and, decide_not]

/-- The encoder in terms of lines: some line is pending, and the answer is the highest of them. -/
theorem prio_eq_line_of_ne_zero {p : Word} (hp : p ≠ 0#32) :
    ∃ L : Line, prio p = L.toNat ∧ p.getLsbD L.toNat = true ∧
      ∀ i : Line, L.toNat < i.toNat → p.getLsbD i.toNat = false := by
  obtain ⟨hzero, -⟩ | ⟨hlt, hset, habove⟩ := prio_cases p
  · exact absurd hzero hp
  · have hL : prio p = (BitVec.ofNatLT (prio p) hlt : Line).toNat := rfl
    exact ⟨BitVec.ofNatLT (prio p) hlt, hL, hset, fun i => habove i.toNat⟩

/-- The sentinel 32 comes with the state unchanged (R113). -/
theorem getPending_of_none {s : State} (hp : s.vic.pending = 0#32) : getPending s = (32, s) := by
  have hprio : prio s.vic.pending = 32 := by rw [hp]; rfl
  simp [getPending, hprio]

/-- A line is returned together with the state whose `PENDING` lacks its bit (R113): one equation of the whole
state, for no line number is the sentinel. -/
theorem getPending_of_line {s : State} {L : Line} (hL : prio s.vic.pending = L.toNat) :
    getPending s = (L.toNat, { s with vic.pending := s.vic.pending &&& ~~~lineBit L }) := by
  have hne : L.toNat ≠ 32 := Nat.ne_of_lt L.isLt
  simp [getPending, hL, hne, lineBit]

/-- The line collected from a given `PENDING` and what is left of it. -/
theorem getPending_of_pending {s : State} {p : Word} (hp : s.vic.pending = p) (L : Line) (hL : prio p = L.toNat) :
    (getPending s).1 = L.toNat ∧ (getPending s).2.vic.pending = p &&& ~~~lineBit L := by
  subst hp
  rw [getPending_of_line hL]
  exact ⟨rfl, rfl⟩

/-- Settles O26: the encoder's line, or none, decides which of the two equations of `get_pending` holds; the examples
evaluate the encoder on their words. -/
theorem getPendingCollectsTheHighestLine : Obligations.GetPendingCollectsTheHighestLine := by
  refine ⟨fun s => getPending_of_none, fun s hp => ?_, fun s => ?examples⟩
  · obtain ⟨L, hL, hset, habove⟩ := prio_eq_line_of_ne_zero hp
    rw [getPending_of_line hL]
    exact ⟨L, hset, habove, rfl, getLsbD_and_not_lineBit s.vic.pending L, rfl⟩
  case examples =>
    exact ⟨fun h => getPending_of_pending h 31#5 rfl, fun h => getPending_of_pending h 0#5 rfl,
      fun h => getPending_of_pending h 9#5 rfl, fun h => getPending_of_pending h 5#5 rfl,
      fun h => getPending_of_pending h 2#5 rfl⟩

end Sys2Proof.Machine
end

section
/-! PROOFS. A command word of an unknown mode (R81, R88, R144): under any injective mode codes the decoder answers one
of the nine unknown modes, whose run takes no step. -/

namespace Sys2Proof.Machine

/-! ### The mode values that are no mode's code -/

/-- The mode values below `m` that are no mode's code, in rising order (R81). -/
def unassignedValuesBelow (c : Config.ModeCodes) (m : BitVec 4) : List (BitVec 4) :=
  ((List.range m.toNat).filter fun v => !(codeList c).contains (BitVec.ofNat 4 v)).map (BitVec.ofNat 4)

theorem unassignedValuesBelow_length (c : Config.ModeCodes) (m : BitVec 4) :
    (unassignedValuesBelow c m).length = unassignedBelow c m := List.length_map _

theorem mem_unassignedValuesBelow {c : Config.ModeCodes} {m v : BitVec 4} :
    v ∈ unassignedValuesBelow c m ↔ v.toNat < m.toNat ∧ v ∉ codeList c := by
  simp only [unassignedValuesBelow, List.mem_map, List.mem_filter, List.mem_range, Bool.not_eq_true',
    List.contains_eq_mem, decide_eq_false_iff_not]
  constructor
  · rintro ⟨k, ⟨hlt, hk⟩, rfl⟩
    have hsmall : k < 2 ^ 4 := hlt.trans m.isLt
    rw [BitVec.toNat_ofNat, Nat.mod_eq_of_lt hsmall]
    exact ⟨hlt, hk⟩
  · rintro ⟨hlt, hv⟩
    exact ⟨v.toNat, ⟨hlt, by simpa using hv⟩, by simp⟩

theorem unassignedValuesBelow_nodup (c : Config.ModeCodes) (m : BitVec 4) : (unassignedValuesBelow c m).Nodup := by
  refine List.Nodup.map_on (fun i hi j hj hij => ?_) (List.nodup_range.filter _)
  have hi : i < m.toNat := List.mem_range.1 (List.mem_of_mem_filter hi)
  have hj : j < m.toNat := List.mem_range.1 (List.mem_of_mem_filter hj)
  have hm : m.toNat < 2 ^ 4 := m.isLt
  have hmod : i % 2 ^ 4 = j % 2 ^ 4 := by simpa using congrArg BitVec.toNat hij
  omega

/-- Sixteen mode values hold seven different codes, `m` itself and the unassigned values below it, so that those number
at most eight: the nine unknown rows of the default table suffice. -/
theorem unassignedBelow_le {c : Config.ModeCodes} {m : BitVec 4} (hc : (codeList c).Nodup) (hm : m ∉ codeList c) :
    unassignedBelow c m ≤ 8 := by
  have hdisjoint : List.Disjoint (unassignedValuesBelow c m) (m :: codeList c) := by
    intro v hv hmem
    obtain ⟨hlt, hcode⟩ := mem_unassignedValuesBelow.1 hv
    rcases List.mem_cons.1 hmem with rfl | hin
    · exact lt_irrefl _ hlt
    · exact hcode hin
  have hnodup : (unassignedValuesBelow c m ++ m :: codeList c).Nodup :=
    (unassignedValuesBelow_nodup c m).append (hc.cons hm) hdisjoint
  have hcard : (unassignedValuesBelow c m ++ m :: codeList c).length ≤ 16 := hnodup.length_le_card
  have hlength : (codeList c).length = 7 := rfl
  rw [List.length_append, List.length_cons, unassignedValuesBelow_length, hlength] at hcard
  omega

/-- An unassigned value takes one of the default table's unknown codes 7 to 15 (R81, R88). -/
theorem seven_le_defaultCodeOf {c : Config.ModeCodes} {m : BitVec 4} (hc : (codeList c).Nodup) (hm : m ∉ codeList c) :
    7 ≤ (defaultCodeOf c m).toNat := by
  have hle : unassignedBelow c m ≤ 8 := unassignedBelow_le hc hm
  have hcode : defaultCodeOf c m = BitVec.ofNat 4 (7 + unassignedBelow c m) := by
    rw [defaultCodeOf, List.idxOf?_eq_none_iff.2 hm]
  rw [hcode, BitVec.toNat_ofNat]
  omega

/-! ### Decoding -/

@[simp] theorem modeField_append (mode size : BitVec 4) (reg : BitVec 24) : modeField (mode ++ (size ++ reg)) = mode :=
  BitVec.extractLsb'_append_eq_left

@[simp] theorem sizeField_append (mode size : BitVec 4) (reg : BitVec 24) : sizeField (mode ++ (size ++ reg)) = size :=
  (BitVec.extractLsb'_append_eq_of_add_le (by decide)).trans BitVec.extractLsb'_append_eq_left

@[simp] theorem regField_append (mode size : BitVec 4) (reg : BitVec 24) : regField (mode ++ (size ++ reg)) = reg :=
  (BitVec.extractLsb'_append_eq_of_add_le (by decide)).trans BitVec.extractLsb'_append_eq_right

/-- The nine unknown modes with these fields (R88). -/
def unknownCommands (size : Size) (reg : BitVec 24) : List Instr :=
  [.unknownMode7 size reg, .unknownMode8 size reg, .unknownMode9 size reg, .unknownMode10 size reg,
    .unknownMode11 size reg, .unknownMode12 size reg, .unknownMode13 size reg, .unknownMode14 size reg,
    .unknownMode15 size reg]

/-- A mode value of 7 or more decodes to an unknown mode of the default table (R88). -/
theorem decodeCommand_mem_unknownCommands {w : Word} (hw : 7 ≤ (modeField w).toNat) :
    decodeCommand w ∈ unknownCommands (sizeOfCode (sizeField w)) (regField w) := by
  have hlt : (modeField w).toNat < 16 := (modeField w).isLt
  unfold decodeCommand unknownCommands
  interval_cases (modeField w).toNat <;> simp

/-- Under any injective mode codes, a mode that is none of them is an unknown mode, with the word's own fields. -/
theorem decodeCommandUnder_mem_unknownCommands {c : Config.ModeCodes} {w : Word} (hc : (codeList c).Nodup)
    (hw : modeField w ∉ codeList c) :
    decodeCommandUnder c w ∈ unknownCommands (sizeOfCode (sizeField w)) (regField w) := by
  have hmode : 7 ≤ (modeField (defaultCodeOf c (modeField w) ++ (sizeField w ++ regField w))).toNat := by
    rw [modeField_append]
    exact seven_le_defaultCodeOf hc hw
  simpa only [decodeCommandUnder, sizeField_append, regField_append] using decodeCommand_mem_unknownCommands hmode

/-- Each of the nine runs a command of no steps (R144). -/
theorem exec_unknownCommand {size : Size} {reg : BitVec 24} {i : Instr} (hi : i ∈ unknownCommands size reg)
    (s : State) :
    exec i s = .next { s with disp := { s.disp with dstate := .poll, addr := periphAddr reg } } := by
  have hrun : exec i s = runCommand [] (latchAddr reg s) := by
    simp only [unknownCommands, List.mem_cons, List.not_mem_nil, or_false] at hi
    rcases hi with rfl | rfl | rfl | rfl | rfl | rfl | rfl | rfl | rfl <;> rfl
  rw [hrun, runCommand_nil]
  rfl

/-! ### The dispatcher's turn at a waiting word (R130) -/

/-- A machine that has not stopped gives the dispatcher its turn. -/
theorem step_of_dispatcher {s : State} {n : Nat} (hf : s.fatal = false) (ht : nextTurn s = .dispatcher n) :
    step s = dispatcherTurn n (turnTaken s) := by
  simp [step, hf, ht, takeTurn]

theorem dispatcherTurn_of_pop {s : State} {w : Word} {ws : List Word} (hd : s.disp.dstate = .pop)
    (hr : s.io.rxq = w :: ws) (n : Nat) :
    dispatcherTurn (n + 1) s = exec (decodeCommandUnder s.env.params.modeCodes w) (popCommand w ws n s) := by
  simp [dispatcherTurn, popTurn, hd, hr]

/-- The test of the queue takes one step of the turn and leaves no trace once the word is popped. -/
theorem dispatcherTurn_of_poll {s : State} {w : Word} {ws : List Word} (hd : s.disp.dstate = .poll)
    (hr : s.io.rxq = w :: ws) (n : Nat) :
    dispatcherTurn (n + 2) s = exec (decodeCommandUnder s.env.params.modeCodes w) (popCommand w ws n s) := by
  simp [dispatcherTurn, popTurn, hd, hr, popCommand]

/-- Settles O25: from the test or from the pop the step is the run of the decoded word, which is an unknown mode. -/
theorem unknownModeWordsDoNothing : Obligations.UnknownModeWordsDoNothing := by
  intro s n w ws hf hturn hr hc hw
  have hpop : step s = exec (decodeCommandUnder s.env.params.modeCodes w) (popCommand w ws n (turnTaken s)) := by
    rcases hturn with ⟨ht, hd⟩ | ⟨ht, hd⟩
    · exact (step_of_dispatcher hf ht).trans (dispatcherTurn_of_poll (s := turnTaken s) hd hr n)
    · exact (step_of_dispatcher hf ht).trans (dispatcherTurn_of_pop (s := turnTaken s) hd hr n)
  rw [hpop, exec_unknownCommand (decodeCommandUnder_mem_unknownCommands hc hw)]
  rfl

end Sys2Proof.Machine
end

section
/-! PROOFS. The class of a descriptor by its length (R155, R162) and the sector count (R156): each class is a condition
on the remainder of the length modulo 512, which is its low nine bits. -/

namespace Sys2Proof.Machine

/-- The low nine bits of a length are its remainder modulo 512. -/
theorem extractLsb'_zero_nine_eq_iff (len : Word) (v : BitVec 9) :
    len.extractLsb' 0 9 = v ↔ len.toNat % 512 = v.toNat := by
  rw [BitVec.toNat_eq, BitVec.extractLsb'_toNat, Nat.shiftRight_zero]

/-- The model tests a length as a number, the statements as a word. -/
theorem toNat_ne_zero_iff (len : Word) : len.toNat ≠ 0 ↔ len ≠ 0#32 := BitVec.toNat_ne_iff_ne (y := 0#32)

/-- The three classes in the order of the tests of R155. -/
theorem classify_mod512_eq (len : Word) :
    classify .mod512 len =
      if len ≠ 0#32 ∧ len.toNat % 512 = 0 then .data else if len.toNat % 512 = 1 then .status else .violation := by
  simp only [classify, toNat_ne_zero_iff]

/-- The first test alone decides the data class, under either reading of the status length. -/
theorem classify_eq_data_iff (rule : Config.StatusLenRule) (len : Word) :
    classify rule len = .data ↔ len ≠ 0#32 ∧ len.toNat % 512 = 0 := by
  rw [← toNat_ne_zero_iff]
  by_cases hdata : len.toNat ≠ 0 ∧ len.toNat % 512 = 0
  · simp [classify, hdata]
  · simp only [classify, hdata, if_false, iff_false]
    cases rule <;> dsimp only <;> split_ifs <;> simp

/-- A remainder of 1 fails the test of the data class, so the order of the tests does not matter. -/
theorem classify_mod512_eq_status_iff (len : Word) : classify .mod512 len = .status ↔ len.toNat % 512 = 1 := by
  by_cases hone : len.toNat % 512 = 1
  · simp [classify, hone]
  · simp only [classify, hone, if_false, iff_false]
    split_ifs <;> simp

theorem classify_exact1_eq_status_iff (len : Word) : classify .exact1 len = .status ↔ len = 1#32 := by
  have hlen : len = 1#32 ↔ len.toNat = 1 := BitVec.toNat_eq
  rw [hlen]
  by_cases hone : len.toNat = 1
  · simp [classify, hone]
  · simp only [classify, hone, if_false, iff_false]
    split_ifs <;> simp

/-- A length is a violation exactly when it is of neither of the other two classes. -/
theorem classify_mod512_eq_violation_iff (len : Word) :
    classify .mod512 len = .violation ↔ len = 0#32 ∨ 2 ≤ len.toNat % 512 := by
  have hneither : classify .mod512 len = .violation ↔
      ¬ classify .mod512 len = .data ∧ ¬ classify .mod512 len = .status := by
    cases classify .mod512 len <;> simp
  rw [hneither, classify_eq_data_iff, classify_mod512_eq_status_iff]
  by_cases hzero : len = 0#32
  · simp [hzero]
  · simp only [hzero, ne_eq, not_false_eq_true, true_and, false_or]
    omega

/-- A data length is a whole number of sectors (R156), and 32 bits hold at most 2^23 - 1 of them. -/
theorem sectorCount_of_data {rule : Config.StatusLenRule} {len : Word} (h : classify rule len = .data) :
    sectorCount len * 512 = len.toNat ∧ 1 ≤ sectorCount len ∧ sectorCount len ≤ 0x7FFFFF := by
  obtain ⟨hne, hmod⟩ := (classify_eq_data_iff rule len).1 h
  have hpos : len.toNat ≠ 0 := (toNat_ne_zero_iff len).2 hne
  have hlt : len.toNat < 2 ^ 32 := len.isLt
  unfold sectorCount
  omega

theorem ofNat_sectorCount (len : Word) : BitVec.ofNat 32 (sectorCount len) = len >>> 9 := by
  have hlt : len.toNat < 2 ^ 32 := len.isLt
  apply BitVec.eq_of_toNat_eq
  rw [BitVec.toNat_ofNat, BitVec.toNat_ushiftRight, Nat.shiftRight_eq_div_pow, sectorCount]
  omega

/-- Settles O39: every class is a condition on the remainder modulo 512, which is then read as the low nine bits. -/
theorem descriptorLengthClasses : Obligations.DescriptorLengthClasses := by
  refine ⟨classify_mod512_eq, fun rule len => ⟨?_, fun h => ?_⟩, fun len => ?_, classify_exact1_eq_status_iff,
    fun rule => ⟨rfl, rfl⟩⟩
  · rw [extractLsb'_zero_nine_eq_iff]
    exact classify_eq_data_iff rule len
  · obtain ⟨hexact, hpos, hle⟩ := sectorCount_of_data h
    exact ⟨hexact, hpos, hle, ofNat_sectorCount len⟩
  · rw [extractLsb'_zero_nine_eq_iff]
    exact classify_mod512_eq_status_iff len

end Sys2Proof.Machine
end

section
/-! PROOFS. The stop at a descriptor of a violating length (R163, R36): the backend's step raises the flag and nothing
else, the rest of its turn has no step, and nor has any agent after it. -/

namespace Sys2Proof.Machine

/-- A machine that has not stopped gives the backend its turn. -/
theorem step_of_backend {s : State} {n : Nat} (hf : s.fatal = false) (ht : nextTurn s = .backend n) :
    step s = backendTurn n (turnTaken s) := by
  simp [step, hf, ht, takeTurn]

theorem backendTurn_of_act {s : State} (hb : s.blk.bstate = .job .act) (n : Nat) :
    backendTurn (n + 1) s = .next (runJob (n + 1) s) := by
  simp [backendTurn, hb]

theorem jobStep_of_fatal {s : State} (hf : s.fatal = true) : jobStep s = s := by
  simp [jobStep, hf]

/-- A stopped request takes no step of the turn left to it. -/
theorem runJob_of_fatal {s : State} (hf : s.fatal = true) (n : Nat) : runJob n s = s := by
  induction n with
  | zero => rfl
  | succ n ih => rw [runJob, jobStep_of_fatal hf, ih]

theorem jobStep_of_violation {s : State} (hf : s.fatal = false) (hb : s.blk.bstate = .job .act)
    (hc : classify s.env.params.statusLen s.blk.desc.len = .violation) : jobStep s = raiseFatal s := by
  simp [jobStep, hf, hb, actStep, hc]

/-- A turn that begins at a violation is that one step, however many atomic steps the schedule gives it. -/
theorem runJob_of_violation {s : State} (hf : s.fatal = false) (hb : s.blk.bstate = .job .act)
    (hc : classify s.env.params.statusLen s.blk.desc.len = .violation) (n : Nat) :
    runJob (n + 1) s = raiseFatal s := by
  rw [runJob, jobStep_of_violation hf hb hc, runJob_of_fatal (raiseFatal_fatal s)]

/-- With the flag set only a power-on has a step (R36, R210). -/
theorem step_of_fatal {s : State} (hf : s.fatal = true) (hp : ∀ ts, s.env.agenda ≠ .powerOn :: ts) :
    step s = .fault .descLenViolation := by
  rw [step, if_pos hf, fatalStep]
  split
  next ts hts => exact absurd hts (hp ts)
  next => rfl

/-- Settles O40: the first step of the turn raises the flag, and with the flag raised neither the rest of the turn nor
a later step does anything. -/
theorem violationStopsTheBlock : Obligations.ViolationStopsTheBlock := by
  refine ⟨classify_mod512_eq_violation_iff, fun s n hf ht hb hc => ?_, fun s => step_of_fatal⟩
  calc step s = backendTurn (n + 1) (turnTaken s) := step_of_backend hf ht
    _ = .next (runJob (n + 1) (turnTaken s)) := backendTurn_of_act (s := turnTaken s) hb n
    _ = .next (raiseFatal (turnTaken s)) := by rw [runJob_of_violation (s := turnTaken s) hf hb hc]

end Sys2Proof.Machine
end

section
/-! PROOFS. The two encodings (R80 to R99): the fields of a command word, the command each mode code selects, and the
round trips of commands and of request headers. -/

namespace Sys2Proof.Machine

/-! ### Fields (R80, R91) -/

/-- The OR of the shifted fields is their concatenation: no two of them share a bit. -/
theorem encodeFields_eq_or (mode size : BitVec 4) (reg : BitVec 24) :
    encodeFields mode size reg = (mode.setWidth 32 <<< 28) ||| (size.setWidth 32 <<< 24) ||| reg.setWidth 32 := by
  apply BitVec.eq_of_getLsbD_eq
  intro i hi
  simp only [encodeFields, BitVec.getLsbD_append, BitVec.getLsbD_or, BitVec.getLsbD_shiftLeft,
    BitVec.getLsbD_setWidth]
  by_cases hreg : i < 24
  · simp [hreg, hi, show i < 28 by omega]
  · by_cases hsize : i < 28
    · have hbit : reg.getLsbD i = false := BitVec.getLsbD_of_ge _ _ (by omega)
      simp [hreg, hsize, hi, hbit, show i - 24 < 32 by omega]
    · have hbit : reg.getLsbD i = false := BitVec.getLsbD_of_ge _ _ (by omega)
      have hsizebit : size.getLsbD (i - 24) = false := BitVec.getLsbD_of_ge _ _ (by omega)
      simp [hreg, hsize, hi, hbit, hsizebit, show i - 28 < 32 by omega]

/-- A word is the concatenation of its fields. -/
theorem encodeFields_fields (w : Word) : encodeFields (modeField w) (sizeField w) (regField w) = w := by
  have hlow : sizeField w ++ regField w = w.extractLsb' 0 28 :=
    BitVec.extractLsb'_append_extractLsb'_eq_extractLsb' (start₁ := 0) rfl
  have hword : modeField w ++ w.extractLsb' 0 28 = w.extractLsb' 0 32 :=
    BitVec.extractLsb'_append_extractLsb'_eq_extractLsb' (start₁ := 0) rfl
  calc encodeFields (modeField w) (sizeField w) (regField w)
      = modeField w ++ w.extractLsb' 0 28 := by rw [encodeFields, hlow]
    _ = w.extractLsb' 0 32 := hword
    _ = w := BitVec.extractLsb'_eq_self

/-- Settles O1: the fields of a concatenation are its parts, and the parts of a word make it up. -/
theorem fieldsTileTheWord : Obligations.FieldsTileTheWord :=
  ⟨fun mode size reg => ⟨modeField_append mode size reg, sizeField_append mode size reg, regField_append mode size reg,
    encodeFields_eq_or mode size reg⟩, encodeFields_fields⟩

/-- Settles O7: the low five bits are the remainder modulo 32. -/
theorem lineNumberAssembly : Obligations.LineNumberAssembly := by
  refine ⟨fun reg => ⟨?_, (lineOf reg).isLt⟩, rfl⟩
  have hmod : (lineOf reg).toNat = reg.toNat % 2 ^ 5 := by
    rw [lineOf, BitVec.extractLsb'_toNat, Nat.shiftRight_zero]
  have hmask : (reg &&& 0x1F#24).toNat = reg.toNat &&& (2 ^ 5 - 1) := BitVec.toNat_and _ _
  rw [hmod, hmask, Nat.and_two_pow_sub_one_eq_mod]

/-! ### Width codes (R82, R89) -/

theorem sizeOfCode_codeOfSize {size : Size} (h : size.wellFormed = true) : sizeOfCode (codeOfSize size) = size := by
  cases size with
  | byte => rfl
  | half => rfl
  | word => rfl
  | other code =>
    have hcode : 3 ≤ code.toNat := by simpa [Size.wellFormed] using h
    have h0 : code ≠ 0#4 := by rintro rfl; simp at hcode
    have h1 : code ≠ 1#4 := by rintro rfl; simp at hcode
    have h2 : code ≠ 2#4 := by rintro rfl; simp at hcode
    simp [sizeOfCode, codeOfSize, h0, h1, h2]

/-- Every code names a width, and the width keeps the code. -/
theorem sizeOfCode_spec (code : BitVec 4) :
    (sizeOfCode code).wellFormed = true ∧ codeOfSize (sizeOfCode code) = code := by
  revert code; decide

/-! ### Commands (R81, R99) -/

/-- The command that a mode code of the default table selects, with given fields. -/
def commandOfMode (mode : BitVec 4) (size : Size) (reg : BitVec 24) : Instr :=
  match mode.toNat with
  | 0 => .write size reg
  | 1 => .read size reg
  | 2 => .ioset size reg
  | 3 => .ioclr size reg
  | 4 => .irqget size reg
  | 5 => .irqmask size reg
  | 6 => .irqunmask size reg
  | 7 => .unknownMode7 size reg
  | 8 => .unknownMode8 size reg
  | 9 => .unknownMode9 size reg
  | 10 => .unknownMode10 size reg
  | 11 => .unknownMode11 size reg
  | 12 => .unknownMode12 size reg
  | 13 => .unknownMode13 size reg
  | 14 => .unknownMode14 size reg
  | _ => .unknownMode15 size reg

theorem decodeCommand_eq (w : Word) :
    decodeCommand w = commandOfMode (modeField w) (sizeOfCode (sizeField w)) (regField w) := rfl

@[simp] theorem decodeCommand_encodeFields (mode size : BitVec 4) (reg : BitVec 24) :
    decodeCommand (encodeFields mode size reg) = commandOfMode mode (sizeOfCode size) reg := by
  rw [decodeCommand_eq, encodeFields, modeField_append, sizeField_append, regField_append]

theorem decodeCommandUnder_eq (c : Config.ModeCodes) (w : Word) :
    decodeCommandUnder c w =
      commandOfMode (defaultCodeOf c (modeField w)) (sizeOfCode (sizeField w)) (regField w) :=
  decodeCommand_encodeFields _ _ _

@[simp] theorem decodeCommandUnder_encodeFields (c : Config.ModeCodes) (mode size : BitVec 4) (reg : BitVec 24) :
    decodeCommandUnder c (encodeFields mode size reg) = commandOfMode (defaultCodeOf c mode) (sizeOfCode size) reg := by
  rw [decodeCommandUnder_eq, encodeFields, modeField_append, sizeField_append, regField_append]

/-- What is selected: a command of the format, with the code that selects it and the fields it was
given. -/
theorem commandOfMode_spec (mode : BitVec 4) (size : Size) (reg : BitVec 24) :
    (commandOfMode mode size reg).wellFormed = size.wellFormed ∧ (commandOfMode mode size reg).format = .cmd ∧
    modeCode (commandOfMode mode size reg) = mode ∧
    encode (commandOfMode mode size reg) = [encodeFields mode (codeOfSize size) reg] := by
  obtain ⟨m, hm⟩ : ∃ m : Fin 16, mode = BitVec.ofFin m := ⟨mode.toFin, rfl⟩
  subst hm
  fin_cases m <;> exact ⟨rfl, rfl, rfl, rfl⟩

/-- A command is the one its own mode code selects. -/
theorem exists_eq_commandOfMode {i : Instr} (h : i.format = .cmd) :
    ∃ size reg, i = commandOfMode (modeCode i) size reg := by
  cases i with
  | blkIn => cases h
  | blkOut => cases h
  | _ size reg => exact ⟨size, reg, rfl⟩

theorem decodeWords_encode_of_command {i : Instr} (hf : i.format = .cmd) (hw : i.wellFormed = true) (ws : List Word) :
    decodeWords .cmd (encode i ++ ws) = .ok (i, ws) := by
  obtain ⟨size, reg, hi⟩ := exists_eq_commandOfMode hf
  obtain ⟨hwell, -, -, hencode⟩ := commandOfMode_spec (modeCode i) size reg
  rw [← hi] at hwell hencode
  have hsize : sizeOfCode (codeOfSize size) = size := sizeOfCode_codeOfSize (hwell.symm.trans hw)
  rw [hencode, List.singleton_append, decodeWords, decodeCommand_encodeFields, hsize, ← hi]

/-- The two halves of a sector number, high and low, are the number (R92). -/
theorem sector_halves (sector : BitVec 64) : sector.extractLsb' 32 32 ++ sector.extractLsb' 0 32 = sector :=
  (BitVec.extractLsb'_append_extractLsb'_eq_extractLsb' (start₁ := 0) rfl).trans BitVec.extractLsb'_eq_self

/-- Settles O2: a command's word gives back its mode code and its fields, a request's four words its type and its two
halves of the sector. -/
theorem decodeInvertsEncode : Obligations.DecodeInvertsEncode := by
  intro i ws hw
  cases i with
  | blkIn reserved sector =>
    simp [Instr.format, encode, decodeWords, decodeRequest, sector_halves]
  | blkOut reserved sector =>
    simp [Instr.format, encode, decodeWords, decodeRequest, sector_halves]
  | _ size reg => exact decodeWords_encode_of_command rfl hw ws

/-- Settles O3: the decoded command carries the word's own fields, and these make up the word. -/
theorem everyWordIsOneCommand : Obligations.EveryWordIsOneCommand := by
  intro w
  obtain ⟨hsize, hcode⟩ := sizeOfCode_spec (sizeField w)
  obtain ⟨hwell, hformat, hmode, hencode⟩ :=
    commandOfMode_spec (modeField w) (sizeOfCode (sizeField w)) (regField w)
  rw [decodeCommand_eq]
  refine ⟨hwell.trans hsize, hformat, hmode, ?_⟩
  rw [hencode, hcode, encodeFields_fields]

/-- Settles O4, by evaluating the decoder on each word. -/
theorem sampleWordsDecode : Obligations.SampleWordsDecode :=
  ⟨rfl, rfl, rfl, rfl, rfl, rfl, rfl, rfl, rfl, rfl⟩

/-! ### Other mode codes (R81, D1) -/

/-- Under injective codes the `k`-th code of the list stands for the `k`-th code of the default table. -/
theorem defaultCodeOf_getElem {c : Config.ModeCodes} (hc : (codeList c).Nodup) (k : Nat)
    (hk : k < (codeList c).length) : defaultCodeOf c (codeList c)[k] = BitVec.ofNat 4 k := by
  have hindex : (codeList c).idxOf? (codeList c)[k] = some k :=
    List.idxOf?_eq_some_iff.2 ⟨hk, rfl, fun j hj he => hj.ne ((hc.getElem_inj_iff).1 he)⟩
  rw [defaultCodeOf, hindex]

/-- Settles O5: a code of the assignment stands for the default code at its place in the list, and any other value for
one of the unknown codes. -/
theorem anyModeCodesSelectTheirCommand : Obligations.AnyModeCodesSelectTheirCommand := by
  intro c size reg hc
  have hselect : ∀ k, (hk : k < 7) →
      decodeCommandUnder c (encodeFields ((codeList c)[k]'hk) size reg) =
        commandOfMode (BitVec.ofNat 4 k) (sizeOfCode size) reg := by
    intro k hk
    rw [decodeCommandUnder_encodeFields, defaultCodeOf_getElem hc k hk]
  refine ⟨hselect 0 (by decide), hselect 1 (by decide), hselect 2 (by decide), hselect 3 (by decide),
    hselect 4 (by decide), hselect 5 (by decide), hselect 6 (by decide), fun m hm => ?_⟩
  obtain ⟨-, -, hmode, -⟩ := commandOfMode_spec (defaultCodeOf c m) (sizeOfCode size) reg
  rw [decodeCommandUnder_encodeFields, hmode]
  exact seven_le_defaultCodeOf hc hm

end Sys2Proof.Machine
end

section
/-! PROOFS. What a step of the machine can do, said once: the moves of the dispatcher's commands, of the backend and of
the environment, and that every step that answers is made of them. Each invariant is then a fact about the moves. -/

namespace Sys2Proof.Machine

/-! ### The moves of a command (R134 to R144) -/

/-- What a numbered step of a command can do to the state, and the sequencing around it. -/
inductive CommandMove : State → State → Prop
  | skip (s : State) : CommandMove s s
  | sequence (s : State) (d : DState) : CommandMove s { s with disp.dstate := d }
  | receive (s : State) (w : Word) (ws : List Word) (h : s.io.rxq = w :: ws) :
      CommandMove s { s with disp.op := w, io.rxq := ws }
  | send (s : State) (h : s.io.txq.length < s.env.params.txDepth) :
      CommandMove s { s with io.txq := s.io.txq ++ [s.disp.val] }
  | sentinel (s : State) (v : Word) : CommandMove s { s with disp.val := v }
  | load (s : State) (c : Call) (v : Word) : CommandMove s { s.note c with disp := { s.disp with val := v } }
  | store (s : State) (c : Call) (bs : List Byte) :
      CommandMove s ({ s with mem := s.mem.writeMany (byteAt s.disp.addr) 0 bs }.note c)
  | enter (s : State) : CommandMove s { (enter s).2 with disp.token := (enter s).1 }
  | leave (s : State) (token : Bool) : CommandMove s (leave token s)
  | query (s : State) (v : Word) : CommandMove s { (getPending s).2 with disp.val := v }
  | mask (s : State) (L : Line) : CommandMove s (mask L s)
  | unmask (s : State) (L : Line) : CommandMove s (unmask L s)

/-- A numbered step of a command moves the state, where it completes. -/
def IsCommandStep (op : State → Micro) : Prop := ∀ s t, op s = .done t → CommandMove s t

theorem isCommandStep_recvStep : IsCommandStep recvStep := by
  intro s t h
  obtain ⟨w, ws, hr, rfl⟩ := recvStep_done h
  exact .receive s w ws hr

theorem isCommandStep_sendStep : IsCommandStep sendStep := by
  intro s t h
  obtain ⟨hroom, rfl⟩ := sendStep_done h
  exact .send s hroom

theorem isCommandStep_loadStep (size : Size) : IsCommandStep (loadStep size) := by
  intro s t h
  obtain ⟨-, rfl⟩ | ⟨n, -, rfl⟩ := loadStep_done h
  · exact .sentinel s badSizeValue
  · exact .load s _ _

theorem isCommandStep_storeStep (size : Size) (value : State → Word) : IsCommandStep (storeStep size value) := by
  intro s t h
  obtain ⟨-, rfl⟩ | ⟨n, -, rfl⟩ := storeStep_done h
  · exact .skip _
  · exact .store s _ _

theorem isCommandStep_ioFirstStep (size : Size) : IsCommandStep (ioFirstStep size) := fun s t h =>
  (ioFirstStep_done h).elim (isCommandStep_loadStep size s t) (isCommandStep_recvStep s t)

theorem isCommandStep_ioSecondStep (size : Size) : IsCommandStep (ioSecondStep size) := fun s t h =>
  (ioSecondStep_done h).elim (isCommandStep_loadStep size s t) (isCommandStep_recvStep s t)

theorem isCommandStep_enterStep : IsCommandStep enterStep := by
  intro s t h
  cases h
  exact .enter s

theorem isCommandStep_leaveStep : IsCommandStep leaveStep := by
  intro s t h
  cases h
  exact .leave s s.disp.token

theorem isCommandStep_getPendingStep : IsCommandStep getPendingStep := by
  intro s t h
  unfold getPendingStep at h
  split at h
  · cases h
  · cases h
    exact .query s _

theorem isCommandStep_mask (L : Line) : IsCommandStep fun s => .done (mask L s) := by
  intro s t h
  cases h
  exact .mask s L

theorem isCommandStep_unmask (L : Line) : IsCommandStep fun s => .done (unmask L s) := by
  intro s t h
  cases h
  exact .unmask s L

/-- The register field of a command (R80). -/
def commandReg : Instr → BitVec 24
  | .write _ reg | .read _ reg | .ioset _ reg | .ioclr _ reg | .irqget _ reg | .irqmask _ reg | .irqunmask _ reg
  | .unknownMode7 _ reg | .unknownMode8 _ reg | .unknownMode9 _ reg | .unknownMode10 _ reg | .unknownMode11 _ reg
  | .unknownMode12 _ reg | .unknownMode13 _ reg | .unknownMode14 _ reg | .unknownMode15 _ reg => reg
  | .blkIn _ _ | .blkOut _ _ => 0#24

theorem commandReg_commandOfMode (mode : BitVec 4) (size : Size) (reg : BitVec 24) :
    commandReg (commandOfMode mode size reg) = reg := by
  obtain ⟨m, rfl⟩ : ∃ m : Fin 16, mode = BitVec.ofFin m := ⟨mode.toFin, rfl⟩
  fin_cases m <;> rfl

/-- Under any mode codes a word decodes to a command with the word's register field. -/
theorem decodeCommandUnder_spec (c : Config.ModeCodes) (w : Word) :
    (decodeCommandUnder c w).format = .cmd ∧ commandReg (decodeCommandUnder c w) = regField w := by
  rw [decodeCommandUnder_eq]
  obtain ⟨-, hformat, -, -⟩ :=
    commandOfMode_spec (defaultCodeOf c (modeField w)) (sizeOfCode (sizeField w)) (regField w)
  exact ⟨hformat, commandReg_commandOfMode _ _ _⟩

/-- Every command latches its address and runs a list of numbered steps (R131, R137 to R144). -/
theorem exec_command {i : Instr} (hf : i.format = .cmd) :
    ∃ ops, (∀ op ∈ ops, IsCommandStep op) ∧ ∀ s, exec i s = runCommand ops (latchAddr (commandReg i) s) := by
  cases i with
  | write size reg =>
    exact ⟨_, by simp [isCommandStep_recvStep, isCommandStep_storeStep], fun s => rfl⟩
  | read size reg =>
    exact ⟨_, by simp [isCommandStep_loadStep, isCommandStep_sendStep], fun s => rfl⟩
  | ioset size reg =>
    exact ⟨_, by simp [isCommandStep_ioFirstStep, isCommandStep_ioSecondStep, isCommandStep_storeStep], fun s => rfl⟩
  | ioclr size reg =>
    exact ⟨_, by simp [isCommandStep_ioFirstStep, isCommandStep_ioSecondStep, isCommandStep_storeStep], fun s => rfl⟩
  | irqget size reg =>
    exact ⟨_, by simp [isCommandStep_enterStep, isCommandStep_getPendingStep, isCommandStep_leaveStep,
      isCommandStep_sendStep], fun s => rfl⟩
  | irqmask size reg =>
    exact ⟨_, by simp [isCommandStep_enterStep, isCommandStep_mask, isCommandStep_leaveStep], fun s => rfl⟩
  | irqunmask size reg =>
    exact ⟨_, by simp [isCommandStep_enterStep, isCommandStep_unmask, isCommandStep_leaveStep], fun s => rfl⟩
  | blkIn => cases hf
  | blkOut => cases hf
  | _ => exact ⟨[], by simp, fun s => rfl⟩

/-- What every move of a command keeps, a command that answers keeps from its latched address on. -/
theorem exec_command_keeps {P : State → Prop} (hmove : ∀ s t, CommandMove s t → P s → P t) {i : Instr}
    (hf : i.format = .cmd) {s t : State} (h : exec i s = .next t) (hp : P (latchAddr (commandReg i) s)) : P t := by
  obtain ⟨ops, hops, hexec⟩ := exec_command hf
  rw [hexec] at h
  exact runCommand_keeps (fun s d => hmove _ _ (.sequence s d))
    (fun op hop s t hp hdone => hmove _ _ (hops op hop s t hdone) hp) h hp

/-- A command ends its turn polling or at one of its steps, never about to pop. -/
theorem runSteps_dstate_ne_pop {ops : List (State → Micro)} {k n : Nat} {s t : State}
    (h : runSteps ops k n s = .next t) : t.disp.dstate ≠ .pop := by
  induction ops generalizing k n s with
  | nil => cases h; simp
  | cons op ops ih =>
    cases n with
    | zero => cases h; simp
    | succ n =>
      simp only [runSteps] at h
      split at h
      · exact ih h
      · cases h; simp
      · cases h

theorem exec_command_dstate_ne_pop {i : Instr} (hf : i.format = .cmd) {s t : State} (h : exec i s = .next t) :
    t.disp.dstate ≠ .pop := by
  obtain ⟨ops, -, hexec⟩ := exec_command hf
  rw [hexec] at h
  exact runSteps_dstate_ne_pop h

/-! ### The moves of the dispatcher (R130, R131) -/

/-- What the dispatcher can do to the state: the loop around a command, and the command. -/
inductive DispatcherMove : State → State → Prop
  | wake (s : State) : DispatcherMove s { s with io.signal := false, disp.dstate := .poll }
  | sleep (s : State) : DispatcherMove s { s with disp.dstate := .idle }
  | find (s : State) : DispatcherMove s { s with disp.dstate := .pop }
  | pop (s : State) (w : Word) (ws : List Word) (n : Nat) (h : s.io.rxq = w :: ws) :
      DispatcherMove s (popCommand w ws n s)
  | resume (s : State) (n : Nat) : DispatcherMove s { s with env.budget := n }
  | latch (s : State) : DispatcherMove s (latchAddr (regField s.disp.cw) s)
  | command {s t : State} (h : CommandMove s t) : DispatcherMove s t

/-- A dispatcher's turn takes one step of the loop outside a command, pops a word and runs its command, or goes on with
the command in `CW`. -/
theorem dispatcherTurn_cases {n : Nat} {s t : State} (h : dispatcherTurn n s = .next t) :
    t = s ∨
    (s.disp.dstate = .idle ∧ t = { s with io.signal := false, disp.dstate := .poll }) ∨
    (s.disp.dstate = .poll ∧ t = { s with disp.dstate := .idle }) ∨
    (s.io.rxq ≠ [] ∧ t = { s with disp.dstate := .pop }) ∨
    (∃ w ws m, s.io.rxq = w :: ws ∧
      exec (decodeCommandUnder s.env.params.modeCodes w) (popCommand w ws m s) = .next t) ∨
    (∃ m, exec (decodeCommandUnder s.env.params.modeCodes s.disp.cw) { s with env.budget := m + 1 } = .next t) := by
  cases n with
  | zero => cases h; exact .inl rfl
  | succ m =>
    cases hd : s.disp.dstate with
    | idle =>
      simp only [dispatcherTurn, hd] at h
      split at h
      · cases h; simp
      · cases h; simp
    | poll =>
      cases hr : s.io.rxq with
      | nil =>
        simp only [dispatcherTurn, hd, hr] at h
        cases h; simp
      | cons w ws =>
        cases m with
        | zero =>
          simp only [dispatcherTurn, hd, hr, popTurn] at h
          cases h; simp
        | succ m =>
          rw [dispatcherTurn_of_poll hd hr] at h
          simp only [List.cons.injEq]
          exact .inr (.inr (.inr (.inr (.inl ⟨w, ws, m, ⟨rfl, rfl⟩, h⟩))))
    | pop =>
      cases hr : s.io.rxq with
      | nil =>
        simp only [dispatcherTurn, hd, hr, popTurn] at h
        cases h; simp
      | cons w ws =>
        rw [dispatcherTurn_of_pop hd hr] at h
        simp only [List.cons.injEq]
        exact .inr (.inr (.inr (.inr (.inl ⟨w, ws, m, ⟨rfl, rfl⟩, h⟩))))
    | exec k =>
      simp only [dispatcherTurn, hd] at h
      exact .inr (.inr (.inr (.inr (.inr ⟨m, h⟩))))

/-- What every move of the dispatcher keeps, its turn keeps. -/
theorem dispatcherTurn_keeps {P : State → Prop} (hmove : ∀ s t, DispatcherMove s t → P s → P t) {n : Nat}
    {s t : State} (h : dispatcherTurn n s = .next t) (hp : P s) : P t := by
  have hrun : ∀ (c : Config.ModeCodes) (w : Word) (u : State), u.disp.cw = w → P u →
      exec (decodeCommandUnder c w) u = .next t → P t := by
    rintro c w u rfl hu hexec
    obtain ⟨hformat, hreg⟩ := decodeCommandUnder_spec c u.disp.cw
    refine exec_command_keeps (fun s t hm => hmove s t (.command hm)) hformat hexec ?_
    rw [hreg]
    exact hmove _ _ (.latch u) hu
  rcases dispatcherTurn_cases h with rfl | ⟨-, rfl⟩ | ⟨-, rfl⟩ | ⟨-, rfl⟩ | ⟨w, ws, m, hr, hexec⟩ | ⟨m, hexec⟩
  · exact hp
  · exact hmove _ _ (.wake s) hp
  · exact hmove _ _ (.sleep s) hp
  · exact hmove _ _ (.find s) hp
  · exact hrun _ w (popCommand w ws m s) rfl (hmove _ _ (.pop s w ws m hr) hp) hexec
  · exact hrun _ s.disp.cw { s with env.budget := m + 1 } rfl (hmove _ _ (.resume s (m + 1)) hp) hexec

/-! ### The moves of the backend (R150, R152) -/

/-- What an atomic step of the backend can do to the state: a step of a request, with guest memory written or with the
medium written; a step of `hard_reset`; the stop at a violation. -/
inductive BackendMove : State → State → Prop
  | request (s : State) (b : Backend) (e : Environment) (hrun : s.fatal = false) (hjob : inJob s.blk.bstate = true)
      (hcfg : b.cfg = s.blk.cfg) (hbuilt : b.cfgBuilt = s.blk.cfgBuilt) (hparams : e.params = s.env.params) :
      BackendMove s { s with blk := b, env := e }
  | fill (s : State) (ptr : Word) (bs : List Byte) (b : Backend) (e : Environment) (hrun : s.fatal = false)
      (hjob : inJob s.blk.bstate = true) (hcfg : b.cfg = s.blk.cfg) (hbuilt : b.cfgBuilt = s.blk.cfgBuilt)
      (hparams : e.params = s.env.params) :
      BackendMove s { s with mem := s.mem.writeMany (byteAt ptr) 0 bs, blk := b, env := e }
  | flush (s : State) (off : BitVec 64) (bs : List Byte) (b : Backend) (e : Environment) (hrun : s.fatal = false)
      (hjob : inJob s.blk.bstate = true) (hcfg : b.cfg = s.blk.cfg) (hbuilt : b.cfgBuilt = s.blk.cfgBuilt)
      (hparams : e.params = s.env.params) :
      BackendMove s { s with disk := s.disk.writeMany (diskAt off) 0 bs, blk := b, env := e }
  | configure (s : State) (b : Backend) (e : Environment) (hreset : inJob s.blk.bstate = false)
      (hjob : inJob b.bstate = false) (hcfg : s.blk.cfg.length = cfgSize → b.cfg.length = cfgSize)
      (hparams : e.params = s.env.params) : BackendMove s { s with blk := b, env := e }
  | stop (s : State) (hact : s.blk.bstate = .job .act)
      (hclass : classify s.env.params.statusLen s.blk.desc.len = .violation) : BackendMove s (raiseFatal s)

theorem backendMove_dataStep {s : State} (hf : s.fatal = false) (hb : s.blk.bstate = .job .act) (d : Desc) :
    BackendMove s (dataStep d s) := by
  have hjob : inJob s.blk.bstate = true := by rw [hb]; rfl
  rcases transfer_cases d s with ⟨-, ht⟩ | ⟨-, ht⟩ | ⟨-, -, ht⟩
  · obtain ⟨bs, e, he, -, -, hparams, -⟩ := readSectors_frame s.blk.soff (sectorCount d.len) d.ptr s
    rw [dataStep, ht, he]
    exact .fill s d.ptr bs _ e hf hjob rfl rfl hparams
  · obtain ⟨bs, e, he, -, -, hparams, -⟩ := writeSectors_frame s.blk.soff (sectorCount d.len) d.ptr s
    rw [dataStep, ht, he]
    exact .flush s s.blk.soff bs _ e hf hjob rfl rfl hparams
  · rw [dataStep, ht]
    exact .request s _ s.env hf hjob rfl rfl rfl

theorem backendMove_nextStep {s : State} (hf : s.fatal = false) (hb : s.blk.bstate = .job .next) :
    BackendMove s (nextStep s) := by
  have hjob : inJob s.blk.bstate = true := by rw [hb]; rfl
  unfold nextStep
  split
  · exact .request s _ s.env hf hjob rfl rfl rfl
  · exact .request s _ s.env hf hjob rfl rfl rfl

/-- A step of a request in progress is a move, or there is none to take. -/
theorem jobStep_move (s : State) : jobStep s = s ∨ BackendMove s (jobStep s) := by
  rcases jobStep_cases s with ⟨-, h⟩ | ⟨hf, hb, h⟩ | ⟨hf, hb, h⟩ | ⟨hf, hb, h⟩ | ⟨hf, hb, h⟩ | ⟨hf, hb, h⟩ |
    ⟨hf, hb, h⟩ | ⟨-, h⟩ | ⟨-, h⟩
  case inl | inr.inr.inr.inr.inr.inr.inr.inl | inr.inr.inr.inr.inr.inr.inr.inr => exact .inl h
  all_goals
    right
    rw [h]
    have hjob : inJob s.blk.bstate = true := by rw [hb]; rfl
  · exact backendMove_nextStep hf hb
  · exact .request s _ s.env hf hjob rfl rfl rfl
  · rcases actStep_cases s with ⟨-, h⟩ | ⟨-, h⟩ | ⟨hclass, h⟩
    · rw [h]; exact backendMove_dataStep hf hb _
    · rw [h]; exact .fill s s.blk.desc.ptr [s.blk.err] _ _ hf hjob rfl rfl rfl
    · rw [h]; exact .stop s hb hclass
  · obtain ⟨e, w, env, h, hparams, -⟩ := accountStep_frame s
    rw [h]; exact .request s _ env hf hjob rfl rfl hparams
  · exact .request s _ _ hf hjob rfl rfl rfl
  · exact .request s _ _ hf hjob rfl rfl rfl

theorem putBytes_length {blob bs : List Byte} {off : Nat} (h : off + bs.length ≤ blob.length) :
    (putBytes blob off bs).length = blob.length := by
  simp only [putBytes, List.length_append, List.length_take, List.length_drop]
  omega

/-- The four fields of the layout lie inside the config space, so populating them keeps its length (R32). -/
theorem populate_length (capacity : BitVec 64) (sizeMax segMax : Word) {blob : List Byte}
    (h : blob.length = cfgSize) : (populate capacity sizeMax segMax blob).length = cfgSize := by
  have hput : ∀ (b bs : List Byte) (off : Nat), b.length = cfgSize → off + bs.length ≤ cfgSize →
      (putBytes b off bs).length = cfgSize := fun b bs off hb hoff => (putBytes_length (hb ▸ hoff)).trans hb
  have h1 := hput _ (toBytesLE 8 capacity) 0 h (by simp [cfgSize])
  have h2 := hput _ (toBytesLE 4 sizeMax) 8 h1 (by simp [cfgSize])
  have h3 := hput _ (toBytesLE 4 segMax) 12 h2 (by simp [cfgSize])
  exact hput _ (toBytesLE 4 512#32) 20 h3 (by simp [cfgSize])

theorem hardResetStep_move (s : State) : hardResetStep s = s ∨ BackendMove s (hardResetStep s) := by
  unfold hardResetStep
  split
  case h_6 => exact .inl rfl
  all_goals
    rename_i hb
    right
    have hreset : inJob s.blk.bstate = false := by rw [hb]; rfl
  · exact .configure s _ s.env hreset rfl (fun _ => List.length_replicate) rfl
  · exact .configure s _ _ hreset rfl id rfl
  · exact .configure s _ _ hreset rfl id rfl
  · exact .configure s _ s.env hreset rfl (populate_length _ _ _) rfl
  · exact .configure s _ s.env hreset rfl id rfl

/-- The requests of the opcode table are those of types 0 and 1 (R93). -/
theorem decodeWords_blkhdr_ok {ws rest : List Word} {i : Instr} (h : decodeWords .blkhdr ws = .ok (i, rest)) :
    ∃ reserved sector, i = .blkIn reserved sector ∨ i = .blkOut reserved sector := by
  unfold decodeWords at h
  split at h
  · contradiction
  · cases h
  · rename_i type reserved lo hi ws' _
    unfold decodeRequest at h
    split at h
    · cases h
      rename_i hd
      split_ifs at hd
      · cases hd; exact ⟨_, _, .inl rfl⟩
      · cases hd; exact ⟨_, _, .inr rfl⟩
    · cases h
  · cases h

/-- Whatever type the header has, what answers is the run of a request, on the state with the read recorded. -/
theorem headerTurn_next {s t : State} (h : headerTurn s = .next t) :
    ∃ type sector, t = runRequest type sector (s.note (.guestRead s.blk.desc.ptr 16)) := by
  unfold headerTurn at h
  dsimp only at h
  split at h
  · rename_i i rest hd
    obtain ⟨reserved, sector, rfl | rfl⟩ := decodeWords_blkhdr_ok hd
    · cases h; exact ⟨_, _, rfl⟩
    · cases h; exact ⟨_, _, rfl⟩
  · unfold runOtherRequest at h
    split at h
    · cases h; exact ⟨_, _, rfl⟩
    · cases h

/-- What every move of the backend keeps, its turn keeps. -/
theorem backendTurn_keeps {P : State → Prop} (hmove : ∀ s t, BackendMove s t → P s → P t) {n : Nat} {s t : State}
    (hf : s.fatal = false) (h : backendTurn n s = .next t) (hp : P s) : P t := by
  have hjobs : ∀ (m : Nat) (u : State), P u → P (runJob m u) := fun m u hu =>
    runJob_keeps (fun v hv => (jobStep_move v).elim (fun he => he.symm ▸ hv) fun hm => hmove _ _ hm hv) m hu
  have hresets : ∀ (m : Nat) (u : State), P u → P (runHardReset m u) := fun m u hu =>
    runHardReset_keeps (fun v hv => (hardResetStep_move v).elim (fun he => he.symm ▸ hv) fun hm => hmove _ _ hm hv) m hu
  cases n with
  | zero => cases h; exact hp
  | succ m =>
    cases hb : s.blk.bstate with
    | idle =>
      simp only [backendTurn, hb] at h
      cases h; exact hp
    | hardReset k =>
      simp only [backendTurn, hb] at h
      cases h; exact hresets _ _ hp
    | job k =>
      have hjob : inJob s.blk.bstate = true := by rw [hb]; rfl
      cases k with
      | fetch =>
        simp only [backendTurn, hb] at h
        cases h
        unfold fetchStep
        split
        · exact hmove _ _ (.request s _ s.env hf hjob rfl rfl rfl) hp
        · exact hmove _ _ (.request s _ _ hf hjob rfl rfl rfl) hp
      | header =>
        simp only [backendTurn, hb] at h
        cases h
        exact hmove _ _ (.request s _ s.env hf hjob rfl rfl rfl) hp
      | read =>
        simp only [backendTurn, hb] at h
        obtain ⟨type, sector, rfl⟩ := headerTurn_next h
        simp only [runRequest, State.note_env_budget]
        exact hjobs _ _ (hmove s _ (.request s _ _ hf hjob rfl rfl rfl) hp)
      | _ =>
        simp only [backendTurn, hb] at h
        cases h; exact hjobs _ _ hp

/-! ### The moves of the environment (R16) -/

/-- What a turn of the schedule does that is neither the dispatcher's nor the backend's. -/
inductive EnvironmentMove : Turn → State → State → Prop
  | none (u : Turn) (s : State) : EnvironmentMove u s s
  | fire (L : Line) (s : State) (h : fireEnabled L s = true) : EnvironmentMove (.fire L) s (fire L s)
  | signal (s : State) : EnvironmentMove .rxAvail s { s with io.signal := true }
  | send (w : Word) (s : State) (h : s.io.rxq.length < s.env.params.rxDepth) :
      EnvironmentMove (.guestSend w) s { s with io.rxq := s.io.rxq ++ [w] }
  | take (s : State) : EnvironmentMove .guestTake s { s with io.txq := s.io.txq.tail }
  | poke (a : Word) (b : Byte) (s : State) : EnvironmentMove (.poke a b) s { s with mem := s.mem.write (byteAt a 0) b }
  | pokeDisk (a : Nat) (b : Byte) (s : State) :
      EnvironmentMove (.pokeDisk a b) s { s with disk := s.disk.write (diskAt 0#64 a) b }
  | critical (u : Turn) (s : State) (c : Critical) : EnvironmentMove u s { s with crit := c }
  | world (u : Turn) (s : State) (e : Environment) (h : e.params = s.env.params) :
      EnvironmentMove u s { s with env := e }
  | vicReset (s : State) : EnvironmentMove .vicReset s (vicReset s)
  | hardReset (s : State) : EnvironmentMove .hardReset s { s with blk.bstate := .hardReset 1 }
  | processQueue (q : Nat) (s : State) (h : s.blk.cfgBuilt = true) :
      EnvironmentMove (.processQueue q) s { s with blk.queue := q, blk.bstate := .job .fetch }
  | powerOn (s : State) : EnvironmentMove .powerOn s s.powerOn

theorem vicResetTurn_eq (s : State) : vicResetTurn s = vicReset s := rfl

theorem configByte_move (off : Nat) (s : State) :
    ∃ e : Environment, e.params = s.env.params ∧ (configByte off s).2.note (.configByte off (configByte off s).1) =
      { s with env := e } := by
  rcases configByte_cases off s with h | ⟨-, -, h⟩
  · rw [h]; exact ⟨(s.note _).env, rfl, rfl⟩
  · rw [h]; exact ⟨((s.drawn 1).note _).env, rfl, rfl⟩

/-- A turn that answers is the dispatcher's, the backend's, or a move of the environment. -/
theorem takeTurn_cases {u : Turn} {s t : State} (h : takeTurn u s = .next t) :
    (∃ n, u = .dispatcher n ∧ dispatcherTurn n s = .next t) ∨ (∃ n, u = .backend n ∧ backendTurn n s = .next t) ∨
    EnvironmentMove u s t := by
  cases u with
  | dispatcher n => exact .inl ⟨n, rfl, h⟩
  | backend n => exact .inr (.inl ⟨n, rfl, h⟩)
  | fire L =>
    cases h
    unfold fireTurn
    split
    · exact .inr (.inr (.fire L s (by assumption)))
    · exact .inr (.inr (.none _ s))
  | rxAvail =>
    cases h
    unfold rxAvailTurn
    split
    · exact .inr (.inr (.signal s))
    · exact .inr (.inr (.none _ s))
  | guestSend w =>
    cases h
    unfold guestSendTurn
    split
    · exact .inr (.inr (.send w s (by assumption)))
    · exact .inr (.inr (.none _ s))
  | guestTake => cases h; exact .inr (.inr (.take s))
  | poke a b => cases h; exact .inr (.inr (.poke a b s))
  | pokeDisk a b => cases h; exact .inr (.inr (.pokeDisk a b s))
  | postJob j => cases h; exact .inr (.inr (.world _ s _ rfl))
  | hardReset =>
    simp only [takeTurn, hardResetTurn] at h
    split at h
    · cases h; exact .inr (.inr (.hardReset s))
    · cases h
  | configRead off =>
    simp only [takeTurn, configReadTurn] at h
    split at h
    · cases h
    · cases h
      obtain ⟨e, hparams, he⟩ := configByte_move off s
      rw [he]
      exact .inr (.inr (.world _ s e hparams))
  | processQueue q =>
    simp only [takeTurn, processQueueTurn] at h
    split_ifs at h with _ hbuilt
    cases h
    exact .inr (.inr (.processQueue q s (by simpa using hbuilt)))
  | vicReset => cases h; exact .inr (.inr (.vicReset s))
  | enter => cases h; exact .inr (.inr (.critical _ s _))
  | leave k =>
    cases h
    unfold leaveTurn
    split
    · exact .inr (.inr (.none _ s))
    · exact .inr (.inr (.critical _ s _))
  | leaveAgain token => cases h; exact .inr (.inr (.critical _ s _))
  | setStatus v => cases h; exact .inr (.inr (.critical _ s _))
  | setOrder b =>
    cases h
    unfold setOrderTurn
    split
    · exact .inr (.inr (.none _ s))
    · exact .inr (.inr (.world _ s _ rfl))
  | setCapacity c => cases h; exact .inr (.inr (.world _ s _ rfl))
  | powerOn => cases h; exact .inr (.inr (.powerOn s))

/-! ### The step -/

/-- With the flag set, a step that answers is a power-on (R36, R210). -/
theorem step_of_fatal_next {s t : State} (hf : s.fatal = true) (h : step s = .next t) :
    (∃ ts, s.env.agenda = .powerOn :: ts) ∧ t = (turnTaken s).powerOn := by
  rw [step, if_pos hf, fatalStep] at h
  split at h
  · rename_i ts hts
    cases h
    exact ⟨⟨ts, hts⟩, rfl⟩
  · cases h

/-- A step that answers is a turn of the dispatcher or of the backend on a machine that has not stopped, or a move of
the environment, made by the turn that comes next. -/
theorem step_cases {s t : State} (h : step s = .next t) :
    (s.fatal = false ∧ ∃ n, nextTurn s = .dispatcher n ∧ dispatcherTurn n (turnTaken s) = .next t) ∨
    (s.fatal = false ∧ ∃ n, nextTurn s = .backend n ∧ backendTurn n (turnTaken s) = .next t) ∨
    EnvironmentMove (nextTurn s) (turnTaken s) t := by
  cases hf : s.fatal with
  | true =>
    obtain ⟨⟨ts, hts⟩, rfl⟩ := step_of_fatal_next hf h
    have hnext : nextTurn s = .powerOn := by simp [nextTurn, hts]
    rw [hnext]
    exact .inr (.inr (.powerOn _))
  | false =>
    have hturn : takeTurn (nextTurn s) (turnTaken s) = .next t := by simpa [step, hf] using h
    rcases takeTurn_cases hturn with hd | hb | he
    · exact .inl ⟨rfl, hd⟩
    · exact .inr (.inl ⟨rfl, hb⟩)
    · exact .inr (.inr he)

/-- What taking a turn off the schedule and every move keep, every step keeps. -/
theorem step_keeps {P : State → Prop} (hturn : ∀ s, P s → P (turnTaken s))
    (hdispatcher : ∀ s t, DispatcherMove s t → P s → P t) (hbackend : ∀ s t, BackendMove s t → P s → P t)
    (henvironment : ∀ u s t, EnvironmentMove u s t → P s → P t) {s t : State} (h : step s = .next t) (hp : P s) :
    P t := by
  rcases step_cases h with ⟨-, n, -, hd⟩ | ⟨hf, n, -, hb⟩ | he
  · exact dispatcherTurn_keeps hdispatcher hd (hturn s hp)
  · exact backendTurn_keeps hbackend (s := turnTaken s) hf hb (hturn s hp)
  · exact henvironment _ _ _ he (hturn s hp)

end Sys2Proof.Machine
end

section
/-! PROOFS. What every step keeps: the parameters, the invariant of the VIC, and the invariant of the machine; and who
alone sets a pending bit, raises a sync or sets the fatal flag. -/

namespace Sys2Proof.Machine

/-! ### Lines as bits of a register (R21 to R23) -/

/-- Setting the bit of `L` leaves the other lines' bits. -/
theorem getLsbD_or_lineBit (p : Word) (L i : Line) :
    (p ||| lineBit L).getLsbD i.toNat = (p.getLsbD i.toNat || decide (i = L)) := by
  rw [BitVec.getLsbD_or, lineBit_getLsbD]

/-- A register with no line's bit set is zero. -/
theorem eq_zero_iff_forall_line (p : Word) : p = 0#32 ↔ ∀ i : Line, p.getLsbD i.toNat = false := by
  constructor
  · rintro rfl i
    exact BitVec.getLsbD_zero
  · intro h
    apply BitVec.eq_of_getLsbD_eq
    intro i hi
    rw [BitVec.getLsbD_zero]
    exact h (BitVec.ofNatLT i hi)

/-- The invariant line by line: what is pending is armed (R23). -/
theorem vicInv_iff (v : Vic) :
    vicInv v ↔ ∀ i : Line, v.pending.getLsbD i.toNat = true → v.armed.getLsbD i.toNat = true := by
  rw [vicInv, eq_zero_iff_forall_line]
  refine forall_congr' fun i => ?_
  have hi : i.toNat < 32 := i.isLt
  rw [BitVec.getLsbD_and, BitVec.getLsbD_not, decide_eq_true hi, Bool.true_and]
  cases v.pending.getLsbD i.toNat <;> cases v.armed.getLsbD i.toNat <;> simp

/-- `get_pending` writes `PENDING` alone, and sets no bit of it (R113). -/
theorem getPending_frame (s : State) :
    ∃ p, (getPending s).2 = { s with vic.pending := p } ∧
      ∀ i : Line, p.getLsbD i.toNat = true → s.vic.pending.getLsbD i.toNat = true := by
  by_cases hp : s.vic.pending = 0#32
  · rw [getPending_of_none hp]
    exact ⟨s.vic.pending, rfl, fun i => id⟩
  · obtain ⟨L, hL, -, -⟩ := prio_eq_line_of_ne_zero hp
    rw [getPending_of_line hL]
    refine ⟨_, rfl, fun i hi => ?_⟩
    rw [getLsbD_and_not_lineBit, Bool.and_eq_true] at hi
    exact hi.1

/-! ### The invariant of the VIC (R23) -/

theorem vicInv_unmask {s : State} (h : vicInv s.vic) (L : Line) : vicInv (unmask L s).vic := by
  rw [vicInv_iff] at h ⊢
  intro i hi
  rw [unmask_vic, getLsbD_or_lineBit, h i hi, Bool.true_or]

theorem vicInv_mask {s : State} (h : vicInv s.vic) (L : Line) : vicInv (mask L s).vic := by
  rw [vicInv_iff] at h ⊢
  intro i hi
  rw [mask_vic, getLsbD_and_not_lineBit, Bool.and_eq_true] at hi
  rw [mask_vic, getLsbD_and_not_lineBit, h i hi.1, hi.2, Bool.and_self]

/-- The bit a handler sets is that of an armed line. -/
theorem vicInv_fire {s : State} (h : vicInv s.vic) {L : Line} (hL : s.vic.armed.getLsbD L.toNat = true) :
    vicInv (fire L s).vic := by
  rw [vicInv_iff] at h ⊢
  intro i hi
  rw [fire_vic, getLsbD_or_lineBit, Bool.or_eq_true] at hi
  rcases hi with hi | hi
  · exact h i hi
  · rwa [of_decide_eq_true hi]

theorem armed_of_fireEnabled {L : Line} {s : State} (h : fireEnabled L s = true) :
    s.vic.armed.getLsbD L.toNat = true ∧ s.crit.imask = false ∧ s.fatal = false := by
  simpa [fireEnabled, and_assoc] using h

theorem vicInv_fireTurn {s : State} (h : vicInv s.vic) (L : Line) : vicInv (fireTurn L s).vic := by
  unfold fireTurn
  split
  next hfire => exact vicInv_fire h (armed_of_fireEnabled hfire).1
  next => exact h

theorem vicInv_getPending {s : State} (h : vicInv s.vic) : vicInv (getPending s).2.vic := by
  obtain ⟨p, hp, hsub⟩ := getPending_frame s
  rw [hp]
  rw [vicInv_iff] at h ⊢
  exact fun i hi => h i (hsub i hi)

theorem vicInv_vicReset (s : State) : vicInv (vicReset s).vic := BitVec.zero_and

theorem vicInv_commandMove {s t : State} (h : CommandMove s t) (hp : vicInv s.vic) : vicInv t.vic := by
  cases h with
  | query v => exact vicInv_getPending hp
  | mask L => exact vicInv_mask hp L
  | unmask L => exact vicInv_unmask hp L
  | _ => exact hp

theorem vicInv_step {s t : State} (hp : vicInv s.vic) (h : step s = .next t) : vicInv t.vic := by
  refine step_keeps (P := fun s => vicInv s.vic) (fun s hp => hp) (fun s t h hp => ?_) (fun s t h hp => ?_)
    (fun u s t h hp => ?_) h hp
  · cases h with
    | command h => exact vicInv_commandMove h hp
    | _ => exact hp
  · cases h <;> exact hp
  · cases h with
    | fire L s hfire => exact vicInv_fire hp (armed_of_fireEnabled hfire).1
    | vicReset => exact vicInv_vicReset s
    | powerOn => exact BitVec.zero_and
    | _ => exact hp

/-- Settles O29: each operation keeps it line by line, and every step is made of moves that keep it. -/
theorem vicInvariantIsKept : Obligations.VicInvariantIsKept :=
  ⟨BitVec.zero_and, fun s L h => ⟨vicInv_unmask h L, vicInv_mask h L, vicInv_fireTurn h L, vicInv_getPending h,
    vicInv_vicReset s⟩, fun _ _ => vicInv_step⟩

/-! ### What the two agents leave alone (R69) -/

/-- A command leaves the backend, its jobs, the medium, the scripts, the flag and the sync count alone, and sets no
pending bit. -/
def CommandFrame (s t : State) : Prop :=
  (t.blk = s.blk ∧ t.disk = s.disk ∧ t.fatal = s.fatal ∧ t.env.posted = s.env.posted ∧
    t.env.statuses = s.env.statuses ∧ t.env.draws = s.env.draws) ∧
  (t.env.params = s.env.params ∧ t.io.sync = s.io.sync) ∧
  ∀ i : Line, t.vic.pending.getLsbD i.toNat = true → s.vic.pending.getLsbD i.toNat = true

theorem CommandFrame.refl (s : State) : CommandFrame s s :=
  ⟨⟨rfl, rfl, rfl, rfl, rfl, rfl⟩, ⟨rfl, rfl⟩, fun _ => id⟩

theorem commandFrame_commandMove {r s t : State} (h : CommandMove s t) (hp : CommandFrame r s) : CommandFrame r t := by
  cases h with
  | query v =>
    obtain ⟨p, hq, hsub⟩ := getPending_frame s
    obtain ⟨hagent, hrest, hpending⟩ := hp
    rw [hq]
    exact ⟨hagent, hrest, fun i hi => hpending i (hsub i hi)⟩
  | mask L =>
    obtain ⟨hagent, hrest, hpending⟩ := hp
    refine ⟨hagent, hrest, fun i hi => hpending i ?_⟩
    rw [mask_vic, getLsbD_and_not_lineBit, Bool.and_eq_true] at hi
    exact hi.1
  | _ => exact hp

theorem commandFrame_dispatcherTurn {n : Nat} {s t : State} (h : dispatcherTurn n s = .next t) : CommandFrame s t := by
  refine dispatcherTurn_keeps (P := CommandFrame s) (fun u v h hp => ?_) h (.refl s)
  cases h with
  | command h => exact commandFrame_commandMove h hp
  | _ => exact hp

/-- The backend leaves the VIC, the critical section, the dispatcher and the transport alone. -/
def BackendFrame (s t : State) : Prop :=
  (t.vic = s.vic ∧ t.crit = s.crit ∧ t.disp = s.disp ∧ t.io = s.io) ∧ t.env.params = s.env.params

theorem backendFrame_backendMove {r s t : State} (h : BackendMove s t) (hp : BackendFrame r s) : BackendFrame r t := by
  obtain ⟨hagent, hparams⟩ := hp
  cases h with
  | stop => exact ⟨hagent, hparams⟩
  | _ => exact ⟨hagent, Eq.trans (by assumption) hparams⟩

theorem backendFrame_backendTurn {n : Nat} {s t : State} (hf : s.fatal = false) (h : backendTurn n s = .next t) :
    BackendFrame s t :=
  backendTurn_keeps (P := BackendFrame s) (fun _ _ => backendFrame_backendMove) hf h ⟨⟨rfl, rfl, rfl, rfl⟩, rfl⟩

/-- Settles O53: the turn decides which frame holds. -/
theorem agentsTouchDisjointState : Obligations.AgentsTouchDisjointState := by
  intro s t n hf h
  refine ⟨fun hturn => ?_, fun hturn => ?_⟩
  · rw [step_of_backend hf hturn] at h
    exact (backendFrame_backendTurn (s := turnTaken s) hf h).1
  · rw [step_of_dispatcher hf hturn] at h
    obtain ⟨⟨hblk, hdisk, hfatal, hjobs⟩, -, -⟩ := commandFrame_dispatcherTurn h
    exact ⟨hblk, hdisk, hfatal.trans hf, hjobs⟩

/-- Settles O47: the runner answers no fault, and no move of a command writes the flag. -/
theorem commandsRaiseNoFault : Obligations.CommandsRaiseNoFault := by
  intro i s hformat
  refine ⟨fun f => ?_, fun t h => ?_⟩
  · obtain ⟨ops, -, hexec⟩ := exec_command hformat
    rw [hexec]
    exact runCommand_ne_fault _ _ _
  · obtain ⟨⟨-, -, hfatal, -⟩, -, -⟩ :=
      exec_command_keeps (P := CommandFrame s) (fun _ _ => commandFrame_commandMove) hformat h (CommandFrame.refl s)
    exact hfatal

/-- Settles O52: no move of an agent or of the environment writes the record. -/
theorem stepKeepsTheParameters : Obligations.StepKeepsTheParameters := by
  intro s t h
  rcases step_cases h with ⟨-, n, -, hd⟩ | ⟨hf, n, -, hb⟩ | he
  · obtain ⟨-, ⟨hparams, -⟩, -⟩ := commandFrame_dispatcherTurn hd
    exact hparams
  · exact (backendFrame_backendTurn (s := turnTaken s) hf hb).2
  · generalize nextTurn s = u at he
    cases he with
    | world _ _ e hparams => exact hparams
    | _ => rfl

/-- Settles O30: of all the moves only `fire` sets a pending bit, the one of its own line. -/
theorem onlyFireMakesALinePending : Obligations.OnlyFireMakesALinePending := by
  intro s t L h hset hclear
  have hclash : ¬ (t.vic.pending.getLsbD L.toNat = true → s.vic.pending.getLsbD L.toNat = true) := by
    simp [hset, hclear]
  rcases step_cases h with ⟨-, n, -, hd⟩ | ⟨hf, n, -, hb⟩ | he
  · obtain ⟨-, -, hpending⟩ := commandFrame_dispatcherTurn hd
    exact absurd (hpending L) hclash
  · obtain ⟨⟨hvic, -⟩, -⟩ := backendFrame_backendTurn (s := turnTaken s) hf hb
    exact absurd (fun h => hvic ▸ h) hclash
  · generalize hu : nextTurn s = u at he
    cases he with
    | fire K _ hfire =>
      obtain ⟨harmed, hmask, hf⟩ := armed_of_fireEnabled hfire
      rw [fire_vic, turnTaken_vic, getLsbD_or_lineBit, hclear, Bool.false_or] at hset
      obtain rfl : L = K := of_decide_eq_true hset
      exact ⟨hf, rfl, harmed, hmask, rfl⟩
    | vicReset => exact absurd hset (by simp)
    | powerOn => exact absurd hset (by simp [State.powerOn, State.reset])
    | _ => exact absurd id hclash

/-- Settles O31: of all the moves only `fire` raises a sync, and only a power-on starts the count again. -/
theorem syncOnlyFromFire : Obligations.SyncOnlyFromFire := by
  intro s t h
  rcases step_cases h with ⟨-, n, -, hd⟩ | ⟨hf, n, -, hb⟩ | he
  · obtain ⟨-, ⟨-, hsync⟩, -⟩ := commandFrame_dispatcherTurn hd
    exact .inl hsync
  · obtain ⟨⟨-, -, -, hio⟩, -⟩ := backendFrame_backendTurn (s := turnTaken s) hf hb
    exact .inl (by rw [hio, turnTaken_io])
  · generalize hu : nextTurn s = u at he
    cases he with
    | fire L _ hfire => exact .inr (.inl ⟨L, rfl, hfire, rfl⟩)
    | powerOn => exact .inr (.inr ⟨rfl, rfl⟩)
    | _ => exact .inl rfl

/-! ### The fatal flag (R36, R163) -/

/-- Where the flag is set, the backend stands at a descriptor of a violating length. -/
def StoppedAtViolation (s : State) : Prop :=
  s.fatal = true → s.blk.bstate = .job .act ∧ classify s.env.params.statusLen s.blk.desc.len = .violation

theorem stoppedAtViolation_backendMove {s t : State} (h : BackendMove s t) (hp : StoppedAtViolation s) :
    StoppedAtViolation t := by
  cases h with
  | stop hact hclass => exact fun _ => ⟨hact, hclass⟩
  | configure b e hreset =>
    intro hf
    rw [(hp hf).1] at hreset
    cases hreset
  | _ => exact fun hf => absurd (‹s.fatal = false›.symm.trans hf) Bool.false_ne_true

/-- Settles O46: of all the moves only the backend's stop sets the flag. -/
theorem fatalOnlyFromAViolation : Obligations.FatalOnlyFromAViolation := by
  intro s t h hf hfatal
  rcases step_cases h with ⟨-, n, -, hd⟩ | ⟨-, n, hturn, hb⟩ | he
  · obtain ⟨⟨-, -, hkeep, -⟩, -, -⟩ := commandFrame_dispatcherTurn hd
    rw [hfatal, turnTaken_fatal, hf] at hkeep
    cases hkeep
  · have hstart : StoppedAtViolation (turnTaken s) := by simp [StoppedAtViolation, hf]
    have hstop := backendTurn_keeps (s := turnTaken s) (fun _ _ => stoppedAtViolation_backendMove) hf hb hstart
    exact ⟨⟨n, hturn⟩, hstop hfatal⟩
  · generalize nextTurn s = u at he
    cases he with
    | powerOn => cases hfatal
    | _ => exact absurd (hf.symm.trans hfatal) Bool.false_ne_true

/-- Settles O48: the step of a stopped machine is looked up in the schedule's head. -/
theorem fatalIsTerminal : Obligations.FatalIsTerminal := by
  intro s hf
  refine ⟨fun t h => ?_, step_of_fatal hf⟩
  obtain ⟨hagenda, rfl⟩ := step_of_fatal_next hf h
  exact ⟨hagenda, rfl⟩

/-- Settles O49: each value is the field the power-on writes, or a memory it does not touch. -/
theorem powerOnValues : Obligations.PowerOnValues :=
  ⟨fun _ => ⟨rfl, rfl, rfl, rfl, rfl, rfl, rfl, rfl⟩, rfl, rfl, rfl, rfl, rfl, rfl⟩

/-! ### The invariant of the machine -/

/-- Both memories canonical and inside their address spaces (R38). -/
def MemoriesInv (s : State) : Prop :=
  s.mem.wf ∧ s.mem.within (2 ^ 32) ∧ s.disk.wf ∧ s.disk.within (2 ^ 64 * 512)

theorem memoriesInv_writeMany {s : State} (h : MemoriesInv s) (p : Word) (bs : List Byte) :
    (s.mem.writeMany (byteAt p) 0 bs).wf ∧ (s.mem.writeMany (byteAt p) 0 bs).within (2 ^ 32) ∧ s.disk.wf ∧
    s.disk.within (2 ^ 64 * 512) := by
  obtain ⟨hwf, hin, hdisk⟩ := h
  exact ⟨Memory.writeMany_wf hwf _ _ _, Memory.writeMany_within hin (byteAt_lt p) _ _, hdisk⟩

theorem memoriesInv_writeDisk {s : State} (h : MemoriesInv s) (off : BitVec 64) (bs : List Byte) :
    s.mem.wf ∧ s.mem.within (2 ^ 32) ∧ (s.disk.writeMany (diskAt off) 0 bs).wf ∧
    (s.disk.writeMany (diskAt off) 0 bs).within (2 ^ 64 * 512) := by
  obtain ⟨hwf, hin, hdwf, hdin⟩ := h
  exact ⟨hwf, hin, Memory.writeMany_wf hdwf _ _ _, Memory.writeMany_within hdin (diskAt_lt off) _ _⟩

theorem getPending_keeps_memories {s : State} (h : MemoriesInv s) : MemoriesInv (getPending s).2 := by
  obtain ⟨p, hp, -⟩ := getPending_frame s
  rw [hp]
  exact h

theorem memoriesInv_step {s t : State} (h : step s = .next t) (hp : MemoriesInv s) : MemoriesInv t := by
  refine step_keeps (fun s hp => hp) (fun s t h hp => ?_) (fun s t h hp => ?_) (fun u s t h hp => ?_) h hp
  · cases h with
    | command h =>
      cases h with
      | store c bs => exact memoriesInv_writeMany hp _ bs
      | query v => exact getPending_keeps_memories hp
      | _ => exact hp
    | _ => exact hp
  · cases h with
    | fill ptr bs => exact memoriesInv_writeMany hp ptr bs
    | flush off bs => exact memoriesInv_writeDisk hp off bs
    | _ => exact hp
  · cases h with
    | poke a b => exact memoriesInv_writeMany hp a [b]
    | pokeDisk a b =>
      obtain ⟨hwf, hin, hdwf, hdin⟩ := hp
      exact ⟨hwf, hin, Memory.write_wf hdwf _ _, Memory.write_within hdin (diskAt_lt _ _) _⟩
    | _ => exact hp

/-- A config space of 60 bytes, and a backend that was reset before it runs (R31, R215). -/
def ConfigInv (b : Backend) : Prop := b.cfg.length = cfgSize ∧ backendInv b

theorem configInv_step {s t : State} (h : step s = .next t) (hp : ConfigInv s.blk) : ConfigInv t.blk := by
  rcases step_cases h with ⟨-, n, -, hd⟩ | ⟨hf, n, -, hb⟩ | he
  · obtain ⟨⟨hblk, -⟩, -, -⟩ := commandFrame_dispatcherTurn hd
    rw [hblk]
    exact hp
  · refine backendTurn_keeps (P := fun s => ConfigInv s.blk) (fun s t h hp => ?_) (s := turnTaken s) hf hb hp
    obtain ⟨hlength, hready⟩ := hp
    cases h with
    | configure b e hreset hjob hcfg => exact ⟨hcfg hlength, fun h => absurd (hjob.symm.trans h) (by simp)⟩
    | stop => exact ⟨hlength, hready⟩
    | _ =>
      refine ⟨Eq.trans (congrArg List.length (by assumption)) hlength, fun _ => ?_⟩
      exact Eq.trans (by assumption) (hready (by assumption))
  · generalize nextTurn s = u at he
    cases he with
    | hardReset => exact ⟨hp.1, nofun⟩
    | processQueue q _ hbuilt => exact ⟨hp.1, fun _ => hbuilt⟩
    | powerOn => exact ⟨rfl, nofun⟩
    | _ => exact hp

/-- `ADDR` is the address of the word in `CW`, and the queues are within the transport's depths (R28, R7). -/
def LatchInv (s : State) : Prop :=
  s.disp.addr = periphAddr (regField s.disp.cw) ∧ s.io.rxq.length ≤ s.env.params.rxDepth ∧
    s.io.txq.length ≤ s.env.params.txDepth

theorem latchInv_commandMove {s t : State} (h : CommandMove s t) (hp : LatchInv s) : LatchInv t := by
  obtain ⟨haddr, hrx, htx⟩ := hp
  cases h with
  | receive w ws hr =>
    rw [hr, List.length_cons] at hrx
    exact ⟨haddr, Nat.le_of_succ_le hrx, htx⟩
  | send hroom =>
    refine ⟨haddr, hrx, ?_⟩
    rw [List.length_append]
    exact hroom
  | query v =>
    obtain ⟨p, hq, -⟩ := getPending_frame s
    rw [hq]
    exact ⟨haddr, hrx, htx⟩
  | _ => exact ⟨haddr, hrx, htx⟩

theorem latchInv_step {s t : State} (h : step s = .next t) (hp : LatchInv s) : LatchInv t := by
  refine step_keeps (fun s hp => hp) (fun s t h hp => ?_) (fun s t h hp => ?_) (fun u s t h hp => ?_) h hp
  · cases h with
    | command h => exact latchInv_commandMove h hp
    | pop w ws n hr =>
      obtain ⟨-, hrx, htx⟩ := hp
      rw [hr, List.length_cons] at hrx
      exact ⟨rfl, Nat.le_of_succ_le hrx, htx⟩
    | latch => exact ⟨rfl, hp.2⟩
    | _ => exact hp
  · obtain ⟨haddr, hrx, htx⟩ := hp
    obtain ⟨⟨-, -, hdisp, hio⟩, hparams⟩ := backendFrame_backendMove h ⟨⟨rfl, rfl, rfl, rfl⟩, rfl⟩
    rw [LatchInv, hdisp, hio, hparams]
    exact ⟨haddr, hrx, htx⟩
  · obtain ⟨haddr, hrx, htx⟩ := hp
    cases h with
    | send w _ hroom =>
      refine ⟨haddr, ?_, htx⟩
      rw [List.length_append]
      exact hroom
    | take => exact ⟨haddr, hrx, List.length_tail ▸ (Nat.sub_le _ _).trans htx⟩
    | world _ _ e hparams => exact ⟨haddr, hparams ▸ hrx, hparams ▸ htx⟩
    | powerOn => exact ⟨rfl, Nat.zero_le _, Nat.zero_le _⟩
    | _ => exact ⟨haddr, hrx, htx⟩

/-- A dispatcher's turn ends before a pop only where the test found a word, since no command ends there (R130). -/
theorem popInv_dispatcherTurn {n : Nat} {s t : State} (h : dispatcherTurn n s = .next t) (hp : popInv s) :
    popInv t := by
  rcases dispatcherTurn_cases h with rfl | ⟨-, rfl⟩ | ⟨-, rfl⟩ | ⟨hr, rfl⟩ | ⟨w, ws, m, -, hexec⟩ | ⟨m, hexec⟩
  · exact hp
  · exact nofun
  · exact nofun
  · exact fun _ => hr
  · exact fun hd => absurd hd (exec_command_dstate_ne_pop (decodeCommandUnder_spec _ _).1 hexec)
  · exact fun hd => absurd hd (exec_command_dstate_ne_pop (decodeCommandUnder_spec _ _).1 hexec)

theorem popInv_step {s t : State} (h : step s = .next t) (hp : popInv s) : popInv t := by
  rcases step_cases h with ⟨-, n, -, hd⟩ | ⟨hf, n, -, hb⟩ | he
  · exact popInv_dispatcherTurn hd hp
  · obtain ⟨⟨-, -, hdisp, hio⟩, -⟩ := backendFrame_backendTurn (s := turnTaken s) hf hb
    rw [popInv, hdisp, hio]
    exact hp
  · generalize nextTurn s = u at he
    cases he with
    | send => exact fun _ => by simp
    | powerOn => exact nofun
    | _ => exact hp

/-- Settles O51: each part of the invariant is kept by every move. -/
theorem stepKeepsTheInvariant : Obligations.StepKeepsTheInvariant := by
  intro s t ⟨hmem, hmemIn, hdisk, hdiskIn, hvic, hcfg, hback, haddr, hrx, htx, hpop⟩ h
  obtain ⟨hmem, hmemIn, hdisk, hdiskIn⟩ := memoriesInv_step h ⟨hmem, hmemIn, hdisk, hdiskIn⟩
  obtain ⟨hcfg, hback⟩ := configInv_step h ⟨hcfg, hback⟩
  obtain ⟨haddr, hrx, htx⟩ := latchInv_step h ⟨haddr, hrx, htx⟩
  exact ⟨hmem, hmemIn, hdisk, hdiskIn, vicInv_step hvic h, hcfg, hback, haddr, hrx, htx, popInv_step h hpop⟩

/-- Settles O50: at reset the memories and the queues are empty, and nothing is pending or in progress. -/
theorem invariantHoldsAtReset : Obligations.InvariantHoldsAtReset := by
  have hempty : ∀ n, Memory.within n [] := fun _ => nofun
  exact ⟨⟨.nil, nofun⟩, hempty _, ⟨.nil, nofun⟩, hempty _, BitVec.zero_and, rfl, nofun, rfl, Nat.zero_le _,
    Nat.zero_le _, nofun⟩

end Sys2Proof.Machine
end

section
/-! PROOFS. The step by the turn that comes next: the dispatcher's loop, the header and the fetch of a request, the two
handlers, host firmware, the reads of the config space, and the ends of a run. -/

namespace Sys2Proof.Machine

/-- A machine that has not stopped takes the turn that comes next. -/
theorem step_of_turn {s : State} {u : Turn} (hf : s.fatal = false) (ht : nextTurn s = u) :
    step s = takeTurn u (turnTaken s) := by
  simp [step, hf, ht]

/-! ### The dispatcher (R130, R131) -/

theorem dispatcherTurn_of_exec {s : State} {k : Nat} (hd : s.disp.dstate = .exec k) (n : Nat) :
    dispatcherTurn (n + 1) s =
      exec (decodeCommandUnder s.env.params.modeCodes s.disp.cw) { s with env.budget := n + 1 } := by
  simp [dispatcherTurn, hd]

/-- The default mode codes stand for themselves (R81). -/
theorem defaultCodeOf_default (m : BitVec 4) : defaultCodeOf Config.defaultModeCodes m = m := by
  revert m; decide

theorem decodeCommandUnder_default (w : Word) : decodeCommandUnder Config.defaultModeCodes w = decodeCommand w := by
  rw [decodeCommandUnder_eq, defaultCodeOf_default, decodeCommand_eq]

/-- From the test or from the pop, the step is the run of the oldest word's command. -/
theorem step_of_waiting_word {s : State} {n : Nat} {w : Word} {ws : List Word} (hf : s.fatal = false)
    (hturn : (nextTurn s = .dispatcher (n + 2) ∧ s.disp.dstate = .poll) ∨
      (nextTurn s = .dispatcher (n + 1) ∧ s.disp.dstate = .pop)) (hr : s.io.rxq = w :: ws) :
    step s = exec (decodeCommandUnder s.env.params.modeCodes w) (popCommand w ws n (turnTaken s)) := by
  rcases hturn with ⟨ht, hd⟩ | ⟨ht, hd⟩
  · exact (step_of_dispatcher hf ht).trans (dispatcherTurn_of_poll (s := turnTaken s) hd hr n)
  · exact (step_of_dispatcher hf ht).trans (dispatcherTurn_of_pop (s := turnTaken s) hd hr n)

/-- Settles O8: a turn that finds a word pops and runs it, one with a command in flight goes on with `CW`. -/
theorem stepRunsThePoppedCommand : Obligations.StepRunsThePoppedCommand := by
  intro s n hf
  refine ⟨fun w ws hturn hr => step_of_waiting_word hf hturn hr, fun k ht hd => ?_, fun hc w => ?_⟩
  · exact (step_of_dispatcher hf ht).trans (dispatcherTurn_of_exec (s := turnTaken s) hd n)
  · rw [hc, decodeCommandUnder_default]

theorem dispatcherTurn_of_signalled {s : State} (hd : s.disp.dstate = .idle) (h : s.io.signal = true) (n : Nat) :
    dispatcherTurn (n + 1) s = .next { s with io.signal := false, disp.dstate := .poll } := by
  simp [dispatcherTurn, hd, h]

theorem dispatcherTurn_of_waiting {s : State} (hd : s.disp.dstate = .idle) (h : s.io.signal = false) (n : Nat) :
    dispatcherTurn (n + 1) s = .next s := by
  simp [dispatcherTurn, hd, h]

theorem dispatcherTurn_of_empty {s : State} (hd : s.disp.dstate = .poll) (hr : s.io.rxq = []) (n : Nat) :
    dispatcherTurn (n + 1) s = .next { s with disp.dstate := .idle } := by
  simp [dispatcherTurn, hd, hr]

/-- A turn of one step tests the queue and no more. -/
theorem dispatcherTurn_of_found {s : State} (hd : s.disp.dstate = .poll) (hr : s.io.rxq ≠ []) :
    dispatcherTurn 1 s = .next { s with disp.dstate := .pop } := by
  obtain ⟨w, ws, hcons⟩ := List.exists_cons_of_ne_nil hr
  simp [dispatcherTurn, hd, hcons, popTurn]

/-- Settles O10: outside a command the turn is one row of the loop. -/
theorem dispatcherLoopOutsideACommand : Obligations.DispatcherLoopOutsideACommand := by
  intro s n hf ht
  rw [step_of_dispatcher hf ht]
  refine ⟨fun hd hsignal => ?_, fun hd hsignal => ?_, fun hd hr => ?_, fun hd hr hn => ?_⟩
  · exact dispatcherTurn_of_signalled (s := turnTaken s) hd hsignal n
  · exact dispatcherTurn_of_waiting (s := turnTaken s) hd hsignal n
  · exact dispatcherTurn_of_empty (s := turnTaken s) hd hr n
  · rw [hn]
    exact dispatcherTurn_of_found (s := turnTaken s) hd hr

/-- Settles O24: the nine are the commands of no steps. -/
theorem unknownModesDoNothing : Obligations.UnknownModesDoNothing :=
  fun _ _ s _ hi _ => exec_unknownCommand hi s

/-! ### The handlers and host firmware (R112, R114, R186) -/

/-- Settles O11: the callback's one condition is the statement's. -/
theorem rxAvailOnlySignals : Obligations.RxAvailOnlySignals := by
  intro s hf ht
  have hline : (rxAvailLine (turnTaken s) && !(turnTaken s).crit.imask) = true ↔
      s.io.rxq ≠ [] ∧ s.crit.imask = false := by
    simp [rxAvailLine]
  rw [step_of_turn hf ht, takeTurn, rxAvailTurn]
  by_cases h : s.io.rxq ≠ [] ∧ s.crit.imask = false
  · rw [if_pos (hline.2 h), if_pos h]; rfl
  · rw [if_neg (mt hline.1 h), if_neg h]; rfl

/-- A handler whose line is armed, with interrupts enabled and no stop, runs (R112, R118, R119). -/
theorem fireEnabled_of_armed {L : Line} {s : State} (harmed : s.vic.armed.getLsbD L.toNat = true)
    (hmask : s.crit.imask = false) (hf : s.fatal = false) : fireEnabled L s = true := by
  simp only [fireEnabled, harmed, hmask, hf, Bool.not_false, Bool.and_self]

theorem fireTurn_of_armed {L : Line} {s : State} (harmed : s.vic.armed.getLsbD L.toNat = true)
    (hmask : s.crit.imask = false) (hf : s.fatal = false) : fireTurn L s = fire L s :=
  if_pos (fireEnabled_of_armed harmed hmask hf)

theorem fireTurn_of_gated {L : Line} {s : State} (h : s.vic.armed.getLsbD L.toNat = false ∨ s.crit.imask = true) :
    fireTurn L s = s := by
  refine if_neg fun hfire => ?_
  obtain ⟨harmed, hmask, -⟩ := armed_of_fireEnabled hfire
  rcases h with h | h
  · exact Bool.false_ne_true (h.symm.trans harmed)
  · exact Bool.false_ne_true (hmask.symm.trans h)

/-- Settles O32: the gate decides whether the turn is the handler or nothing. -/
theorem fireIsGated : Obligations.FireIsGated := by
  intro s L hf ht
  rw [step_of_turn hf ht, takeTurn]
  refine ⟨fun harmed hmask => ?_, fun hgate => ?_⟩
  · rw [fireTurn_of_armed (s := turnTaken s) harmed hmask hf]; rfl
  · rw [fireTurn_of_gated (s := turnTaken s) hgate]; rfl

/-- Settles O34: the gate of a handler does not look at `PENDING`, and the critical section around the reset hands back
the bit it found. -/
theorem vicResetClearsPendingOnly : Obligations.VicResetClearsPendingOnly := by
  intro s
  refine ⟨rfl, fun L => rfl, fun hf ht => ?_⟩
  rw [step_of_turn hf ht, takeTurn, vicResetTurn_eq]
  rfl

/-! ### The config space (R151, R215) -/

theorem configByte_of_outside {off : Nat} (h : cfgSize ≤ off) (s : State) : configByte off s = (cfgOutOfBounds, s) :=
  if_pos h

theorem configByte_of_built {off : Nat} {s : State} (h : off < cfgSize) (hb : s.blk.cfgBuilt = true) :
    configByte off s = (s.blk.cfg.getD off cfgOutOfBounds, s) := by
  simp [configByte, Nat.not_le.2 h, hb]

theorem configByte_of_unbuilt {off : Nat} {s : State} (h : off < cfgSize) (hb : s.blk.cfgBuilt = false) :
    configByte off s = (Config.unbuiltByte s.env.draws, s.drawn 1) := by
  simp [configByte, Nat.not_le.2 h, hb]

theorem configReadTurn_of_idle {s : State} (h : s.blk.bstate = .idle) (off : Nat) :
    configReadTurn off s = .next ((configByte off s).2.note (.configByte off (configByte off s).1)) := by
  simp [configReadTurn, h]

/-- Settles O38: an offset is outside, or inside a space that is built, or inside one that is not. -/
theorem configReadAnswersBytes : Obligations.ConfigReadAnswersBytes := by
  intro s off hf ht hidle hlength
  rw [step_of_turn hf ht, takeTurn, configReadTurn_of_idle (s := turnTaken s) hidle]
  refine ⟨fun h => ?_, fun hb hoff => ?_⟩
  · rcases Nat.lt_or_ge off 60 with hin | hout
    · have hb : s.blk.cfgBuilt = true := h.resolve_right (Nat.not_le.2 hin)
      rw [configByte_of_built (s := turnTaken s) hin hb]
      exact ⟨_, fun h => (List.getElem_eq_getD _).symm, fun h => absurd h (Nat.not_le.2 hin), rfl⟩
    · rw [configByte_of_outside hout]
      exact ⟨_, fun h => absurd (hlength ▸ h) (Nat.not_lt.2 hout), fun _ => rfl, rfl⟩
  · rw [configByte_of_unbuilt (s := turnTaken s) hoff hb]
    exact ⟨_, rfl⟩

/-! ### The request's header (R92, R154) -/

/-- Four bytes and the bytes after them, each as a number, side by side are the number of all of them (R55). -/
theorem ofBytesLE_append_high {low high : List Byte} (h : low.length = 4) :
    ofBytesLE 32 high ++ ofBytesLE 32 low = ofBytesLE 64 (low ++ high) := by
  apply BitVec.eq_of_getLsbD_eq
  intro i hi
  rw [BitVec.getLsbD_append, ofBytesLE_getLsbD, ofBytesLE_getLsbD, ofBytesLE_getLsbD]
  by_cases hlow : i < 32
  · have hbyte : (low ++ high).getD (i / 8) 0#8 = low.getD (i / 8) 0#8 :=
      List.getD_append _ _ _ _ (by omega)
    rw [hbyte]
    simp [hlow, hi]
  · have hbyte : (low ++ high).getD (i / 8) 0#8 = high.getD ((i - 32) / 8) 0#8 := by
      rw [List.getD_append_right _ _ _ _ (by omega), h]
      congr 1
      omega
    have hmod : (i - 32) % 8 = i % 8 := by omega
    rw [hbyte]
    simp [hlow, hi, hmod, show i - 32 < 32 by omega]

/-- Sixteen bytes are four words, of which the last two are the sector's halves. -/
theorem wordsOfBytes_header {h : List Byte} (hlength : h.length = 16) :
    ∃ lo hi, wordsOfBytes h = [ofBytesLE 32 (h.take 4), ofBytesLE 32 ((h.drop 4).take 4), lo, hi] ∧
      hi ++ lo = ofBytesLE 64 (h.drop 8) := by
  match h, hlength with
  | [_, _, _, _, _, _, _, _, b8, b9, b10, b11, b12, b13, b14, b15], _ =>
    exact ⟨_, _, rfl, ofBytesLE_append_high (low := [b8, b9, b10, b11]) (high := [b12, b13, b14, b15]) rfl⟩

theorem decodeWords_header {h : List Byte} {i : Instr} (hlength : h.length = 16)
    (hd : decodeRequest (ofBytesLE 32 (h.take 4)) (ofBytesLE 32 ((h.drop 4).take 4)) (ofBytesLE 64 (h.drop 8)) =
      .ok i) :
    decodeWords .blkhdr (wordsOfBytes h) = .ok (i, []) := by
  obtain ⟨lo, hi, hwords, hsector⟩ := wordsOfBytes_header hlength
  rw [hwords, decodeWords, hsector, hd]

theorem decodeWords_header_of_otherType {h : List Byte} (hlength : h.length = 16)
    (h0 : ofBytesLE 32 (h.take 4) ≠ 0#32) (h1 : ofBytesLE 32 (h.take 4) ≠ 1#32) :
    decodeWords .blkhdr (wordsOfBytes h) = .error .otherType := by
  obtain ⟨lo, hi, hwords, -⟩ := wordsOfBytes_header hlength
  rw [hwords, decodeWords, decodeRequest, if_neg h0, if_neg h1]

/-- A turn at the header's bytes reads them with its number of steps as the budget. -/
theorem step_at_read {s : State} {n : Nat} (hf : s.fatal = false) (ht : nextTurn s = .backend (n + 1))
    (hb : s.blk.bstate = .job .read) : step s = headerTurn { turnTaken s with env.budget := n + 1 } := by
  rw [step_of_backend hf ht]
  simp [backendTurn, hb]

theorem headerTurn_of_ok {s : State} {i : Instr} {rest : List Word}
    (h : decodeWords .blkhdr (wordsOfBytes (s.mem.readMany (byteAt s.blk.desc.ptr) 16)) = .ok (i, rest)) :
    headerTurn s = exec i (s.note (.guestRead s.blk.desc.ptr 16)) := by
  simp [headerTurn, guestRead, h]

theorem headerTurn_of_error {s : State} {e : DecodeReject}
    (h : decodeWords .blkhdr (wordsOfBytes (s.mem.readMany (byteAt s.blk.desc.ptr) 16)) = .error e) :
    headerTurn s = runOtherRequest (ofBytesLE 32 ((s.mem.readMany (byteAt s.blk.desc.ptr) 16).take 4))
      (ofBytesLE 64 ((s.mem.readMany (byteAt s.blk.desc.ptr) 16).drop 8)) (s.note (.guestRead s.blk.desc.ptr 16)) := by
  simp [headerTurn, guestRead, h]

theorem backendTurn_of_header {s : State} (hb : s.blk.bstate = .job .header) (n : Nat) :
    backendTurn (n + 1) s = .next (getDesc .read s) := by
  simp [backendTurn, hb]

/-- Settles O9: the sixteen bytes decode to the request of their fields. -/
theorem stepRunsTheRequestOfTheHeader : Obligations.StepRunsTheRequestOfTheHeader := by
  intro s n hf ht
  refine ⟨fun hb => ?_, ?_⟩
  · exact (step_of_backend hf ht).trans (backendTurn_of_header (s := turnTaken s) hb n)
  · rintro h i hb rfl hd
    rw [step_at_read hf ht hb]
    exact headerTurn_of_ok (s := { turnTaken s with env.budget := n + 1 })
      (decodeWords_header (Memory.readMany_length _ _ _) hd)

/-- Settles O54: a header of another type decodes to no row of the table, and the switch decides. -/
theorem stepRunsARequestOfAnotherType : Obligations.StepRunsARequestOfAnotherType := by
  rintro s n h type hf ht hb rfl rfl h0 h1
  have hstep := (step_at_read hf ht hb).trans
    (headerTurn_of_error (s := { turnTaken s with env.budget := n + 1 })
      (decodeWords_header_of_otherType (Memory.readMany_length _ _ _) h0 h1))
  refine ⟨hstep, fun hrule => ?_, fun hrule => ?_⟩
  · rw [hstep, runOtherRequest]
    simp only [State.note_env_params, turnTaken_env_params, hrule]
    rfl
  · rw [hstep, runOtherRequest]
    simp only [State.note_env_params, turnTaken_env_params, hrule]

/-! ### The fetch (R153) -/

theorem takeJob_of_first {q : Nat} {as bs : List Job} {j : Job} (hj : j.queue = q) (has : ∀ a ∈ as, a.queue ≠ q) :
    takeJob q (as ++ j :: bs) = some (j, as ++ bs) := by
  induction as with
  | nil => simp [takeJob, hj]
  | cons a as ih =>
    have ha : a.queue ≠ q := has a (by simp)
    simp [takeJob, ha, ih fun x hx => has x (List.mem_cons_of_mem _ hx)]

theorem takeJob_of_none {q : Nat} {js : List Job} (h : ∀ a ∈ js, a.queue ≠ q) : takeJob q js = none := by
  induction js with
  | nil => rfl
  | cons a js ih =>
    have ha : a.queue ≠ q := h a (by simp)
    simp [takeJob, ha, ih fun x hx => h x (List.mem_cons_of_mem _ hx)]

theorem step_at_fetch {s : State} {n : Nat} (hf : s.fatal = false) (ht : nextTurn s = .backend (n + 1))
    (hb : s.blk.bstate = .job .fetch) : step s = .next (fetchStep (turnTaken s)) := by
  rw [step_of_backend hf ht]
  simp [backendTurn, hb]

/-- Settles O45: the search passes over the jobs of other queues. -/
theorem fetchTakesTheFirstJob : Obligations.FetchTakesTheFirstJob := by
  intro s n hf ht hb
  rw [step_at_fetch hf ht hb, fetchStep]
  refine ⟨fun as j bs hposted hj has => ?_, fun hnone => ?_⟩
  · have htake : takeJob (turnTaken s).blk.queue (turnTaken s).env.posted = some (j, as ++ bs) := by
      rw [turnTaken_env_posted, hposted]
      exact takeJob_of_first hj has
    rw [htake]; rfl
  · have htake : takeJob (turnTaken s).blk.queue (turnTaken s).env.posted = none := takeJob_of_none hnone
    rw [htake]; rfl

/-! ### The ends of a run (R230) -/

theorem not_held_of_idle {s : State} (h : s.disp.dstate = .idle) : held s = false := by
  simp [held, h]

/-- With nothing scheduled and nothing signalled, the quiescent machine's turn is the idle backend's. -/
theorem step_of_quiescent {s : State} (h : Quiescent s) (hagenda : s.env.agenda = []) (hsignal : s.io.signal = false) :
    step s = .next s := by
  obtain ⟨hf, hd, hr, hb, -, -⟩ := h
  have hturn : nextTurn s = .backend (wholeRequest s) := by
    simp [nextTurn, hagenda, defaultTurn, rxAvailLine, hr, dispatcherReady, hd, hsignal]
  have htaken : turnTaken s = s := by simp [turnTaken, hagenda]; rw [← hagenda]
  rw [step_of_backend hf hturn, htaken]
  simp [wholeRequest, backendTurn, hb]

/-- Settles O57: quiescence asks for an idle dispatcher, an unset flag and a schedule without calls. -/
theorem endsOfARun : Obligations.EndsOfARun := by
  refine ⟨fun s => ⟨fun hq => ?_, fun hh hfailed => ?_⟩, fun s => step_of_quiescent, fun s off q hcall hq => ?_⟩
  · obtain ⟨hf, hd, -⟩ := hq
    refine ⟨fun hfailed => Bool.false_ne_true (hf.symm.trans hfailed), fun hh => ?_⟩
    exact Bool.false_ne_true ((not_held_of_idle hd).symm.trans hh.2)
  · exact Bool.false_ne_true (hh.1.symm.trans hfailed)
  · obtain ⟨-, -, -, -, -, hcalls⟩ := hq
    rcases hcall with h | h | h
    · exact absurd (hcalls _ h) (by simp [isBackendCall])
    · exact absurd (hcalls _ h) (by simp [isBackendCall])
    · exact absurd (hcalls _ h) (by simp [isBackendCall])

/-! ### Nested critical sections (R102) -/

/-- Leaving the section just entered gives back the state. -/
theorem leaveTurn_enterTurn (s : State) : leaveTurn 0 (enterTurn s) = s := rfl

/-- The state after leaving the `d` newest sections. -/
def unwind : Nat → State → State
  | 0, s => s
  | d + 1, s => unwind d (leaveTurn 0 s)

/-- Calls that nest from depth `d` on end in the state that leaving the `d` sections gives. -/
theorem runCritical_eq_unwind {ops : List Bool} {d : Nat} {s : State} (h : nests d ops = true) :
    runCritical ops s = unwind d s := by
  induction ops generalizing d s with
  | nil =>
    obtain rfl : d = 0 := by simpa [nests] using h
    rfl
  | cons op ops ih =>
    cases op with
    | true =>
      calc runCritical ops (enterTurn s)
          = unwind (d + 1) (enterTurn s) := ih h
        _ = unwind d s := by rw [unwind, leaveTurn_enterTurn]
    | false =>
      cases d with
      | zero => cases h
      | succ d => exact ih h

/-- The state is inside `d` sections: interrupts are masked in each of them. -/
def Inside : Nat → State → Prop
  | 0, _ => True
  | d + 1, s => s.crit.imask = true ∧ Inside d (leaveTurn 0 s)

theorem inside_enterTurn {d : Nat} {s : State} (h : Inside d s) : Inside (d + 1) (enterTurn s) := ⟨rfl, h⟩

/-- After the first calls of a nested sequence the state is inside as many sections as were entered and not left. -/
theorem inside_runCritical {pre post : List Bool} {d : Nat} {s : State} (h : nests d (pre ++ post) = true)
    (hs : Inside d s) : ∃ k, k + pre.count false = d + pre.count true ∧ Inside k (runCritical pre s) := by
  induction pre generalizing d s with
  | nil => exact ⟨d, rfl, hs⟩
  | cons op pre ih =>
    cases op with
    | true =>
      obtain ⟨k, hk, hin⟩ := ih h (inside_enterTurn hs)
      exact ⟨k, by simp; omega, hin⟩
    | false =>
      cases d with
      | zero => cases h
      | succ d =>
        obtain ⟨k, hk, hin⟩ := ih h hs.2
        exact ⟨k, by simp; omega, hin⟩

/-- Settles O36: a nested sequence from depth 0 leaves every section it enters, and inside one the bit is set. -/
theorem nestedCriticalSections : Obligations.NestedCriticalSections := by
  intro s ops h
  refine ⟨runCritical_eq_unwind h, ?_⟩
  rintro pre post rfl hcount
  obtain ⟨k, hk, hin⟩ := inside_runCritical (s := s) h trivial
  obtain ⟨j, rfl⟩ : ∃ j, k = j + 1 := ⟨k - 1, by omega⟩
  exact hin.1

end Sys2Proof.Machine
end

section
/-! PROOFS. The register commands WRITE, READ, IOSET and IOCLR (R137 to R140): the value on the bus byte by byte, the
width helpers, and each command run from its first step to its end or its refusal. -/

namespace Sys2Proof.Machine

/-! ### Bytes of a value (R52 to R56) -/

/-- A byte of a value assembled from bytes is the byte listed for it, zero past the list's end. -/
theorem extractLsb'_ofBytesLE {w k : Nat} (bs : List Byte) (hk : 8 * k + 8 ≤ w) :
    (ofBytesLE w bs).extractLsb' (8 * k) 8 = bs.getD k 0#8 := by
  apply BitVec.eq_of_getLsbD_eq
  intro i hi
  have hdiv : (8 * k + i) / 8 = k := by omega
  have hmod : (8 * k + i) % 8 = i := by omega
  have hlt : 8 * k + i < w := by omega
  simp only [BitVec.getLsbD_extractLsb', ofBytesLE_getLsbD, hdiv, hmod, hlt, hi, decide_true, Bool.true_and]

theorem Memory.readMany_getD (m : Memory) (f : Nat → Nat) (n k : Nat) :
    (m.readMany f n).getD k 0#8 = if k < n then m.read (f k) else 0#8 := by
  by_cases hk : k < n
  · have hlength : k < (m.readMany f n).length := by simpa using hk
    rw [if_pos hk, List.getD_eq_getElem _ _ hlength, Memory.readMany_getElem]
  · rw [if_neg hk, List.getD_eq_default]
    simpa using hk

/-- The value of an access of `n` bytes: its bytes are those read, and it is zero above them (R53, D5). -/
theorem extractLsb'_busValue (m : Memory) (addr : Word) (n k : Nat) (hk : k < 4) :
    (ofBytesLE 32 (m.readMany (byteAt addr) n)).extractLsb' (8 * k) 8 =
      if k < n then m.read (byteAt addr k) else 0#8 := by
  rw [extractLsb'_ofBytesLE _ (by omega), Memory.readMany_getD]

theorem busValue_lt (m : Memory) (addr : Word) (n : Nat) :
    (ofBytesLE 32 (m.readMany (byteAt addr) n)).toNat < 2 ^ (8 * n) := by
  refine Nat.lt_pow_two_of_testBit _ fun i hi => ?_
  have hpast : ¬ i / 8 < n := by omega
  rw [BitVec.testBit_toNat, ofBytesLE_getLsbD, Memory.readMany_getD, if_neg hpast]
  simp

/-- The bytes stored are a matter of the value's low bits alone (R52, D6). -/
theorem toBytesLE_congr {n : Nat} {v v' : Word} (h : v.setWidth (8 * n) = v'.setWidth (8 * n)) :
    toBytesLE n v = toBytesLE n v' := by
  refine List.ext_getElem (by simp) fun k hk hk' => ?_
  rw [toBytesLE_length] at hk
  rw [toBytesLE_getElem, toBytesLE_getElem]
  apply BitVec.eq_of_getLsbD_eq
  intro i hi
  have hlow : 8 * k + i < 8 * n := by omega
  have hbit := congrArg (fun x => x.getLsbD (8 * k + i)) h
  simp only [BitVec.getLsbD_setWidth, hlow, decide_true, Bool.true_and] at hbit
  rw [BitVec.getLsbD_extractLsb', BitVec.getLsbD_extractLsb', hbit]

/-- Cutting a value to its low bits first loses none of them. -/
theorem setWidth_extractLsb'_zero (v : Word) {n : Nat} (hn : n ≤ 32) :
    ((v.extractLsb' 0 n).setWidth 32).setWidth n = v.setWidth n := by
  apply BitVec.eq_of_getLsbD_eq
  intro i hi
  have hlt : i < 32 := by omega
  simp [hi, hlt]

theorem busWrite_congr {addr : Word} {n : Nat} {v v' : Word} (h : v.setWidth (8 * n) = v'.setWidth (8 * n))
    (s : State) :
    busWrite addr n v s = busWrite addr n v' s := by
  rw [busWrite, busWrite, toBytesLE_congr h, h]

/-- Settles O17: the helpers hand each width to one access, which reads or writes the low bits alone. -/
theorem widthHelpers : Obligations.WidthHelpers := by
  intro addr v s
  refine ⟨fun n _ x s' h => ?_, rfl, rfl, rfl, fun _ => rfl, ?_, ?_, rfl, fun _ => rfl⟩
  · obtain ⟨-, rfl⟩ := busRead_ok h
    exact busValue_lt _ _ _
  · exact busWrite_congr (setWidth_extractLsb'_zero v (by decide)).symm s
  · exact busWrite_congr (setWidth_extractLsb'_zero v (by decide)).symm s

/-! ### A buffer in memory -/

theorem sizeBytes_le {size : Size} {n : Nat} (h : sizeBytes size = some n) : n ≤ 4 := by
  cases size <;> cases h <;> decide

/-- After a store at `p` each byte of the buffer is the one stored. -/
theorem read_writeMany_byteAt {m : Memory} (hm : m.wf) (p : Word) {bs : List Byte} (hlength : bs.length ≤ 2 ^ 32)
    {k : Nat} (hk : k < bs.length) : (m.writeMany (byteAt p) 0 bs).read (byteAt p k) = bs[k] := by
  have hinj : ∀ i < bs.length, ∀ j < bs.length, byteAt p (0 + i) = byteAt p (0 + j) → i = j := fun i hi j hj h => by
    rw [Nat.zero_add, Nat.zero_add] at h
    exact byteAt_inj (by omega) (by omega) h
  simpa using Memory.read_writeMany hm hinj hk

theorem read_writeMany_byteAt_of_ne {m : Memory} {p : Word} {bs : List Byte} {a : Nat}
    (h : ∀ k < bs.length, a ≠ byteAt p k) : (m.writeMany (byteAt p) 0 bs).read a = m.read a :=
  Memory.read_writeMany_of_ne fun k hk => by simpa using h k hk

/-- After a store of the low `n` bytes of a value, byte `k` at the address is the value's byte `k`. -/
theorem read_writeMany_toBytesLE {m : Memory} (hm : m.wf) (p : Word) {n : Nat} (hn : n ≤ 4) (v : Word) {k : Nat}
    (hk : k < n) : (m.writeMany (byteAt p) 0 (toBytesLE n v)).read (byteAt p k) = v.extractLsb' (8 * k) 8 := by
  rw [read_writeMany_byteAt hm p (by rw [toBytesLE_length]; omega) (by simpa using hk), toBytesLE_getElem]

theorem read_writeMany_toBytesLE_of_ne {m : Memory} {p : Word} {n : Nat} {v : Word} {a : Nat}
    (h : ∀ k < n, a ≠ byteAt p k) : (m.writeMany (byteAt p) 0 (toBytesLE n v)).read a = m.read a :=
  read_writeMany_byteAt_of_ne fun k hk => h k (by simpa using hk)

/-! ### WRITE and READ (R137, R138) -/

theorem exec_write (size : Size) (reg : BitVec 24) (s : State) :
    exec (.write size reg) s = runCommand [recvStep, storeStep size fun s => s.disp.op] (latchAddr reg s) := rfl

theorem exec_read (size : Size) (reg : BitVec 24) (s : State) :
    exec (.read size reg) s = runCommand [loadStep size, sendStep] (latchAddr reg s) := rfl

/-- A budget of `k` steps or more is `k` steps and a rest. -/
theorem exists_budget {k : Nat} {s : State} (h : k ≤ s.env.budget) : ∃ m, s.env.budget = m + k :=
  ⟨s.env.budget - k, by omega⟩

/-- A command with its two steps ready runs both. -/
theorem runCommand_two {s s₁ s₂ : State} {op₁ op₂ : State → Micro} (hd : s.disp.dstate = .exec 1)
    (hb : 2 ≤ s.env.budget) (h₁ : op₁ s = .done s₁) (h₂ : op₂ s₁ = .done s₂) :
    runCommand [op₁, op₂] s = .next { s₂ with disp.dstate := .poll } := by
  obtain ⟨m, hm⟩ := exists_budget hb
  rw [runCommand_first hd, hm, runSteps_done h₁, runSteps_done h₂, runSteps_nil]

/-- A command with its three steps ready runs them all. -/
theorem runCommand_three {s s₁ s₂ s₃ : State} {op₁ op₂ op₃ : State → Micro} (hd : s.disp.dstate = .exec 1)
    (hb : 3 ≤ s.env.budget) (h₁ : op₁ s = .done s₁) (h₂ : op₂ s₁ = .done s₂) (h₃ : op₃ s₂ = .done s₃) :
    runCommand [op₁, op₂, op₃] s = .next { s₃ with disp.dstate := .poll } := by
  obtain ⟨m, hm⟩ := exists_budget hb
  rw [runCommand_first hd, hm, runSteps_done h₁, runSteps_done h₂, runSteps_done h₃, runSteps_nil]

/-- Settles O12: the receive takes the operand, the store writes its low bytes. -/
theorem writeStoresTheOperand : Obligations.WriteStoresTheOperand := by
  intro size reg n s w ws hn hd hr hb hblock hbus hwf
  have hrecv := recvStep_of_cons (s := latchAddr reg s) hblock hr
  have hstore := storeStep_of_answers (size := size)
    (s := { latchAddr reg s with disp := { (latchAddr reg s).disp with op := w }, io := { s.io with rxq := ws } })
    (fun s => s.disp.op) hn hbus
  refine ⟨_, (exec_write size reg s).trans (runCommand_two (s := latchAddr reg s) hd hb hrecv hstore), fun k hk => ?_,
    fun a ha => ?_, rfl⟩
  · exact read_writeMany_toBytesLE hwf _ (sizeBytes_le hn) w hk
  · exact read_writeMany_toBytesLE_of_ne ha

/-- Settles O13: the load makes the value, the send appends it. -/
theorem readSendsTheValue : Obligations.ReadSendsTheValue := by
  intro size reg n s hn hd hroom hb hblock hbus
  have hload := loadStep_of_answers (s := latchAddr reg s) hn hbus
  exact ⟨_, fun k hk => extractLsb'_busValue s.mem _ n k hk, (exec_read size reg s).trans
    (runCommand_two (s := latchAddr reg s) hd hb hload (sendStep_of_room hblock hroom))⟩

/-! ### IOSET and IOCLR (R139, R140) -/

/-- What a masked update makes of a value: the mask's bits set, or cleared. -/
def combine (set : Bool) {w : Nat} (v m : BitVec w) : BitVec w := if set then v ||| m else v &&& ~~~m

theorem combine_getLsbD (set : Bool) {w i : Nat} (v m : BitVec w) (hi : i < w) :
    (combine set v m).getLsbD i = if set then v.getLsbD i || m.getLsbD i else v.getLsbD i && !m.getLsbD i := by
  cases set <;> simp [combine, hi]

/-- The update acts on each byte by itself. -/
theorem extractLsb'_combine (set : Bool) (v m : Word) {k : Nat} (hk : k < 4) :
    (combine set v m).extractLsb' (8 * k) 8 = combine set (v.extractLsb' (8 * k) 8) (m.extractLsb' (8 * k) 8) := by
  apply BitVec.eq_of_getLsbD_eq
  intro i hi
  have hlt : 8 * k + i < 32 := by omega
  simp only [BitVec.getLsbD_extractLsb', combine_getLsbD _ _ _ hi, combine_getLsbD _ _ _ hlt, hi, decide_true,
    Bool.true_and]

/-- After two updates with one mask the second alone decides. -/
theorem combine_combine (first second : Bool) {w : Nat} (v m : BitVec w) :
    combine second (combine first v m) m = combine second v m := by
  apply BitVec.eq_of_getLsbD_eq
  intro i hi
  simp only [combine_getLsbD _ _ _ hi]
  generalize v.getLsbD i = a
  generalize m.getLsbD i = b
  revert first second a b
  decide

/-- Clearing a mask's bits changes nothing exactly when none was set. -/
theorem combine_false_eq_self_iff {w : Nat} (v m : BitVec w) : combine false v m = v ↔ v &&& m = 0#w := by
  have hbit : ∀ i < w, (combine false v m).getLsbD i = v.getLsbD i ↔ (v &&& m).getLsbD i = (0#w).getLsbD i := by
    intro i hi
    rw [combine_getLsbD _ _ _ hi, BitVec.getLsbD_and, BitVec.getLsbD_zero]
    cases v.getLsbD i <;> cases m.getLsbD i <;> simp
  constructor
  · intro h
    exact BitVec.eq_of_getLsbD_eq fun i hi => (hbit i hi).1 (congrArg (BitVec.getLsbD · i) h)
  · intro h
    exact BitVec.eq_of_getLsbD_eq fun i hi => (hbit i hi).2 (congrArg (BitVec.getLsbD · i) h)

/-- The two commands as one, by what they do with the mask. -/
theorem exec_masked (set : Bool) (size : Size) (reg : BitVec 24) (s : State) :
    exec (if set then .ioset size reg else .ioclr size reg) s =
      runCommand [ioFirstStep size, ioSecondStep size, storeStep size fun s => combine set s.disp.val s.disp.op]
        (latchAddr reg s) := by
  cases set <;> rfl

theorem ioSteps_of_loadFirst {s : State} (h : s.env.loadFirst = true) (size : Size) :
    ioFirstStep size s = loadStep size s ∧ ioSecondStep size s = recvStep s := ⟨if_pos h, if_pos h⟩

theorem ioSteps_of_receiveFirst {s : State} (h : s.env.loadFirst = false) (size : Size) :
    ioFirstStep size s = recvStep s ∧ ioSecondStep size s = loadStep size s := by
  simp [ioFirstStep, ioSecondStep, h]

/-- The state after the load and the receive, in either order, with the value `v` loaded and the calls `cs` made. -/
def loadedAndReceived (w v : Word) (ws : List Word) (cs : List Call) (s : State) : State :=
  { s with disp := { s.disp with op := w, val := v }, io := { s.io with rxq := ws }, env.calls := s.env.calls ++ cs }

/-- A width of the spec: steps a and b in the order of the environment give one state. -/
theorem ioSteps_of_answers {size : Size} {n : Nat} {s : State} {w : Word} {ws : List Word}
    (hn : sizeBytes size = some n) (hblock : MayBlock s) (hr : s.io.rxq = w :: ws) (hbus : BusAnswers s.disp.addr n s) :
    ∃ mid, ioFirstStep size s = .done mid ∧ ioSecondStep size mid =
      .done (loadedAndReceived w (ofBytesLE 32 (s.mem.readMany (byteAt s.disp.addr) n)) ws
        [.memRead s.disp.addr n] s) := by
  cases horder : s.env.loadFirst with
  | true =>
    refine ⟨_, (ioSteps_of_loadFirst horder size).1.trans (loadStep_of_answers hn hbus),
      (ioSteps_of_loadFirst (by exact horder) size).2.trans ?_⟩
    exact recvStep_of_cons hblock hr
  | false =>
    refine ⟨_, (ioSteps_of_receiveFirst horder size).1.trans (recvStep_of_cons hblock hr),
      (ioSteps_of_receiveFirst (by exact horder) size).2.trans ?_⟩
    exact loadStep_of_answers hn hbus

/-- The state after a masked update of `n` bytes with the mask `w`. -/
def maskedUpdate (set : Bool) (reg : BitVec 24) (n : Nat) (w : Word) (ws : List Word) (s : State) : State :=
  let v := ofBytesLE 32 (s.mem.readMany (byteAt (periphAddr reg)) n)
  { s with
    disp := { s.disp with dstate := .poll, addr := periphAddr reg, op := w, val := v }
    io := { s.io with rxq := ws }
    mem := s.mem.writeMany (byteAt (periphAddr reg)) 0 (toBytesLE n (combine set v w))
    env.calls := s.env.calls ++ [.memRead (periphAddr reg) n,
      .memWrite (periphAddr reg) n (((combine set v w).setWidth (8 * n)).setWidth 32)] }

theorem exec_masked_of_answers (set : Bool) {size : Size} {reg : BitVec 24} {n : Nat} {s : State} {w : Word}
    {ws : List Word} (hn : sizeBytes size = some n) (hd : s.disp.dstate = .exec 1) (hr : s.io.rxq = w :: ws)
    (hb : 3 ≤ s.env.budget) (hblock : MayBlock s) (hbus : BusAnswers (periphAddr reg) n s) :
    exec (if set then .ioset size reg else .ioclr size reg) s = .next (maskedUpdate set reg n w ws s) := by
  obtain ⟨mid, hfirst, hsecond⟩ := ioSteps_of_answers (s := latchAddr reg s) hn hblock hr hbus
  have hstore := storeStep_of_answers (size := size)
    (s := loadedAndReceived w (ofBytesLE 32 (s.mem.readMany (byteAt (periphAddr reg)) n)) ws
      [.memRead (periphAddr reg) n] (latchAddr reg s))
    (fun s => combine set s.disp.val s.disp.op) hn hbus
  rw [exec_masked]
  refine (runCommand_three (s := latchAddr reg s) hd hb hfirst hsecond hstore).trans ?_
  simp [maskedUpdate, loadedAndReceived, State.note]

/-- Each byte of the register is updated by the mask's byte. -/
theorem maskedUpdate_read (set : Bool) {reg : BitVec 24} {n : Nat} {w : Word} {ws : List Word} {s : State} (hn : n ≤ 4)
    (hwf : s.mem.wf) {k : Nat} (hk : k < n) :
    (maskedUpdate set reg n w ws s).mem.read (byteAt (periphAddr reg) k) =
      combine set (s.mem.read (byteAt (periphAddr reg) k)) (w.extractLsb' (8 * k) 8) := by
  have hk4 : k < 4 := by omega
  refine (read_writeMany_toBytesLE hwf _ hn _ hk).trans ?_
  rw [extractLsb'_combine set _ _ hk4, extractLsb'_busValue _ _ _ _ hk4, if_pos hk]

theorem maskedUpdate_read_of_ne (set : Bool) {reg : BitVec 24} {n : Nat} {w : Word} {ws : List Word} {s : State}
    {a : Nat} (ha : ∀ k < n, a ≠ byteAt (periphAddr reg) k) :
    (maskedUpdate set reg n w ws s).mem.read a = s.mem.read a :=
  read_writeMany_toBytesLE_of_ne ha

/-- Settles O14: the masked update that sets. -/
theorem iosetSetsTheOperandsBits : Obligations.IosetSetsTheOperandsBits := by
  intro size reg n s w ws hn hd hr hb hblock hbus hwf
  exact ⟨maskedUpdate true reg n w ws s, _, exec_masked_of_answers true hn hd hr hb hblock hbus,
    fun k hk => extractLsb'_busValue s.mem _ n k hk, fun k hk => maskedUpdate_read true (sizeBytes_le hn) hwf hk,
    fun a ha => maskedUpdate_read_of_ne true ha, rfl⟩

/-- Settles O15: the masked update that clears. -/
theorem ioclrClearsTheOperandsBits : Obligations.IoclrClearsTheOperandsBits := by
  intro size reg n s w ws hn hd hr hb hblock hbus hwf
  exact ⟨maskedUpdate false reg n w ws s, _, exec_masked_of_answers false hn hd hr hb hblock hbus,
    fun k hk => extractLsb'_busValue s.mem _ n k hk, fun k hk => maskedUpdate_read false (sizeBytes_le hn) hwf hk,
    fun a ha => maskedUpdate_read_of_ne false ha, rfl⟩

/-- Settles O19: the second update with the same mask overrides the first bit by bit. -/
theorem twoMaskedUpdates : Obligations.TwoMaskedUpdates := by
  intro first second size reg n s m ws hn hd hr hb hblock hbus hwf
  let t := maskedUpdate first reg n m (m :: ws) s
  have hread : ∀ k < n, (maskedUpdate second reg n m ws { t with disp.dstate := .exec 1 }).mem.read
      (byteAt (periphAddr reg) k) =
        combine second (s.mem.read (byteAt (periphAddr reg) k)) (m.extractLsb' (8 * k) 8) := by
    intro k hk
    rw [maskedUpdate_read second (sizeBytes_le hn) (Memory.writeMany_wf hwf _ _ _) hk]
    refine Eq.trans ?_ (combine_combine first second _ _)
    exact congrArg (combine second · _) (maskedUpdate_read first (ws := m :: ws) (sizeBytes_le hn) hwf hk)
  refine ⟨t, _, exec_masked_of_answers first hn hd hr hb hblock hbus,
    exec_masked_of_answers second (s := { t with disp.dstate := .exec 1 }) hn rfl rfl hb hblock hbus, hread,
    fun k hk hclear => ?_, ?_, ?_⟩
  · rw [hread k hk, hclear]
    exact combine_false_eq_self_iff _ _
  · simp [t, maskedUpdate]
  · simp [t, maskedUpdate]

/-! ### Out-of-range sizes (R54, R89) -/

theorem loadStep_of_other (code : BitVec 4) (s : State) :
    loadStep (.other code) s = .done { s with disp := { s.disp with val := badSizeValue } } := rfl

theorem storeStep_of_other (code : BitVec 4) (value : State → Word) (s : State) :
    storeStep (.other code) value s = .done s := rfl

/-- An out-of-range size: steps a and b in either order consume the operand and make no call. -/
theorem ioSteps_of_other {code : BitVec 4} {s : State} {w : Word} {ws : List Word} (hblock : MayBlock s)
    (hr : s.io.rxq = w :: ws) :
    ∃ mid, ioFirstStep (.other code) s = .done mid ∧ ioSecondStep (.other code) mid =
      .done { s with disp := { s.disp with op := w, val := badSizeValue }, io := { s.io with rxq := ws } } := by
  cases horder : s.env.loadFirst with
  | true =>
    refine ⟨_, (ioSteps_of_loadFirst horder _).1.trans (loadStep_of_other code s),
      (ioSteps_of_loadFirst (by exact horder) _).2.trans ?_⟩
    exact recvStep_of_cons hblock hr
  | false =>
    exact ⟨_, (ioSteps_of_receiveFirst horder _).1.trans (recvStep_of_cons hblock hr),
      (ioSteps_of_receiveFirst (by exact horder) _).2.trans (loadStep_of_other code _)⟩

theorem exec_masked_of_other (set : Bool) {code : BitVec 4} {reg : BitVec 24} {s : State} {w : Word} {ws : List Word}
    (hd : s.disp.dstate = .exec 1) (hr : s.io.rxq = w :: ws) (hb : 3 ≤ s.env.budget) (hblock : MayBlock s) :
    exec (if set then .ioset (.other code) reg else .ioclr (.other code) reg) s = .next
      { s with
        disp := { s.disp with dstate := .poll, addr := periphAddr reg, op := w, val := badSizeValue }
        io := { s.io with rxq := ws } } := by
  obtain ⟨mid, hfirst, hsecond⟩ := ioSteps_of_other (code := code) (s := latchAddr reg s) hblock hr
  rw [exec_masked]
  exact runCommand_three (s := latchAddr reg s) hd hb hfirst hsecond (storeStep_of_other code _ _)

/-- Settles O16: no step of the four touches the bus, the receive and the send are made all the same. -/
theorem outOfRangeSizeMakesNoAccess : Obligations.OutOfRangeSizeMakesNoAccess := by
  intro code reg s w ws hd hb hblock
  have hb2 : 2 ≤ s.env.budget := by omega
  refine ⟨fun hr => ⟨?_, exec_masked_of_other true hd hr hb hblock, exec_masked_of_other false hd hr hb hblock⟩,
    fun hroom => ?_⟩
  · exact (exec_write _ reg s).trans (runCommand_two (s := latchAddr reg s) hd hb2 (recvStep_of_cons hblock hr)
      (storeStep_of_other code _ _))
  · exact (exec_read _ reg s).trans (runCommand_two (s := latchAddr reg s) hd hb2 (loadStep_of_other code _)
      (sendStep_of_room hblock hroom))

/-! ### Misaligned addresses (R57) -/

theorem loadStep_of_misaligned {size : Size} {n : Nat} {s : State} (hn : sizeBytes size = some n)
    (h : s.disp.addr.toNat % n ≠ 0) : loadStep size s = .stop .busMisaligned := by
  simp [loadStep, regRead, hn, busRead, busRefusal, h]

theorem storeStep_of_misaligned {size : Size} {n : Nat} {s : State} (value : State → Word)
    (hn : sizeBytes size = some n) (h : s.disp.addr.toNat % n ≠ 0) : storeStep size value s = .stop .busMisaligned := by
  simp [storeStep, regWrite, hn, busWrite, busRefusal, h]

/-- A command stopped at its first step. -/
theorem runCommand_stop_first {s : State} {op : State → Micro} {ops : List (State → Micro)} {r : Refusal}
    (hd : s.disp.dstate = .exec 1) (hb : 1 ≤ s.env.budget) (h : op s = .stop r) :
    runCommand (op :: ops) s = .refused r := by
  obtain ⟨m, hm⟩ := exists_budget hb
  rw [runCommand_first hd, hm, runSteps_stop h]

/-- A command stopped at its second step. -/
theorem runCommand_stop_second {s s₁ : State} {op₁ op₂ : State → Micro} {ops : List (State → Micro)} {r : Refusal}
    (hd : s.disp.dstate = .exec 1) (hb : 2 ≤ s.env.budget) (h₁ : op₁ s = .done s₁) (h₂ : op₂ s₁ = .stop r) :
    runCommand (op₁ :: op₂ :: ops) s = .refused r := by
  obtain ⟨m, hm⟩ := exists_budget hb
  rw [runCommand_first hd, hm, runSteps_done h₁, runSteps_stop h₂]

theorem exec_masked_of_misaligned (set : Bool) {size : Size} {reg : BitVec 24} {n : Nat} {s : State} {w : Word}
    {ws : List Word} (hn : sizeBytes size = some n) (h : (periphAddr reg).toNat % n ≠ 0) (hd : s.disp.dstate = .exec 1)
    (hr : s.io.rxq = w :: ws) (hb : 2 ≤ s.env.budget) (hblock : MayBlock s) :
    exec (if set then .ioset size reg else .ioclr size reg) s = .refused .busMisaligned := by
  have hb1 : 1 ≤ s.env.budget := by omega
  rw [exec_masked]
  cases horder : s.env.loadFirst with
  | true =>
    obtain ⟨hfirst, -⟩ := ioSteps_of_loadFirst (s := latchAddr reg s) horder size
    exact runCommand_stop_first (s := latchAddr reg s) hd hb1
      (hfirst.trans (loadStep_of_misaligned (s := latchAddr reg s) hn h))
  | false =>
    obtain ⟨hfirst, -⟩ := ioSteps_of_receiveFirst (s := latchAddr reg s) horder size
    exact runCommand_stop_second (s := latchAddr reg s) hd hb
      (hfirst.trans (recvStep_of_cons (s := latchAddr reg s) hblock hr))
      ((ioSteps_of_receiveFirst (by exact horder) size).2.trans (loadStep_of_misaligned hn h))

/-- Settles O18: the first access of each command is the one refused. -/
theorem misalignedAccessIsRefused : Obligations.MisalignedAccessIsRefused := by
  intro size reg n s hn h hd
  refine ⟨fun hb => ?_, fun w ws hr hb hblock => ?_⟩
  · exact (exec_read size reg s).trans
      (runCommand_stop_first (s := latchAddr reg s) hd hb (loadStep_of_misaligned hn h))
  · have hb2 : 2 ≤ s.env.budget := by omega
    refine ⟨?_, exec_masked_of_misaligned true hn h hd hr hb2 hblock,
      exec_masked_of_misaligned false hn h hd hr hb2 hblock⟩
    exact (exec_write size reg s).trans (runCommand_stop_second (s := latchAddr reg s) hd hb2
      (recvStep_of_cons hblock hr) (storeStep_of_misaligned _ hn h))

end Sys2Proof.Machine
end

section
/-! PROOFS. The interrupt commands (R141 to R143), the priority encoder and the table of a logical line (R115 to R117),
and the dispatcher that waits (R147). -/

namespace Sys2Proof.Machine

/-! ### IRQMASK and IRQUNMASK (R142, R143) -/

theorem exec_irqmask (size : Size) (reg : BitVec 24) (s : State) :
    exec (.irqmask size reg) s =
      runCommand [enterStep, fun s => .done (mask (lineOf reg) s), leaveStep] (latchAddr reg s) := rfl

theorem exec_irqunmask (size : Size) (reg : BitVec 24) (s : State) :
    exec (.irqunmask size reg) s =
      runCommand [enterStep, fun s => .done (unmask (lineOf reg) s), leaveStep] (latchAddr reg s) := rfl

/-- Settles O22: between `enter` and `leave` the mask clears the line's bit in both registers. -/
theorem irqmaskDisarmsAndDrops : Obligations.IrqmaskDisarmsAndDrops := by
  intro size reg s hd hb
  refine ⟨_, (exec_irqmask size reg s).trans (runCommand_three (s := latchAddr reg s) hd hb rfl rfl rfl),
    fun L => ?_, fun L => ?_, rfl⟩
  · exact getLsbD_and_not_lineBit s.vic.armed (lineOf reg) L
  · exact getLsbD_and_not_lineBit s.vic.pending (lineOf reg) L

/-- Settles O23: between `enter` and `leave` the unmask sets the line's bit of `ARMED`. -/
theorem irqunmaskArms : Obligations.IrqunmaskArms := by
  intro size reg s hd hb
  refine ⟨_, (exec_irqunmask size reg s).trans (runCommand_three (s := latchAddr reg s) hd hb rfl rfl rfl),
    fun L => ?_, rfl⟩
  exact getLsbD_or_lineBit s.vic.armed (lineOf reg) L

/-! ### IRQGET (R141) -/

/-- `get_pending` by the encoder alone: shifting by the sentinel clears no bit. -/
theorem getPending_eq (s : State) :
    getPending s = (prio s.vic.pending,
      { s with vic.pending := s.vic.pending &&& ~~~(1#32 <<< prio s.vic.pending) }) := by
  obtain ⟨hzero, hprio⟩ | ⟨hlt, -, -⟩ := prio_cases s.vic.pending
  · rw [getPending_of_none hzero, hprio, hzero, BitVec.zero_and, ← hzero]
  · exact getPending_of_line (L := BitVec.ofNatLT (prio s.vic.pending) hlt) rfl

/-- The state after the query of an IRQGET: the line is collected, its number in `VAL`, and `I` is as before. -/
def queried (reg : BitVec 24) (s : State) : State :=
  { s with
    vic.pending := s.vic.pending &&& ~~~(1#32 <<< prio s.vic.pending)
    disp := { s.disp with
      addr := periphAddr reg, val := BitVec.ofNat 32 (prio s.vic.pending), token := s.crit.imask } }

/-- In the critical section the query's assertion holds. -/
theorem getPendingStep_of_masked {s : State} (h : s.crit.imask = true) :
    getPendingStep s = .done { s with
      vic.pending := s.vic.pending &&& ~~~(1#32 <<< prio s.vic.pending)
      disp.val := BitVec.ofNat 32 (prio s.vic.pending) } := by
  have hcritical : needCriticalFails s = false := by simp [needCriticalFails, h]
  simp [getPendingStep, hcritical, getPending_eq]

/-- The first three steps of IRQGET are the query inside its critical section. -/
theorem exec_irqget_of_first {s : State} (hd : s.disp.dstate = .exec 1) {m : Nat} (hb : s.env.budget = m + 3)
    (size : Size) (reg : BitVec 24) :
    exec (.irqget size reg) s = runSteps [sendStep] 4 m (queried reg s) := by
  have hfirst : exec (.irqget size reg) s =
      runSteps [enterStep, getPendingStep, leaveStep, sendStep] 1 s.env.budget (latchAddr reg s) :=
    runCommand_first (s := latchAddr reg s) hd _
  rw [hfirst, hb]
  exact (runSteps_done (op := enterStep) rfl _ _ _).trans
    ((runSteps_done (getPendingStep_of_masked rfl) _ _ _).trans (runSteps_done (op := leaveStep) rfl _ _ _))

/-- Settles O21: the query collects the line, the send after `leave` replies its number. -/
theorem irqgetCollectsTheHighestLine : Obligations.IrqgetCollectsTheHighestLine := by
  intro size reg s hd hroom hb hblock
  obtain ⟨m, hm⟩ := exists_budget hb
  refine ⟨prio s.vic.pending, ?_, ?_⟩
  · exact (prio_cases s.vic.pending).imp id id
  · rw [exec_irqget_of_first hd (m := m + 1) hm, runSteps_done (sendStep_of_room (s := queried reg s) hblock hroom),
      runSteps_nil]
    rfl

/-- An IRQGET at its last step sends `VAL`. -/
theorem exec_irqget_of_send {s : State} (hd : s.disp.dstate = .exec 4) (hb : 1 ≤ s.env.budget) (hblock : MayBlock s)
    (hroom : s.io.txq.length < s.env.params.txDepth) (size : Size) (reg : BitVec 24) :
    exec (.irqget size reg) s = .next { s with
      disp := { s.disp with dstate := .poll, addr := periphAddr reg }
      io.txq := s.io.txq ++ [s.disp.val] } := by
  obtain ⟨m, hm⟩ := exists_budget hb
  have hlast : exec (.irqget size reg) s = runSteps [sendStep] 4 s.env.budget (latchAddr reg s) := by
    show runCommand _ _ = _
    simp [runCommand, stepNumber, hd]
  rw [hlast, hm, runSteps_done (sendStep_of_room (s := latchAddr reg s) hblock hroom), runSteps_nil]
  rfl

/-- A handler that runs leaves its line pending. -/
theorem fire_pending (L : Line) (s : State) : (fire L s).vic.pending.getLsbD L.toNat = true := by
  rw [fire_vic, getLsbD_or_lineBit, decide_eq_true rfl, Bool.or_true]

/-- Settles O33: the reply stands in `VAL` before the handler runs, and the send does not look at `PENDING`. -/
theorem lateFireMissesTheReply : Obligations.LateFireMissesTheReply := by
  intro size reg s L hd hb hmask hf hroom harmed
  let t : State := { queried reg s with disp.dstate := .exec 4 }
  have hquery : exec (.irqget size reg) s = .next t := exec_irqget_of_first hd (m := 0) hb size reg
  have hfire : fireTurn L t = fire L t := fireTurn_of_armed harmed hmask hf
  have hsend := exec_irqget_of_send (s := { fire L t with env.budget := 1 }) rfl le_rfl (.inr hmask) hroom size reg
  refine ⟨t, ?_⟩
  rw [hfire]
  exact ⟨_, hquery, rfl, hmask, rfl, hsend, rfl, fire_pending L t, rfl⟩

/-! ### The priority encoder (R115, R117) -/

/-- The number of the highest bit set is the base-2 logarithm. -/
theorem log2_eq_of_highest {p : Word} {k : Nat} (hset : p.getLsbD k = true)
    (habove : ∀ i, k < i → p.getLsbD i = false) :
    p.toNat.log2 = k := by
  have hge : 2 ^ k ≤ p.toNat := Nat.ge_two_pow_of_testBit (by rwa [BitVec.testBit_toNat])
  have hlt : p.toNat < 2 ^ (k + 1) := Nat.lt_pow_two_of_testBit _ fun i hi => by
    rw [BitVec.testBit_toNat]
    exact habove i hi
  have hne : p.toNat ≠ 0 := (Nat.lt_of_lt_of_le (Nat.two_pow_pos k) hge).ne'
  exact (Nat.log2_eq_iff hne).2 ⟨hge, hlt⟩

/-- The leading zeros of a word that is not zero count down from its highest bit. -/
theorem log2_eq_sub_clz {p : Word} (hp : p ≠ 0#32) : p.toNat.log2 = 31 - p.clz.toNat := by
  have hge : 2 ^ (31 - p.clz.toNat) ≤ p.toNat := BitVec.two_pow_sub_clz_le_toNat_of_ne_zero (by decide) hp
  have hlt : p.toNat < 2 ^ (32 - p.clz.toNat) := BitVec.toNat_lt_two_pow_sub_clz
  have hclz : p.clz.toNat < 32 := BitVec.clz_lt_iff_ne_zero.2 hp
  have hsucc : 32 - p.clz.toNat = 31 - p.clz.toNat + 1 := by omega
  have hne : p.toNat ≠ 0 := (Nat.lt_of_lt_of_le (Nat.two_pow_pos _) hge).ne'
  exact (Nat.log2_eq_iff hne).2 ⟨hge, hsucc ▸ hlt⟩

/-- Settles O27: the highest bit set is the logarithm, which the leading zeros count down to. -/
theorem priorityEncoder : Obligations.PriorityEncoder := by
  refine ⟨rfl, fun p hp => ?_, fun s => rfl⟩
  obtain ⟨hzero, -⟩ | ⟨-, hset, habove⟩ := prio_cases p
  · exact absurd hzero hp
  · have hlog : prio p = p.toNat.log2 := (log2_eq_of_highest hset habove).symm
    exact ⟨hlog, hlog.trans (log2_eq_sub_clz hp), hset, habove⟩

/-! ### The states of a line (R24, R116) -/

theorem lineState_congr {v v' : Vic} {L : Line} (harmed : v'.armed.getLsbD L.toNat = v.armed.getLsbD L.toNat)
    (hpending : v'.pending.getLsbD L.toNat = v.pending.getLsbD L.toNat) : lineState v' L = lineState v L := by
  rw [lineState, lineState, harmed, hpending]

theorem lineState_eq_pending_iff (v : Vic) (L : Line) :
    lineState v L = .pending ↔ v.armed.getLsbD L.toNat = true ∧ v.pending.getLsbD L.toNat = true := by
  unfold lineState
  cases v.armed.getLsbD L.toNat <;> cases v.pending.getLsbD L.toNat <;> simp

theorem lineState_eq_armed_iff (v : Vic) (L : Line) :
    lineState v L = .armed ↔ v.armed.getLsbD L.toNat = true ∧ v.pending.getLsbD L.toNat = false := by
  unfold lineState
  cases v.armed.getLsbD L.toNat <;> cases v.pending.getLsbD L.toNat <;> simp

theorem lineState_eq_masked_iff (v : Vic) (L : Line) :
    lineState v L = .masked ↔ v.armed.getLsbD L.toNat = false ∧ v.pending.getLsbD L.toNat = false := by
  unfold lineState
  cases v.armed.getLsbD L.toNat <;> cases v.pending.getLsbD L.toNat <;> simp

/-- The three reachable states of a line, by its bits. -/
theorem lineState_cases {v : Vic} {L : Line} (h : lineState v L ≠ .unreachable) :
    (lineState v L = .masked ∧ v.armed.getLsbD L.toNat = false ∧ v.pending.getLsbD L.toNat = false) ∨
    (lineState v L = .armed ∧ v.armed.getLsbD L.toNat = true ∧ v.pending.getLsbD L.toNat = false) ∨
    (lineState v L = .pending ∧ v.armed.getLsbD L.toNat = true ∧ v.pending.getLsbD L.toNat = true) := by
  revert h
  unfold lineState
  cases v.armed.getLsbD L.toNat <;> cases v.pending.getLsbD L.toNat <;> simp

theorem lineState_unmask {s : State} {L : Line} (h : lineState s.vic L ≠ .unreachable) :
    lineState (unmask L s).vic L = if lineState s.vic L = .pending then .pending else .armed := by
  have harmed : (unmask L s).vic.armed.getLsbD L.toNat = true := by
    rw [unmask_vic, getLsbD_or_lineBit, decide_eq_true rfl, Bool.or_true]
  rcases lineState_cases h with ⟨hl, -, hp⟩ | ⟨hl, -, hp⟩ | ⟨hl, -, hp⟩
  · rw [hl]; exact (lineState_eq_armed_iff _ L).2 ⟨harmed, hp⟩
  · rw [hl]; exact (lineState_eq_armed_iff _ L).2 ⟨harmed, hp⟩
  · rw [hl]; exact (lineState_eq_pending_iff _ L).2 ⟨harmed, hp⟩

theorem lineState_mask (L : Line) (s : State) : lineState (mask L s).vic L = .masked := by
  refine (lineState_eq_masked_iff _ L).2 ⟨?_, ?_⟩
  · rw [mask_vic, getLsbD_and_not_lineBit, decide_eq_false (by simp), Bool.and_false]
  · rw [mask_vic, getLsbD_and_not_lineBit, decide_eq_false (by simp), Bool.and_false]

theorem lineState_fire {s : State} {L : Line} (h : lineState s.vic L ≠ .unreachable)
    (hm : lineState s.vic L ≠ .masked) :
    lineState (fire L s).vic L = .pending := by
  have harmed : s.vic.armed.getLsbD L.toNat = true := by
    rcases lineState_cases h with ⟨hl, -, -⟩ | ⟨-, ha, -⟩ | ⟨-, ha, -⟩
    · exact absurd hl hm
    · exact ha
    · exact ha
  exact (lineState_eq_pending_iff _ L).2 ⟨harmed, fire_pending L s⟩

theorem lineState_vicReset {s : State} {L : Line} (h : lineState s.vic L ≠ .unreachable) :
    lineState (vicReset s).vic L = if lineState s.vic L = .pending then .armed else lineState s.vic L := by
  have hp : (vicReset s).vic.pending.getLsbD L.toNat = false := BitVec.getLsbD_zero
  rcases lineState_cases h with ⟨hl, ha, -⟩ | ⟨hl, ha, -⟩ | ⟨hl, ha, -⟩
  · rw [hl]; exact (lineState_eq_masked_iff _ L).2 ⟨ha, hp⟩
  · rw [hl]; exact (lineState_eq_armed_iff _ L).2 ⟨ha, hp⟩
  · rw [hl]; exact (lineState_eq_armed_iff _ L).2 ⟨ha, hp⟩

/-- The line that `get_pending` returns was the highest pending one and stays armed. -/
theorem lineState_getPending {s : State} {L : Line} (h : lineState s.vic L ≠ .unreachable)
    (hL : (getPending s).1 = L.toNat) :
    lineState s.vic L = .pending ∧ lineState (getPending s).2.vic L = .armed ∧
      ∀ H : Line, L.toNat < H.toNat → lineState s.vic H ≠ .pending := by
  have hprio : prio s.vic.pending = L.toNat := hL
  have hlt : L.toNat < 32 := L.isLt
  obtain ⟨-, hnone⟩ | ⟨-, hset, habove⟩ := prio_cases s.vic.pending
  · omega
  · rw [hprio] at hset habove
    have harmed : s.vic.armed.getLsbD L.toNat = true := by
      rcases lineState_cases h with ⟨-, -, hp⟩ | ⟨-, ha, -⟩ | ⟨-, ha, -⟩
      · exact absurd (hp.symm.trans hset) Bool.false_ne_true
      · exact ha
      · exact ha
    refine ⟨(lineState_eq_pending_iff _ L).2 ⟨harmed, hset⟩, ?_, fun H hH hpend => ?_⟩
    · rw [getPending_of_line hprio]
      refine (lineState_eq_armed_iff _ L).2 ⟨harmed, ?_⟩
      rw [getLsbD_and_not_lineBit, decide_eq_false (by simp), Bool.and_false]
    · obtain ⟨-, hp⟩ := (lineState_eq_pending_iff _ H).1 hpend
      exact absurd ((habove _ hH).symm.trans hp) Bool.false_ne_true

/-- Every line but the one returned is as it was. -/
theorem lineState_getPending_of_ne {s : State} {L : Line} (hL : (getPending s).1 ≠ L.toNat) :
    lineState (getPending s).2.vic L = lineState s.vic L := by
  by_cases hp : s.vic.pending = 0#32
  · rw [getPending_of_none hp]
  · obtain ⟨K, hK, -, -⟩ := prio_eq_line_of_ne_zero hp
    have hne : L ≠ K := fun h => hL (h ▸ hK)
    rw [getPending_of_line hK]
    refine lineState_congr rfl ?_
    rw [getLsbD_and_not_lineBit, decide_eq_true hne, Bool.and_true]

/-- Settles O28, row by row of the table. -/
theorem lineTransitionTable : Obligations.LineTransitionTable := by
  intro s L h
  refine ⟨lineState_unmask h, rfl, lineState_mask L s, rfl, fun hm => ?_, lineState_fire h, rfl,
    lineState_getPending h, lineState_getPending_of_ne, ?_, lineState_vicReset h, rfl⟩
  · obtain ⟨ha, -⟩ := (lineState_eq_masked_iff _ L).1 hm
    exact ⟨by simp only [fireEnabled, ha, Bool.false_and], fireTurn_of_gated (.inl ha)⟩
  · rw [getPending_eq]

/-! ### Waiting (R147) -/

/-- A command whose next step holds stays at that step. -/
theorem runCommand_hold {s : State} {op : State → Micro} {ops rest : List (State → Micro)} {k : Nat}
    (hk : stepNumber s = k) (hops : ops.drop (k - 1) = op :: rest) (hb : 1 ≤ s.env.budget) (hop : op s = .hold) :
    runCommand ops s = .next { s with disp.dstate := .exec (stepNumber s) } := by
  obtain ⟨m, hm⟩ := exists_budget hb
  rw [runCommand, hk, hops, hm, runSteps_hold hop]

/-- What a waiting command waits for: a word in a receive, or room in a send. -/
theorem held_cases {s : State} (h : held s = true) :
    (∃ k, s.disp.dstate = .exec k) ∧ ((atReceive s = true ∧ s.io.rxq = []) ∨
      (atSend s = true ∧ ¬ s.io.txq.length < s.env.params.txDepth)) := by
  unfold held at h
  split at h
  · rename_i k hd
    exact ⟨⟨k, hd⟩, by simpa using h⟩
  · cases h

theorem exec_masked_of_atReceive (set : Bool) {size : Size} {reg : BitVec 24} {s : State}
    (hk : stepNumber s = if s.env.loadFirst then 2 else 1) (hr : s.io.rxq = []) (hblock : MayBlock s)
    (hb : 1 ≤ s.env.budget) :
    exec (if set then .ioset size reg else .ioclr size reg) s =
      .next { latchAddr reg s with disp.dstate := .exec (stepNumber s) } := by
  have hhold := recvStep_of_nil (s := latchAddr reg s) hblock hr
  rw [exec_masked]
  cases horder : s.env.loadFirst with
  | true =>
    exact runCommand_hold (s := latchAddr reg s) (hk.trans (if_pos horder)) rfl hb
      ((ioSteps_of_loadFirst (by exact horder) size).2.trans hhold)
  | false =>
    exact runCommand_hold (s := latchAddr reg s) (hk.trans (if_neg (by simp [horder]))) rfl hb
      ((ioSteps_of_receiveFirst (by exact horder) size).1.trans hhold)

/-- A command at its receive, with no word there, stays at it. -/
theorem exec_of_atReceive {s : State} (h : atReceive s = true) (hr : s.io.rxq = []) (hblock : MayBlock s)
    (hb : 1 ≤ s.env.budget) :
    exec (decodeCommandUnder s.env.params.modeCodes s.disp.cw) s =
      .next { latchAddr (regField s.disp.cw) s with disp.dstate := .exec (stepNumber s) } := by
  obtain ⟨-, hreg⟩ := decodeCommandUnder_spec s.env.params.modeCodes s.disp.cw
  rw [← hreg]
  unfold atReceive at h
  split at h <;> rename_i hi
  · rw [hi]
    exact runCommand_hold (s := latchAddr _ s) (of_decide_eq_true h) rfl hb (recvStep_of_nil hblock hr)
  · rw [hi]
    exact exec_masked_of_atReceive true (of_decide_eq_true h) hr hblock hb
  · rw [hi]
    exact exec_masked_of_atReceive false (of_decide_eq_true h) hr hblock hb
  · cases h

/-- A command at its send, with no room there, stays at it. -/
theorem exec_of_atSend {s : State} (h : atSend s = true) (hroom : ¬ s.io.txq.length < s.env.params.txDepth)
    (hblock : MayBlock s) (hb : 1 ≤ s.env.budget) :
    exec (decodeCommandUnder s.env.params.modeCodes s.disp.cw) s =
      .next { latchAddr (regField s.disp.cw) s with disp.dstate := .exec (stepNumber s) } := by
  obtain ⟨-, hreg⟩ := decodeCommandUnder_spec s.env.params.modeCodes s.disp.cw
  rw [← hreg]
  unfold atSend at h
  split at h <;> rename_i hi
  · rw [hi]
    exact runCommand_hold (s := latchAddr _ s) (of_decide_eq_true h) rfl hb (sendStep_of_full hblock hroom)
  · rw [hi]
    exact runCommand_hold (s := latchAddr _ s) (of_decide_eq_true h) rfl hb (sendStep_of_full hblock hroom)
  · cases h

/-- The latch of a command in flight is written with the value it holds. -/
theorem latchAddr_of_latched {s : State} (h : s.disp.addr = periphAddr (regField s.disp.cw)) :
    latchAddr (regField s.disp.cw) s = s := by
  rw [latchAddr, ← h]

/-- Settles O20: the command's next step is the one that holds, and its latch already holds its address. -/
theorem heldDispatcherWaits : Obligations.HeldDispatcherWaits := by
  rintro s n ⟨-, -, -, -, -, -, -, haddr, -⟩ hheld hblock
  obtain ⟨⟨k, hd⟩, hwait⟩ := held_cases hheld
  cases n with
  | zero =>
    refine ⟨k, ?_, fun h => absurd rfl h, fun _ => hd⟩
    rw [← hd]; rfl
  | succ m =>
    refine ⟨stepNumber s, ?_, fun _ => rfl, fun h => absurd h (Nat.succ_ne_zero m)⟩
    let u : State := { s with env.budget := m + 1 }
    have hexec : exec (decodeCommandUnder u.env.params.modeCodes u.disp.cw) u =
        .next { latchAddr (regField u.disp.cw) u with disp.dstate := .exec (stepNumber u) } := by
      rcases hwait with ⟨hat, hr⟩ | ⟨hat, hroom⟩
      · exact exec_of_atReceive (s := u) hat hr hblock (Nat.succ_pos m)
      · exact exec_of_atSend (s := u) hat hroom hblock (Nat.succ_pos m)
    rw [latchAddr_of_latched (s := u) haddr] at hexec
    rw [dispatcherTurn_of_exec hd]
    exact hexec

end Sys2Proof.Machine
end

section
/-! PROOFS. `hard_reset` run to its end (R150): the config space byte by byte (R32). -/

namespace Sys2Proof.Machine

theorem putBytes_getD {blob bs : List Byte} {off : Nat} (h : off ≤ blob.length) (i : Nat) (x : Byte) :
    (putBytes blob off bs).getD i x =
      if off ≤ i ∧ i < off + bs.length then bs.getD (i - off) x else blob.getD i x := by
  have htake : (blob.take off).length = off := by rw [List.length_take]; omega
  unfold putBytes
  by_cases hlow : i < off
  · rw [if_neg (by omega), List.getD_append _ _ _ _ (by rw [List.length_append, htake]; omega),
      List.getD_append _ _ _ _ (by omega)]
    simp [List.getD_eq_getElem?_getD, hlow]
  · by_cases hin : i < off + bs.length
    · rw [if_pos (by omega), List.getD_append _ _ _ _ (by rw [List.length_append, htake]; omega),
        List.getD_append_right _ _ _ _ (by omega), htake]
    · rw [if_neg (by omega), List.getD_append_right _ _ _ _ (by rw [List.length_append, htake]; omega)]
      simp only [List.getD_eq_getElem?_getD, List.getElem?_drop, List.length_append, htake]
      congr 2
      omega

theorem toBytesLE_getD {n w k : Nat} (v : BitVec w) (hk : k < n) (x : Byte) :
    (toBytesLE n v).getD k x = v.extractLsb' (8 * k) 8 := by
  rw [List.getD_eq_getElem _ _ (by simpa using hk), toBytesLE_getElem]

/-- The blob that `hard_reset` builds (R150 steps 1 and 4). -/
def builtConfig (s : State) : List Byte :=
  populate s.env.capacity s.env.params.sizeMax s.env.params.segMax (List.replicate cfgSize 0#8)

theorem builtConfig_length (s : State) : (builtConfig s).length = 60 :=
  populate_length _ _ _ List.length_replicate

/-- The four bytes of `blk_size`: 512 has one byte that is not zero, the second. -/
theorem blkSize_byte {k : Nat} (hk : k < 4) : (512#32).extractLsb' (8 * k) 8 = if k = 1 then 0x02#8 else 0x00#8 := by
  interval_cases k <;> rfl

/-- The layout table of R32. -/
theorem builtConfig_getD (s : State) {off : Nat} (hoff : off < 60) :
    (builtConfig s).getD off 0xFF#8 =
      if off < 8 then s.env.capacity.extractLsb' (8 * off) 8
      else if off < 12 then s.env.params.sizeMax.extractLsb' (8 * (off - 8)) 8
      else if off < 16 then s.env.params.segMax.extractLsb' (8 * (off - 12)) 8
      else if off = 21 then 0x02#8
      else 0x00#8 := by
  have hzero : (List.replicate 60 0#8).getD off 0xFF#8 = 0x00#8 := by
    rw [List.getD_eq_getElem _ _ (by simpa using hoff), List.getElem_replicate]
  have hsize : cfgSize = 60 := rfl
  unfold builtConfig populate
  rw [putBytes_getD (by simp [putBytes, hsize]), putBytes_getD (by simp [putBytes, hsize]),
    putBytes_getD (by simp [putBytes, hsize]), putBytes_getD (by simp)]
  simp only [toBytesLE_length, hsize, hzero]
  rcases (by omega : off < 8 ∨ (8 ≤ off ∧ off < 12) ∨ (12 ≤ off ∧ off < 16) ∨ (16 ≤ off ∧ off < 20) ∨
      (20 ≤ off ∧ off < 24) ∨ 24 ≤ off) with h | ⟨h, h'⟩ | ⟨h, h'⟩ | ⟨h, h'⟩ | ⟨h, h'⟩ | h
  · simp [show ¬ 20 ≤ off by omega, show ¬ 12 ≤ off by omega, show ¬ 8 ≤ off by omega, h,
      toBytesLE_getD s.env.capacity h, -List.getD_eq_getElem?_getD]
  · have hk : off - 8 < 4 := by omega
    simp [show ¬ 20 ≤ off by omega, show ¬ 12 ≤ off by omega, show ¬ off < 8 by omega, h, h',
      toBytesLE_getD s.env.params.sizeMax hk, -List.getD_eq_getElem?_getD]
  · have hk : off - 12 < 4 := by omega
    simp [show ¬ 20 ≤ off by omega, show ¬ off < 12 by omega, show ¬ off < 8 by omega, h, h',
      toBytesLE_getD s.env.params.segMax hk, -List.getD_eq_getElem?_getD]
  · simp [show ¬ 20 ≤ off by omega, show ¬ off < 16 by omega, show ¬ off < 12 by omega, show ¬ off < 8 by omega,
      show ¬ off = 21 by omega]
  · have hk : off - 20 < 4 := by omega
    have hbyte : off - 20 = 1 ↔ off = 21 := by omega
    simp [show ¬ off < 16 by omega, show ¬ off < 12 by omega, show ¬ off < 8 by omega, h, h',
      toBytesLE_getD 512#32 hk, blkSize_byte hk, hbyte, -List.getD_eq_getElem?_getD]
  · simp [show ¬ off < 24 by omega, show ¬ off < 16 by omega, show ¬ off < 12 by omega, show ¬ off < 8 by omega,
      show ¬ off = 21 by omega]

/-- The state after a `hard_reset`. -/
def afterHardReset (s : State) : State :=
  { s with
    blk := { s.blk with bstate := .idle, cfg := builtConfig s, cfgBuilt := true, cap := s.env.capacity }
    env.calls := s.env.calls ++ [.storageInit, .storageCapacity s.env.capacity] }

theorem runHardReset_of_idle {s : State} (h : s.blk.bstate = .idle) (n : Nat) : runHardReset n s = s := by
  induction n with
  | zero => rfl
  | succ n ih =>
    have hstep : hardResetStep s = s := by simp [hardResetStep, h]
    rw [runHardReset, hstep, ih]

/-- Its five steps, from the first; the rest of the turn finds the backend idle. -/
theorem runHardReset_of_first {s : State} (h : s.blk.bstate = .hardReset 1) (n : Nat) :
    runHardReset (n + 5) s = afterHardReset s := by
  have hfive : runHardReset (n + 5) s = runHardReset n (afterHardReset s) := by
    simp only [runHardReset, hardResetStep, h]
    simp [afterHardReset, builtConfig, State.note]
  rw [hfive, runHardReset_of_idle rfl]

/-- Settles O37: the five steps give one state, whose blob is the layout table. -/
theorem hardResetBuildsTheConfigSpace : Obligations.HardResetBuildsTheConfigSpace := by
  intro s n hf ht hn hb
  obtain ⟨m, rfl⟩ : ∃ m, n = m + 5 := ⟨n - 5, by omega⟩
  have hstep : step s = .next (afterHardReset (turnTaken s)) := by
    rw [step_of_backend hf ht, ← runHardReset_of_first (s := turnTaken s) hb m]
    simp [backendTurn, hb]
  exact ⟨_, hstep, builtConfig_length _, fun off hoff => builtConfig_getD (turnTaken s) hoff, rfl⟩

end Sys2Proof.Machine
end

section
/-! PROOFS. A block request from its header on (R152 to R164): each descriptor's steps as one equation of the whole
state, then requests of one data and one status descriptor, with the storage call succeeding and failing. -/

namespace Sys2Proof.Machine

/-! ### Storage calls (R14) -/

/-- The draws made once the next status is taken: one more when none is scripted. -/
def statusDraws (env : Environment) : Nat :=
  match env.statuses with
  | _ :: _ => env.draws
  | [] => env.draws + 1

/-- Taking a status uses up a scripted one, or a draw. -/
theorem statusTaken_eq (s : State) :
    statusTaken s = { s with env := { s.env with statuses := s.env.statuses.tail, draws := statusDraws s.env } } := by
  unfold statusTaken statusDraws
  cases hs : s.env.statuses with
  | nil => simp [State.drawn, hs]
  | cons st sts => rfl

/-- The environment after a storage call: its status taken, `n` draws made in all, the call recorded. -/
def storageEnv (c : Call) (n : Nat) (s : State) : Environment :=
  { s.env with statuses := s.env.statuses.tail, draws := n, calls := s.env.calls ++ [c] }

/-- A read of the medium fills the buffer, with the sectors' bytes when it succeeds. -/
theorem readSectors_eq (off : BitVec 64) (cnt : Nat) (ptr : Word) (s : State) :
    ∃ bs n, (readSectors off cnt ptr s).2 =
        { s with
          mem := s.mem.writeMany (byteAt ptr) 0 bs
          env := storageEnv (.readSectors off cnt ptr (nextStatus s)) n s } ∧
      bs.length = cnt * 512 ∧
      (nextStatus s = 0 → bs = s.disk.readMany (diskAt off) (cnt * 512) ∧ n = statusDraws s.env) := by
  have hk := statusTaken_eq s
  by_cases hst : nextStatus s = 0
  · refine ⟨_, _, ?_, Memory.readMany_length _ _ _, fun _ => ⟨rfl, rfl⟩⟩
    simp [readSectors, hst, hk, storageEnv, State.note]
  · refine ⟨failedBytes ((statusTaken s).note (.readSectors off cnt ptr (nextStatus s))) (cnt * 512),
      statusDraws s.env + cnt * 512, ?_,
      by simp [failedBytes], fun h => absurd h hst⟩
    simp [readSectors, hst, hk, storageEnv, State.note, State.drawn]

/-- A write of the medium fills the sectors, with the buffer's bytes when it succeeds. -/
theorem writeSectors_eq (off : BitVec 64) (cnt : Nat) (ptr : Word) (s : State) :
    ∃ bs n, (writeSectors off cnt ptr s).2 =
        { s with
          disk := s.disk.writeMany (diskAt off) 0 bs
          env := storageEnv (.writeSectors off cnt ptr (nextStatus s)) n s } ∧
      bs.length = cnt * 512 ∧
      (nextStatus s = 0 → bs = s.mem.readMany (byteAt ptr) (cnt * 512) ∧ n = statusDraws s.env) := by
  have hk := statusTaken_eq s
  by_cases hst : nextStatus s = 0
  · refine ⟨_, _, ?_, Memory.readMany_length _ _ _, fun _ => ⟨rfl, rfl⟩⟩
    simp [writeSectors, hst, hk, storageEnv, State.note]
  · refine ⟨failedBytes ((statusTaken s).note (.writeSectors off cnt ptr (nextStatus s))) (cnt * 512),
      statusDraws s.env + cnt * 512, ?_,
      by simp [failedBytes], fun h => absurd h hst⟩
    simp [writeSectors, hst, hk, storageEnv, State.note, State.drawn]

/-! ### The steps of a descriptor (R152 step 3) -/

/-- A request in progress, about to fetch its next descriptor. -/
def AtNext (s : State) : Prop := s.fatal = false ∧ s.blk.bstate = .job .next

/-- The state with the descriptor `d` fetched and got, and `ds` left in the chain. -/
def descGot (d : Desc) (ds : List Desc) (s : State) : State :=
  { s with blk := { s.blk with job := { s.blk.job with cur := d, rest := ds }, desc := d, bstate := .job .act } }

@[simp] theorem nextStatus_descGot (d : Desc) (ds : List Desc) (s : State) :
    nextStatus (descGot d ds s) = nextStatus s := rfl

theorem runJob_of_next {s : State} (hs : AtNext s) {d : Desc} {ds : List Desc} (hr : s.blk.job.rest = d :: ds)
    (n : Nat) : runJob (n + 2) s = runJob n (descGot d ds s) := by
  obtain ⟨hf, hb⟩ := hs
  have hnext : jobStep s = nextStep s := by simp [jobStep, hf, hb]
  have hfetched : nextStep s =
      { s with blk := { s.blk with job := { s.blk.job with cur := d, rest := ds }, bstate := .job .desc } } := by
    simp [nextStep, hr]
  have hgot : jobStep (nextStep s) = descGot d ds s := by
    rw [hfetched]
    simp [jobStep, hf, getDesc, descGot]
  rw [runJob, runJob, hnext, hgot]

theorem jobStep_of_act {s : State} (hf : s.fatal = false) (hb : s.blk.bstate = .job .act) : jobStep s = actStep s := by
  simp [jobStep, hf, hb]

/-- The state after a status descriptor (R162). -/
def statusDone (d : Desc) (ds : List Desc) (s : State) : State :=
  { s with
    mem := s.mem.write d.ptr.toNat s.blk.err
    blk := { s.blk with job := { s.blk.job with cur := d, rest := ds }, desc := d, bstate := .job .next }
    env.calls := s.env.calls ++ [.guestWrite d.ptr s.blk.err] }

theorem byteAt_zero (p : Word) : byteAt p 0 = p.toNat := by
  rw [byteAt_eq, Nat.add_zero, Nat.mod_eq_of_lt p.isLt]

/-- A status descriptor takes three steps. -/
theorem runJob_of_status {s : State} (hs : AtNext s) {d : Desc} {ds : List Desc} (hr : s.blk.job.rest = d :: ds)
    (hc : classify s.env.params.statusLen d.len = .status) (n : Nat) :
    runJob (n + 3) s = runJob n (statusDone d ds s) := by
  have hact : jobStep (descGot d ds s) = statusStep d (descGot d ds s) := by
    rw [jobStep_of_act (s := descGot d ds s) hs.1 rfl]
    simp [actStep, descGot, hc]
  have hdone : statusStep d (descGot d ds s) = statusDone d ds s := by
    simp [statusStep, guestWriteByte, descGot, statusDone, State.note, byteAt_zero]
  rw [runJob_of_next hs hr, runJob, hact, hdone]

/-- A data descriptor takes four steps. -/
theorem runJob_of_data {s : State} (hs : AtNext s) {d : Desc} {ds : List Desc} (hr : s.blk.job.rest = d :: ds)
    (hc : classify s.env.params.statusLen d.len = .data) (n : Nat) :
    runJob (n + 4) s = runJob n (accountStep (dataStep d (descGot d ds s))) := by
  have hact : jobStep (descGot d ds s) = dataStep d (descGot d ds s) := by
    rw [jobStep_of_act (s := descGot d ds s) hs.1 rfl]
    simp [actStep, descGot, hc]
  have hfatal : (dataStep d (descGot d ds s)).fatal = false := by
    rcases transfer_cases d (descGot d ds s) with ⟨-, h⟩ | ⟨-, h⟩ | ⟨-, -, h⟩
    · obtain ⟨bs, e, he, -⟩ := readSectors_frame (descGot d ds s).blk.soff (sectorCount d.len) d.ptr (descGot d ds s)
      rw [dataStep, h, he]
      exact hs.1
    · obtain ⟨bs, e, he, -⟩ := writeSectors_frame (descGot d ds s).blk.soff (sectorCount d.len) d.ptr (descGot d ds s)
      rw [dataStep, h, he]
      exact hs.1
    · rw [dataStep, h]
      exact hs.1
  have haccount : jobStep (dataStep d (descGot d ds s)) = accountStep (dataStep d (descGot d ds s)) := by
    rw [jobStep, if_neg (by rw [hfatal]; exact Bool.false_ne_true)]
    rfl
  rw [show n + 4 = n + 2 + 2 from rfl, runJob_of_next hs hr, runJob, runJob, hact, haccount]

/-- The state after the push and the notification (R164). -/
def requestDone (s : State) : State :=
  { s with
    blk := { s.blk with bstate := .job .fetch }
    env.calls := s.env.calls ++ [.pushCompleted s.blk.queue s.blk.job.id s.blk.job.written, .notifyHost s.blk.queue] }

theorem runJob_of_fetch {s : State} (hb : s.blk.bstate = .job .fetch) (n : Nat) : runJob n s = s := by
  induction n with
  | zero => rfl
  | succ n ih =>
    have hstep : jobStep s = s := by simp [jobStep, hb]
    rw [runJob, hstep, ih]

/-- The end of a chain takes three steps; the rest of the turn finds the request completed. -/
theorem runJob_of_end {s : State} (hs : AtNext s) (hr : s.blk.job.rest = []) (n : Nat) :
    runJob (n + 3) s = requestDone s := by
  obtain ⟨hf, hb⟩ := hs
  have hthree : runJob (n + 3) s = runJob n (requestDone s) := by
    simp [runJob, jobStep, hf, hb, nextStep, hr, pushStep, pushCompleted, notifyStep, notifyHost, State.note,
      requestDone]
  rw [hthree, runJob_of_fetch rfl]

/-! ### A data descriptor by the type of its request (R157 to R160) -/

/-- The state after a data descriptor, the memories aside: the status `st`, the bytes written back so far `w`, the error
byte `e`, and the environment. -/
def dataDone (d : Desc) (ds : List Desc) (st w : Nat) (e : Byte) (env : Environment) (s : State) : State :=
  { s with
    blk := { s.blk with
      job := { s.blk.job with cur := d, rest := ds, written := w }, desc := d, bstate := .job .next, st := st
      soff := s.blk.soff + BitVec.ofNat 64 (sectorCount d.len), err := e }
    env := env }

/-- What a failed storage call makes of the error byte is not zero. -/
theorem or_errValue_ne_zero (e : Byte) (n : Nat) : e ||| errValue n ≠ 0#8 := by
  intro h
  exact errValue_ne_zero n (BitVec.or_eq_zero_iff.1 h).2

/-- The error byte after a storage call of status `st`: as before on success, never zero on failure (R160). -/
def ErrAfter (st : Nat) (before after : Byte) : Prop := (st = 0 → after = before) ∧ (st ≠ 0 → after ≠ 0#8)

/-- Accumulating a status: the error byte, and the draws, which success leaves alone. -/
theorem accumulate_eq (st : Nat) (s : State) :
    ∃ e n, accumulate st s = { s with blk := { s.blk with err := e }, env := { s.env with draws := n } } ∧
      ErrAfter st s.blk.err e ∧ (st = 0 → n = s.env.draws) := by
  obtain ⟨e, n, h, hzero, hne⟩ := accumulate_frame st s
  exact ⟨e, n, h, ⟨fun h => (hzero h).1, fun h => hne h ▸ or_errValue_ne_zero _ _⟩, fun h => (hzero h).2⟩

theorem transfer_of_in {s : State} (hty : s.blk.rtype = 0#32) (d : Desc) :
    transfer d s = readSectors s.blk.soff (sectorCount d.len) d.ptr s := if_pos hty

theorem transfer_of_out {s : State} (hty : s.blk.rtype = 1#32) (d : Desc) :
    transfer d s = writeSectors s.blk.soff (sectorCount d.len) d.ptr s := by
  simp [transfer, hty]

theorem transfer_of_other {s : State} (h0 : s.blk.rtype ≠ 0#32) (h1 : s.blk.rtype ≠ 1#32) (d : Desc) :
    transfer d s = (0, s) := by
  simp [transfer, h0, h1]

/-- The accounting of an IN request (R157, R160). -/
theorem accountStep_of_in {s : State} (hty : s.blk.rtype = 0#32) :
    ∃ e n, accountStep s =
        { s with
          blk := { s.blk with
            job := { s.blk.job with written := s.blk.job.written + s.blk.desc.len.toNat }, bstate := .job .next
            soff := s.blk.soff + BitVec.ofNat 64 (sectorCount s.blk.desc.len), err := e }
          env := { s.env with
            draws := n, calls := s.env.calls ++ [.recordWritten s.blk.job.id s.blk.desc.len.toNat] } } ∧
      ErrAfter s.blk.st s.blk.err e ∧ (s.blk.st = 0 → n = s.env.draws) := by
  obtain ⟨e, n, h, herr, hn⟩ := accumulate_eq s.blk.st (advance s.blk.desc (recordWritten s.blk.desc.len.toNat s))
  refine ⟨e, n, ?_, herr, hn⟩
  rw [accountStep, account, if_pos hty, h]
  rfl

/-- The accounting of any other request (R158 to R160). -/
theorem accountStep_of_not_in {s : State} (hty : s.blk.rtype ≠ 0#32) :
    ∃ e n, accountStep s =
        { s with
          blk := { s.blk with
            bstate := .job .next, soff := s.blk.soff + BitVec.ofNat 64 (sectorCount s.blk.desc.len), err := e }
          env := { s.env with draws := n } } ∧
      ErrAfter s.blk.st s.blk.err e ∧ (s.blk.st = 0 → n = s.env.draws) := by
  obtain ⟨e, n, h, herr, hn⟩ := accumulate_eq s.blk.st (advance s.blk.desc s)
  refine ⟨e, n, ?_, herr, hn⟩
  rw [accountStep, account, if_neg hty, h]
  rfl

/-- An IN request's data descriptor fills its buffer and records its length, whether or not the call succeeded. -/
theorem dataDesc_of_in {s : State} (hty : s.blk.rtype = 0#32) (d : Desc) (ds : List Desc) :
    ∃ bs e n, accountStep (dataStep d (descGot d ds s)) =
        { dataDone d ds (nextStatus s) (s.blk.job.written + d.len.toNat) e
            { s.env with
              statuses := s.env.statuses.tail, draws := n
              calls := s.env.calls ++ [.readSectors s.blk.soff (sectorCount d.len) d.ptr (nextStatus s),
                .recordWritten s.blk.job.id d.len.toNat] } s with
          mem := s.mem.writeMany (byteAt d.ptr) 0 bs } ∧
      bs.length = sectorCount d.len * 512 ∧ ErrAfter (nextStatus s) s.blk.err e ∧
      (nextStatus s = 0 → bs = s.disk.readMany (diskAt s.blk.soff) (sectorCount d.len * 512) ∧
        n = statusDraws s.env) := by
  obtain ⟨bs, k, hread, hlength, hok⟩ := readSectors_eq s.blk.soff (sectorCount d.len) d.ptr (descGot d ds s)
  have hdata : dataStep d (descGot d ds s) =
      { (readSectors s.blk.soff (sectorCount d.len) d.ptr (descGot d ds s)).2 with
        blk.st := nextStatus s, blk.bstate := .job .account } := by
    rw [dataStep, transfer_of_in (s := descGot d ds s) hty]
    rfl
  rw [hread, nextStatus_descGot] at hdata
  obtain ⟨e, n, haccount, herr, hn⟩ := accountStep_of_in (s := dataStep d (descGot d ds s)) (by rw [hdata]; exact hty)
  rw [hdata] at haccount herr hn
  refine ⟨bs, e, n, ?_, hlength, herr, fun hst => ?_⟩
  · rw [hdata, haccount]
    simp [dataDone, descGot, storageEnv]
  · obtain ⟨hbs, hk⟩ := hok hst
    exact ⟨hbs, (hn hst).trans hk⟩

/-- An OUT request's data descriptor fills its sectors and records nothing. -/
theorem dataDesc_of_out {s : State} (hty : s.blk.rtype = 1#32) (d : Desc) (ds : List Desc) :
    ∃ bs e n, accountStep (dataStep d (descGot d ds s)) =
        { dataDone d ds (nextStatus s) s.blk.job.written e
            { s.env with
              statuses := s.env.statuses.tail, draws := n
              calls := s.env.calls ++ [.writeSectors s.blk.soff (sectorCount d.len) d.ptr (nextStatus s)] } s with
          disk := s.disk.writeMany (diskAt s.blk.soff) 0 bs } ∧
      bs.length = sectorCount d.len * 512 ∧ ErrAfter (nextStatus s) s.blk.err e ∧
      (nextStatus s = 0 → bs = s.mem.readMany (byteAt d.ptr) (sectorCount d.len * 512) ∧ n = statusDraws s.env) := by
  obtain ⟨bs, k, hwrite, hlength, hok⟩ := writeSectors_eq s.blk.soff (sectorCount d.len) d.ptr (descGot d ds s)
  have hdata : dataStep d (descGot d ds s) =
      { (writeSectors s.blk.soff (sectorCount d.len) d.ptr (descGot d ds s)).2 with
        blk.st := nextStatus s, blk.bstate := .job .account } := by
    rw [dataStep, transfer_of_out (s := descGot d ds s) hty]
    rfl
  rw [hwrite, nextStatus_descGot] at hdata
  have hnot : (dataStep d (descGot d ds s)).blk.rtype ≠ 0#32 := by
    rw [hdata]
    exact fun h => absurd (h.symm.trans hty) (by decide)
  obtain ⟨e, n, haccount, herr, hn⟩ := accountStep_of_not_in hnot
  rw [hdata] at haccount herr hn
  refine ⟨bs, e, n, ?_, hlength, herr, fun hst => ?_⟩
  · rw [hdata, haccount]
    rfl
  · obtain ⟨hbs, hk⟩ := hok hst
    exact ⟨hbs, (hn hst).trans hk⟩

/-- A data descriptor of a request of another type only advances the offset (R159). -/
theorem dataDesc_of_other {s : State} (h0 : s.blk.rtype ≠ 0#32) (h1 : s.blk.rtype ≠ 1#32) (d : Desc)
    (ds : List Desc) :
    accountStep (dataStep d (descGot d ds s)) = dataDone d ds 0 s.blk.job.written s.blk.err s.env s := by
  have hdata : dataStep d (descGot d ds s) =
      { descGot d ds s with blk := { (descGot d ds s).blk with st := 0, bstate := .job .account } } := by
    rw [dataStep, transfer_of_other (s := descGot d ds s) h0 h1]
  obtain ⟨e, n, haccount, ⟨herr, -⟩, hn⟩ :=
    accountStep_of_not_in (s := dataStep d (descGot d ds s)) (by rw [hdata]; exact h0)
  rw [hdata] at haccount herr hn
  rw [hdata, haccount, herr rfl, hn rfl]
  rfl

end Sys2Proof.Machine
end

section
/-! PROOFS. BLK_IN and BLK_OUT on one data and one status descriptor (R157, R158, R162), with the storage call
succeeding and failing. -/

namespace Sys2Proof.Machine

theorem runRequest_of_budget {s : State} {n : Nat} (hb : s.env.budget = n + 1) (type : Word) (sector : BitVec 64) :
    runRequest type sector s = runJob n (captureHeader type sector s) := by
  rw [runRequest, hb]

/-- A turn of eleven steps or more completes a request of two descriptors whose data descriptor leaves the state `u`. -/
theorem runRequest_of_data_status {s u : State} {d e : Desc} {type : Word} {sector : BitVec 64}
    (hrest : s.blk.job.rest = [d, e]) (hd : classify s.env.params.statusLen d.len = .data)
    (he : classify s.env.params.statusLen e.len = .status) (hf : s.fatal = false) (hb : 11 ≤ s.env.budget)
    (hu : accountStep (dataStep d (descGot d [e] (captureHeader type sector s))) = u) (hnext : AtNext u)
    (hurest : u.blk.job.rest = [e]) (huparams : u.env.params = s.env.params) :
    runRequest type sector s = requestDone (statusDone e [] u) := by
  obtain ⟨m, hm⟩ := exists_budget hb
  calc runRequest type sector s
      = runJob (m + 3 + 3 + 4) (captureHeader type sector s) := runRequest_of_budget hm type sector
    _ = runJob (m + 3 + 3) u := by rw [runJob_of_data (s := captureHeader type sector s) ⟨hf, rfl⟩ hrest hd, hu]
    _ = runJob (m + 3) (statusDone e [] u) := runJob_of_status hnext hurest (huparams ▸ he) _
    _ = requestDone (statusDone e [] u) := runJob_of_end (s := statusDone e [] u) ⟨hnext.1, rfl⟩ rfl m

/-- A store into the sectors from `off` on leaves each of their bytes as stored. -/
theorem read_writeMany_diskAt {m : Memory} (hm : m.wf) (off : BitVec 64) {bs : List Byte}
    (hlength : bs.length ≤ 2 ^ 32) {k : Nat} (hk : k < bs.length) :
    (m.writeMany (diskAt off) 0 bs).read (diskAt off k) = bs[k] := by
  have hinj : ∀ i < bs.length, ∀ j < bs.length, diskAt off (0 + i) = diskAt off (0 + j) → i = j := fun i hi j hj h => by
    rw [Nat.zero_add, Nat.zero_add] at h
    exact diskAt_inj (by omega) (by omega) h
  simpa using Memory.read_writeMany hm hinj hk

theorem read_writeMany_diskAt_of_ne {m : Memory} {off : BitVec 64} {bs : List Byte} {a : Nat}
    (h : ∀ k < bs.length, a ≠ diskAt off k) : (m.writeMany (diskAt off) 0 bs).read a = m.read a :=
  Memory.read_writeMany_of_ne fun k hk => by simpa using h k hk

/-- The bytes a data descriptor moves are as many as its length says (R156). -/
theorem length_eq_of_data {rule : Config.StatusLenRule} {d : Desc} {bs : List Byte}
    (h : classify rule d.len = .data) (hbs : bs.length = sectorCount d.len * 512) : bs.length = d.len.toNat :=
  hbs.trans (sectorCount_of_data h).1

/-- Settles O41: the data descriptor copies the sectors, the status descriptor then writes the clear error byte. -/
theorem blkInCopiesSectors : Obligations.BlkInCopiesSectors := by
  intro reserved sector s d e hrest hd he hst hf hb hwf
  obtain ⟨bs, err, n, hu, hcount, ⟨herr, -⟩, hok⟩ := dataDesc_of_in (s := captureHeader 0#32 sector s) rfl d [e]
  obtain ⟨hbs, hn⟩ := hok hst
  obtain rfl : err = 0#8 := herr hst
  have hlength : bs.length = d.len.toNat := length_eq_of_data hd hcount
  have hst' : nextStatus (captureHeader 0#32 sector s) = 0 := hst
  have hwf' : (s.mem.writeMany (byteAt d.ptr) 0 bs).wf := Memory.writeMany_wf hwf _ _ _
  rw [hst', hn] at hu
  refine ⟨_, congrArg Host.Outcome.next (runRequest_of_data_status hrest hd he hf hb hu ⟨hf, rfl⟩ rfl rfl),
    Memory.read_write_self hwf' _ _, fun k hk hne => ?_, fun a hne hout => ?_, ?_⟩
  · have hk' : k < bs.length := hlength ▸ hk
    calc _ = (s.mem.writeMany (byteAt d.ptr) 0 bs).read (byteAt d.ptr k) := Memory.read_write_of_ne hne _
      _ = bs[k] := read_writeMany_byteAt hwf d.ptr (hlength ▸ d.len.isLt.le) hk'
      _ = s.disk.read (diskAt sector k) := by simp only [hbs, Memory.readMany_getElem]; rfl
  · calc _ = (s.mem.writeMany (byteAt d.ptr) 0 bs).read a := Memory.read_write_of_ne hne _
      _ = s.mem.read a := read_writeMany_byteAt_of_ne fun k hk => hout k (hlength ▸ hk)
  · rw [statusTaken_eq]
    simp [requestDone, statusDone, dataDone, sectorCount]

/-- Settles O42: the data descriptor copies the buffer, and of memory only the status byte is written. -/
theorem blkOutWritesSectors : Obligations.BlkOutWritesSectors := by
  intro reserved sector s d e hrest hd he hst hf hb hwf hdwf
  obtain ⟨bs, err, n, hu, hcount, ⟨herr, -⟩, hok⟩ := dataDesc_of_out (s := captureHeader 1#32 sector s) rfl d [e]
  obtain ⟨hbs, hn⟩ := hok hst
  obtain rfl : err = 0#8 := herr hst
  have hlength : bs.length = d.len.toNat := length_eq_of_data hd hcount
  have hst' : nextStatus (captureHeader 1#32 sector s) = 0 := hst
  rw [hst', hn] at hu
  refine ⟨_, congrArg Host.Outcome.next (runRequest_of_data_status hrest hd he hf hb hu ⟨hf, rfl⟩ rfl rfl),
    Memory.read_write_self hwf _ _, fun a hne => Memory.read_write_of_ne hne _, fun k hk => ?_, fun a hout => ?_, ?_⟩
  · have hk' : k < bs.length := hlength ▸ hk
    calc _ = bs[k] := read_writeMany_diskAt hdwf sector (hlength ▸ d.len.isLt.le) hk'
      _ = s.mem.read (byteAt d.ptr k) := by simp only [hbs, Memory.readMany_getElem]; rfl
  · exact read_writeMany_diskAt_of_ne fun k hk => hout k (hlength ▸ hk)
  · rw [statusTaken_eq]
    simp [requestDone, statusDone, dataDone, sectorCount]

/-- Settles O55: whatever the failed call leaves stands in the buffer, and the error byte it leaves is not zero. -/
theorem failedBlkInIsReportedInTheStatusByte : Obligations.FailedBlkInIsReportedInTheStatusByte := by
  intro reserved sector s d e hrest hd he hst hf hb hwf
  obtain ⟨bs, err, n, hu, hcount, ⟨-, herr⟩, -⟩ := dataDesc_of_in (s := captureHeader 0#32 sector s) rfl d [e]
  have hlength : bs.length = d.len.toNat := length_eq_of_data hd hcount
  have hst' : nextStatus (captureHeader 0#32 sector s) = nextStatus s := rfl
  have hwf' : (s.mem.writeMany (byteAt d.ptr) 0 bs).wf := Memory.writeMany_wf hwf _ _ _
  rw [hst'] at hu
  refine ⟨_, err, congrArg Host.Outcome.next (runRequest_of_data_status hrest hd he hf hb hu ⟨hf, rfl⟩ rfl rfl),
    herr hst, Memory.read_write_self hwf' _ _, fun a hne hout => ?_, ?_⟩
  · calc _ = (s.mem.writeMany (byteAt d.ptr) 0 bs).read a := Memory.read_write_of_ne hne _
      _ = s.mem.read a := read_writeMany_byteAt_of_ne fun k hk => hout k (hlength ▸ hk)
  · simp [requestDone, statusDone, dataDone, sectorCount]

/-- Settles O56: whatever the failed call leaves stands in the sectors, and the error byte it leaves is not zero. -/
theorem failedBlkOutIsReportedInTheStatusByte : Obligations.FailedBlkOutIsReportedInTheStatusByte := by
  intro reserved sector s d e hrest hd he hst hf hb hwf
  obtain ⟨bs, err, n, hu, hcount, ⟨-, herr⟩, -⟩ := dataDesc_of_out (s := captureHeader 1#32 sector s) rfl d [e]
  have hlength : bs.length = d.len.toNat := length_eq_of_data hd hcount
  have hst' : nextStatus (captureHeader 1#32 sector s) = nextStatus s := rfl
  rw [hst'] at hu
  refine ⟨_, err, congrArg Host.Outcome.next (runRequest_of_data_status hrest hd he hf hb hu ⟨hf, rfl⟩ rfl rfl),
    herr hst, Memory.read_write_self hwf _ _, fun a hne => Memory.read_write_of_ne hne _,
    fun a hout => read_writeMany_diskAt_of_ne fun k hk => hout k (hlength ▸ hk), ?_⟩
  simp [requestDone, statusDone, dataDone, sectorCount]

end Sys2Proof.Machine
end

section
/-! PROOFS. A request on a chain of any length (R161): what one descriptor does to the accounts, and by induction on the
chain what all of them do; then the requests that transfer nothing (R159). -/

namespace Sys2Proof.Machine

/-! ### The accounts of a chain, one descriptor at a time -/

theorem dataBytes_cons (rule : Config.StatusLenRule) (d : Desc) (ds : List Desc) :
    dataBytes rule (d :: ds) = dataBytes rule [d] + dataBytes rule ds := by
  simp [dataBytes]

theorem statusPointers_cons (rule : Config.StatusLenRule) (d : Desc) (ds : List Desc) :
    statusPointers rule (d :: ds) = statusPointers rule [d] ++ statusPointers rule ds := by
  by_cases h : classify rule d.len = .status <;> simp [statusPointers, h]

/-- How many sectors a descriptor moves the running offset by: those of a data descriptor (R160). -/
def sectorsOf (rule : Config.StatusLenRule) (d : Desc) : BitVec 64 :=
  if classify rule d.len = .data then BitVec.ofNat 64 (sectorCount d.len) else 0#64

theorem plannedTransfers_cons (rule : Config.StatusLenRule) (off : BitVec 64) (d : Desc) (ds : List Desc) :
    plannedTransfers rule off (d :: ds) =
      plannedTransfers rule off [d] ++ plannedTransfers rule (off + sectorsOf rule d) ds := by
  by_cases h : classify rule d.len = .data <;> simp [plannedTransfers, sectorsOf, sectorCount, h]

/-- Each status byte among some calls is zero exactly when the error byte was clear at first and every storage call
before it succeeded. -/
def StatusBytes (clear : Prop) (cs : List Call) : Prop :=
  ∀ pre p b post, cs = pre ++ .guestWrite p b :: post → (b = 0#8 ↔ clear ∧ allSucceeded pre = true)

/-- Calls without a status byte count by their storage calls alone. -/
theorem StatusBytes.append {clear : Prop} {cs cs' : List Call} (hcs : cs.filterMap statusWriteOf = [])
    (h : StatusBytes (clear ∧ allSucceeded cs = true) cs') : StatusBytes clear (cs ++ cs') := by
  intro pre p b post heq
  have hbefore : ∀ pre', pre = cs ++ pre' → cs' = pre' ++ .guestWrite p b :: post →
      (b = 0#8 ↔ clear ∧ allSucceeded pre = true) := by
    rintro pre' rfl heq'
    rw [h pre' p b post heq', allSucceeded, allSucceeded, allSucceeded, List.all_append, Bool.and_eq_true, and_assoc]
  rcases List.append_eq_append_iff.1 heq with ⟨pre', hpre, heq'⟩ | ⟨mid, hpre, heq'⟩
  · exact hbefore pre' hpre heq'
  · cases mid with
    | nil => exact hbefore [] (by simpa using hpre.symm) (by simpa using heq'.symm)
    | cons c mid =>
      obtain ⟨rfl, -⟩ := List.cons.inj heq'
      have hmem : Call.guestWrite p b ∈ cs := by rw [hpre]; simp
      exact absurd (List.filterMap_eq_nil_iff.1 hcs _ hmem) (by simp [statusWriteOf])

/-- A status byte that says what the error byte says, before the rest. -/
theorem StatusBytes.cons {clear : Prop} {p : Word} {b : Byte} {cs : List Call} (hb : b = 0#8 ↔ clear)
    (h : StatusBytes clear cs) : StatusBytes clear (.guestWrite p b :: cs) := by
  intro pre q c post heq
  cases pre with
  | nil =>
    obtain ⟨hc, -⟩ := List.cons.inj heq
    cases hc
    simpa [allSucceeded] using hb
  | cons x pre =>
    obtain ⟨rfl, htail⟩ := List.cons.inj heq
    rw [h pre q c post htail]
    simp [allSucceeded, noFailure]

theorem StatusBytes.of_none {clear : Prop} {cs : List Call} (hcs : cs.filterMap statusWriteOf = []) :
    StatusBytes clear cs := by
  intro pre p b post heq
  have hmem : Call.guestWrite p b ∈ cs := by rw [heq]; simp
  exact absurd (List.filterMap_eq_nil_iff.1 hcs _ hmem) (by simp [statusWriteOf])

/-- From `s`, with the calls `cs`, the descriptor `d` is done and `u` is about to fetch the next of `ds`. -/
structure DescDone (d : Desc) (ds : List Desc) (s u : State) (cs : List Call) : Prop where
  next : AtNext u
  rest : u.blk.job.rest = ds
  params : u.env.params = s.env.params
  queue : u.blk.queue = s.blk.queue
  id : u.blk.job.id = s.blk.job.id
  rtype : u.blk.rtype = s.blk.rtype
  soff : u.blk.soff = s.blk.soff + sectorsOf s.env.params.statusLen d
  written : u.blk.job.written =
    s.blk.job.written + if s.blk.rtype = 0#32 then dataBytes s.env.params.statusLen [d] else 0
  calls : u.env.calls = s.env.calls ++ cs
  statuses : cs.filterMap statusWriteOf = statusPointers s.env.params.statusLen [d]
  reads : cs.filterMap readOf =
    if s.blk.rtype = 0#32 then plannedTransfers s.env.params.statusLen s.blk.soff [d] else []
  writes : cs.filterMap writeOf =
    if s.blk.rtype = 1#32 then plannedTransfers s.env.params.statusLen s.blk.soff [d] else []
  bytes : ∀ cs', StatusBytes (u.blk.err = 0#8) cs' → StatusBytes (s.blk.err = 0#8) (cs ++ cs')

/-- The error byte after a storage call is clear exactly when it was and the call succeeded. -/
theorem ErrAfter.eq_zero_iff {st : Nat} {before after : Byte} (h : ErrAfter st before after) :
    after = 0#8 ↔ before = 0#8 ∧ st = 0 := by
  obtain ⟨hok, hfail⟩ := h
  by_cases hst : st = 0
  · simp [hok hst, hst]
  · simp [hfail hst, hst]

theorem descDone_status {s : State} (hs : AtNext s) {d : Desc}
    (hc : classify s.env.params.statusLen d.len = .status) (ds : List Desc) :
    DescDone d ds s (statusDone d ds s) [.guestWrite d.ptr s.blk.err] where
  next := ⟨hs.1, rfl⟩
  rest := rfl
  params := rfl
  queue := rfl
  id := rfl
  rtype := rfl
  soff := by simp [statusDone, sectorsOf, hc]
  written := by simp [statusDone, dataBytes, hc]
  calls := rfl
  statuses := by simp [statusPointers, statusWriteOf, hc]
  reads := by simp [readOf, plannedTransfers, hc]
  writes := by simp [writeOf, plannedTransfers, hc]
  bytes := fun _ h => h.cons Iff.rfl

/-- A data descriptor of each type makes the transfer that its type plans, or none. -/
theorem descDone_data {s : State} (hs : AtNext s) {d : Desc} (hc : classify s.env.params.statusLen d.len = .data)
    (ds : List Desc) : ∃ cs, DescDone d ds s (accountStep (dataStep d (descGot d ds s))) cs := by
  by_cases h0 : s.blk.rtype = 0#32
  · obtain ⟨bs, e, n, hu, -, herr, -⟩ := dataDesc_of_in h0 d ds
    rw [hu]
    refine ⟨_, ⟨hs.1, rfl⟩, rfl, rfl, rfl, rfl, rfl, ?_, ?_, rfl, ?_, ?_, ?_, fun cs' h => .append rfl ?_⟩
    · simp [dataDone, sectorsOf, hc]
    · simp [dataDone, dataBytes, hc, h0]
    · simp [statusPointers, statusWriteOf, hc]
    · simp [readOf, plannedTransfers, sectorCount, hc, h0]
    · simp [writeOf, h0]
    · simpa [dataDone, allSucceeded, noFailure, herr.eq_zero_iff] using h
  · by_cases h1 : s.blk.rtype = 1#32
    · obtain ⟨bs, e, n, hu, -, herr, -⟩ := dataDesc_of_out h1 d ds
      rw [hu]
      refine ⟨_, ⟨hs.1, rfl⟩, rfl, rfl, rfl, rfl, rfl, ?_, ?_, rfl, ?_, ?_, ?_, fun cs' h => .append rfl ?_⟩
      · simp [dataDone, sectorsOf, hc]
      · simp [dataDone, h1]
      · simp [statusPointers, statusWriteOf, hc]
      · simp [readOf, h1]
      · simp [writeOf, plannedTransfers, sectorCount, hc, h1]
      · simpa [dataDone, allSucceeded, noFailure, herr.eq_zero_iff] using h
    · rw [dataDesc_of_other h0 h1]
      refine ⟨[], ⟨hs.1, rfl⟩, rfl, rfl, rfl, rfl, rfl, ?_, ?_, by simp [dataDone], ?_, ?_, ?_, fun cs' h => h⟩
      · simp [dataDone, sectorsOf, hc]
      · simp [dataDone, h0]
      · simp [statusPointers, hc]
      · simp [h0]
      · simp [h1]

/-- The next descriptor of a chain without a violation is done in at most four steps. -/
theorem runJob_desc {s : State} (hs : AtNext s) {d : Desc} {ds : List Desc} (hr : s.blk.job.rest = d :: ds)
    (hc : classify s.env.params.statusLen d.len ≠ .violation) {n : Nat} (hn : 4 ≤ n) :
    ∃ u cs m, runJob n s = runJob m u ∧ n ≤ m + 4 ∧ DescDone d ds s u cs := by
  cases hclass : classify s.env.params.statusLen d.len with
  | data =>
    obtain ⟨m, rfl⟩ : ∃ m, n = m + 4 := ⟨n - 4, by omega⟩
    obtain ⟨cs, hdone⟩ := descDone_data hs hclass ds
    exact ⟨_, cs, m, runJob_of_data hs hr hclass m, le_rfl, hdone⟩
  | status =>
    obtain ⟨m, rfl⟩ : ∃ m, n = m + 3 := ⟨n - 3, by omega⟩
    exact ⟨_, _, m, runJob_of_status hs hr hclass m, by omega, descDone_status hs hclass ds⟩
  | violation => exact absurd hclass hc

/-! ### The whole chain (R161) -/

/-- From `s`, with the calls `cs`, the chain `ds` is done and the request completed in `t`. -/
structure ChainDone (ds : List Desc) (s t : State) (cs : List Call) : Prop where
  fatal : t.fatal = false
  bstate : t.blk.bstate = .job .fetch
  written : t.blk.job.written =
    s.blk.job.written + if s.blk.rtype = 0#32 then dataBytes s.env.params.statusLen ds else 0
  calls : t.env.calls = s.env.calls ++ cs
  push : Call.pushCompleted s.blk.queue s.blk.job.id t.blk.job.written ∈ cs
  statuses : cs.filterMap statusWriteOf = statusPointers s.env.params.statusLen ds
  reads : cs.filterMap readOf =
    if s.blk.rtype = 0#32 then plannedTransfers s.env.params.statusLen s.blk.soff ds else []
  writes : cs.filterMap writeOf =
    if s.blk.rtype = 1#32 then plannedTransfers s.env.params.statusLen s.blk.soff ds else []
  bytes : StatusBytes (s.blk.err = 0#8) cs

theorem chainDone_nil {s : State} (hs : AtNext s) :
    ChainDone [] s (requestDone s)
      [.pushCompleted s.blk.queue s.blk.job.id s.blk.job.written, .notifyHost s.blk.queue] where
  fatal := hs.1
  bstate := rfl
  written := by simp [requestDone, dataBytes]
  calls := rfl
  push := List.mem_cons_self
  statuses := rfl
  reads := by simp [readOf, plannedTransfers]
  writes := by simp [writeOf, plannedTransfers]
  bytes := .of_none rfl

/-- The accounts of a chain are those of its first descriptor and of the rest. -/
theorem DescDone.chain {d : Desc} {ds : List Desc} {s u t : State} {cs cs' : List Call} (hd : DescDone d ds s u cs)
    (h : ChainDone ds u t cs') : ChainDone (d :: ds) s t (cs ++ cs') where
  fatal := h.fatal
  bstate := h.bstate
  written := by
    rw [h.written, hd.written, hd.rtype, hd.params, dataBytes_cons _ d ds]
    split <;> omega
  calls := by rw [h.calls, hd.calls, List.append_assoc]
  push := List.mem_append_right _ (by rw [← hd.queue, ← hd.id]; exact h.push)
  statuses := by rw [List.filterMap_append, hd.statuses, h.statuses, hd.params, ← statusPointers_cons]
  reads := by
    rw [List.filterMap_append, hd.reads, h.reads, hd.rtype, hd.params, hd.soff, plannedTransfers_cons _ _ d ds]
    split <;> simp
  writes := by
    rw [List.filterMap_append, hd.writes, h.writes, hd.rtype, hd.params, hd.soff, plannedTransfers_cons _ _ d ds]
    split <;> simp
  bytes := hd.bytes _ h.bytes

theorem runJob_chain {ds : List Desc} {s : State} (hs : AtNext s) (hr : s.blk.job.rest = ds)
    (hv : NoViolation s.env.params.statusLen ds) {n : Nat} (hn : 4 * ds.length + 3 ≤ n) :
    ∃ cs, ChainDone ds s (runJob n s) cs := by
  induction ds generalizing s n with
  | nil =>
    obtain ⟨m, rfl⟩ : ∃ m, n = m + 3 := ⟨n - 3, by simp at hn; omega⟩
    rw [runJob_of_end hs hr]
    exact ⟨_, chainDone_nil hs⟩
  | cons d ds ih =>
    rw [List.length_cons] at hn
    obtain ⟨u, cs, m, hrun, hm, hd⟩ := runJob_desc hs hr (hv d List.mem_cons_self) (n := n) (by omega)
    have hvs : NoViolation u.env.params.statusLen ds := by
      rw [hd.params]
      exact fun e he => hv e (List.mem_cons_of_mem d he)
    obtain ⟨cs', h⟩ := ih hd.next hd.rest hvs (n := m) (by omega)
    rw [hrun]
    exact ⟨cs ++ cs', hd.chain h⟩

/-- A request with steps enough for its chain completes, whatever its type. -/
theorem runRequest_chain (type : Word) (sector : BitVec 64) {s : State} (hf : s.fatal = false)
    (hv : NoViolation s.env.params.statusLen s.blk.job.rest) (hb : 4 * s.blk.job.rest.length + 4 ≤ s.env.budget) :
    ∃ cs, ChainDone s.blk.job.rest (captureHeader type sector s) (runRequest type sector s) cs := by
  obtain ⟨n, hn⟩ : ∃ n, s.env.budget = n + 1 := ⟨s.env.budget - 1, by omega⟩
  have henough : 4 * s.blk.job.rest.length + 3 ≤ n := by omega
  rw [runRequest_of_budget hn]
  exact runJob_chain (s := captureHeader type sector s) ⟨hf, rfl⟩ rfl hv henough

/-- The accounts of a request begin with a clear error byte (R154). -/
theorem accounted_of_chainDone {type : Word} {sector : BitVec 64} {s t : State} {cs : List Call} {n : Nat}
    (h : ChainDone s.blk.job.rest (captureHeader type sector s) t cs) (hn : t.blk.job.written = n) :
    Accounted s t cs n := by
  refine ⟨h.calls, h.fatal, h.bstate, hn, hn ▸ h.push, h.statuses, fun pre p b post heq => ?_⟩
  exact (h.bytes pre p b post heq).trans (and_iff_right rfl)

theorem runOtherRequest_of_literal {s : State} (h : s.env.params.unknownType = .literal) (type : Word)
    (sector : BitVec 64) : runOtherRequest type sector s = .next (runRequest type sector s) := by
  rw [runOtherRequest, h]

/-- Settles O43: the chain's accounts by induction, read for each of the three types. -/
theorem scatterGatherAccounting : Obligations.ScatterGatherAccounting := by
  intro reserved type sector s hf hv hb
  refine ⟨?_, ?_, fun h0 h1 hrule => ?_⟩
  · obtain ⟨cs, h⟩ := runRequest_chain 0#32 sector hf hv hb
    exact ⟨_, cs, rfl, accounted_of_chainDone h h.written, h.reads, h.writes⟩
  · obtain ⟨cs, h⟩ := runRequest_chain 1#32 sector hf hv hb
    exact ⟨_, cs, rfl, accounted_of_chainDone h h.written, h.writes, h.reads⟩
  · obtain ⟨cs, h⟩ := runRequest_chain type sector hf hv hb
    have hwritten : (runRequest type sector s).blk.job.written = s.blk.job.written := by
      simpa [h0] using h.written
    exact ⟨_, cs, runOtherRequest_of_literal hrule type sector, accounted_of_chainDone h hwritten,
      by simpa [h0] using h.reads, by simpa [h1] using h.writes⟩

/-! ### Requests of another type (R159) -/

/-- Zero bytes written at pointers, in order. -/
def zeroAt : List Word → Memory → Memory
  | [], m => m
  | p :: ps, m => zeroAt ps (m.write p.toNat 0#8)

theorem zeroAt_read_of_notMem {ps : List Word} {m : Memory} {a : Nat} (h : ∀ p ∈ ps, a ≠ p.toNat) :
    (zeroAt ps m).read a = m.read a := by
  induction ps generalizing m with
  | nil => rfl
  | cons p ps ih =>
    rw [zeroAt, ih fun q hq => h q (List.mem_cons_of_mem p hq),
      Memory.read_write_of_ne (h p List.mem_cons_self)]

theorem zeroAt_read_of_mem {ps : List Word} {m : Memory} (hm : m.wf) {p : Word} (hp : p ∈ ps) :
    (zeroAt ps m).read p.toNat = 0#8 := by
  induction ps generalizing m with
  | nil => cases hp
  | cons q ps ih =>
    by_cases hin : p ∈ ps
    · exact ih (Memory.write_wf hm _ _) hin
    · obtain rfl : p = q := (List.mem_cons.1 hp).resolve_right hin
      have hne : ∀ r ∈ ps, p.toNat ≠ r.toNat := fun r hr h => hin (BitVec.eq_of_toNat_eq h ▸ hr)
      rw [zeroAt, zeroAt_read_of_notMem hne, Memory.read_write_self hm]

/-- A request in progress of a type that transfers nothing, its error byte clear. -/
def TransfersNothing (s : State) : Prop := s.blk.rtype ≠ 0#32 ∧ s.blk.rtype ≠ 1#32 ∧ s.blk.err = 0#8

/-- The state after such a request: zero bytes at the status pointers, the offset moved past the data descriptors. -/
structure NothingTransferred (ds : List Desc) (s t : State) : Prop where
  calls : t.env.calls = s.env.calls ++
    (statusPointers s.env.params.statusLen ds).map (fun p => Call.guestWrite p 0#8) ++
    [.pushCompleted s.blk.queue s.blk.job.id s.blk.job.written, .notifyHost s.blk.queue]
  mem : t.mem = zeroAt (statusPointers s.env.params.statusLen ds) s.mem
  disk : t.disk = s.disk
  written : t.blk.job.written = s.blk.job.written
  err : t.blk.err = 0#8
  bstate : t.blk.bstate = .job .fetch
  soff : t.blk.soff = s.blk.soff + BitVec.ofNat 64 (dataBytes s.env.params.statusLen ds / 512)

/-- A data descriptor's bytes are whole sectors, so the sectors of a chain add up. -/
theorem dataBytes_div_of_data {rule : Config.StatusLenRule} {d : Desc} (h : classify rule d.len = .data)
    (ds : List Desc) : dataBytes rule (d :: ds) / 512 = sectorCount d.len + dataBytes rule ds / 512 := by
  obtain ⟨hexact, -, -⟩ := sectorCount_of_data h
  have hcons : dataBytes rule (d :: ds) = d.len.toNat + dataBytes rule ds := by simp [dataBytes, h]
  omega

theorem runJob_chain_of_other {ds : List Desc} {s : State} (hs : AtNext s) (hty : TransfersNothing s)
    (hr : s.blk.job.rest = ds) (hv : NoViolation s.env.params.statusLen ds) {n : Nat} (hn : 4 * ds.length + 3 ≤ n) :
    NothingTransferred ds s (runJob n s) := by
  obtain ⟨h0, h1, herr⟩ := hty
  induction ds generalizing s n with
  | nil =>
    obtain ⟨m, rfl⟩ : ∃ m, n = m + 3 := ⟨n - 3, by simp at hn; omega⟩
    rw [runJob_of_end hs hr]
    exact ⟨by simp [requestDone, statusPointers], rfl, rfl, rfl, herr, rfl, by simp [requestDone, dataBytes]⟩
  | cons d ds ih =>
    rw [List.length_cons] at hn
    have hvs : NoViolation s.env.params.statusLen ds := fun e he => hv e (List.mem_cons_of_mem d he)
    cases hclass : classify s.env.params.statusLen d.len with
    | data =>
      obtain ⟨m, rfl⟩ : ∃ m, n = m + 4 := ⟨n - 4, by omega⟩
      have hrun := runJob_of_data hs hr hclass m
      rw [dataDesc_of_other h0 h1] at hrun
      have h := ih (s := dataDone d ds 0 s.blk.job.written s.blk.err s.env s) (n := m) ⟨hs.1, rfl⟩ rfl hvs (by omega)
        h0 h1 herr
      have hpointers : statusPointers s.env.params.statusLen (d :: ds) = statusPointers s.env.params.statusLen ds := by
        simp [statusPointers, hclass]
      rw [hrun]
      refine ⟨hpointers ▸ h.calls, hpointers ▸ h.mem, h.disk, h.written, h.err, h.bstate, ?_⟩
      rw [h.soff, dataBytes_div_of_data hclass, BitVec.ofNat_add, ← BitVec.add_assoc]
      rfl
    | status =>
      obtain ⟨m, rfl⟩ : ∃ m, n = m + 3 := ⟨n - 3, by omega⟩
      have h := ih (s := statusDone d ds s) (n := m) ⟨hs.1, rfl⟩ rfl hvs (by omega) h0 h1 herr
      have hpointers : statusPointers s.env.params.statusLen (d :: ds) =
          d.ptr :: statusPointers s.env.params.statusLen ds := by
        simp [statusPointers, hclass]
      have hbytes : dataBytes s.env.params.statusLen (d :: ds) = dataBytes s.env.params.statusLen ds := by
        simp [dataBytes, hclass]
      rw [runJob_of_status hs hr hclass]
      refine ⟨?_, ?_, h.disk, h.written, h.err, h.bstate, hbytes ▸ h.soff⟩
      · rw [h.calls, hpointers]
        simp [statusDone, herr]
      · rw [h.mem, hpointers, zeroAt, ← herr]
        rfl
    | violation => exact absurd hclass (hv d List.mem_cons_self)

/-- Settles O44: the chain's status descriptors write zeros, and its data descriptors move the offset. -/
theorem otherTypesTransferNothing : Obligations.OtherTypesTransferNothing := by
  intro type sector s h0 h1 hf hrule hv hb hwf
  obtain ⟨n, hn⟩ : ∃ n, s.env.budget = n + 1 := ⟨s.env.budget - 1, by omega⟩
  have henough : 4 * s.blk.job.rest.length + 3 ≤ n := by omega
  have h : NothingTransferred s.blk.job.rest (captureHeader type sector s) (runRequest type sector s) := by
    rw [runRequest_of_budget hn]
    exact runJob_chain_of_other (s := captureHeader type sector s) ⟨hf, rfl⟩ ⟨h0, h1, rfl⟩ rfl hv henough
  refine ⟨_, runOtherRequest_of_literal hrule type sector, h.calls, h.disk, h.written, h.err, h.bstate,
    fun d hd hc => ?_, h.soff, fun a ha => ?_⟩
  · rw [h.mem]
    exact zeroAt_read_of_mem hwf (mem_statusPointers.2 ⟨d, hd, hc, rfl⟩)
  · rw [h.mem]
    refine zeroAt_read_of_notMem fun p hp => ?_
    obtain ⟨d, hd, hc, rfl⟩ := mem_statusPointers.1 hp
    exact ha d hd hc

end Sys2Proof.Machine
end
